-- ==== Sys2Proof/Word.lean ====
section
/-! DEFINITION. The words of the core: the 8-bit command word, the 32-bit registers, a level of the
baseband frame and a complex sample of the transmit stream (00_scope R8, 20_memory R51). -/

namespace Sys2Proof

/-- A host command word, and one byte of a raw direction string (R74, R78). -/
abbrev Byte := BitVec 8

/-- A `u32` register, and an `i32` read through `toInt` (R8). -/
abbrev Word := BitVec 32

/-- One element of FRAME: the amplitude 0.0 or 0.95 (R51). -/
inductive Level where
  | low
  | high
  deriving DecidableEq, Repr, Inhabited

/-- `C32`: a pair of IEEE-754 binary32 values, real (in-phase) part first (R8, R51). -/
structure C32 where
  re : BitVec 32
  im : BitVec 32
  deriving DecidableEq, Repr, Inhabited

/-- Gain settings: an opaque value, passed to the radio unchanged and never read (R5, D30).
DESIGN CHOICE (log 4): held as a list of bytes. -/
abbrev Gain := List Byte

/-- A duration. DESIGN CHOICE (log 4): in microseconds; no rule computes with it (R31). -/
abbrev Duration := Nat

end Sys2Proof
end

