-- ==== Sys2Proof/Syntax.lean ====
section
/-! DEFINITION. The syntax of the core: the token alphabet (30_encoding R71), the operands of the
internal operations, and the instructions: one constructor per row of spec/opcode_table.json. -/

namespace Sys2Proof

/-- The fixed alphabet {N, S, E, W, NE, NW, SE, SW, STOP, IDLE} (R71). -/
inductive Token where
  | n | s | e | w | ne | nw | se | sw | stop | idle
  deriving DecidableEq, Repr, Inhabited

/-- One of the two sample buffers: the destination of MODULATE (R144: TXBUF, STOPBUF) and the
source of WRITE (R202: TX, STOP). -/
inductive BufSel where
  | tx
  | stop
  deriving DecidableEq, Repr, Inhabited

/-- The operand of CLASSIFY: a held mask (R101) or a raw direction string (R102, R78). -/
inductive ClassifyInput where
  | mask (m : BitVec 4)
  | raw (str : List Byte)
  deriving DecidableEq, Repr

/-- The operations of the core, in the order of spec/opcode_table.json. The first eighteen are host
command words (R75); the others are internal: the timer's event and the datapath operations that
handlers start (R77). -/
inductive Instr where
  | start
  | pressN | pressS | pressE | pressW | pressNE | pressNW | pressSE | pressSW
  | releaseN | releaseS | releaseE | releaseW | releaseNE | releaseNW | releaseSE | releaseSW
  | endSession
  | tick
  | classify (input : ClassifyInput)
  | encodeN | encodeS | encodeE | encodeW | encodeNE | encodeNW | encodeSE | encodeSW
  | encodeStop
  | encodeIdle
  | tile
  | modulate (dst : BufSel)
  | write (src : BufSel)
  deriving DecidableEq, Repr

end Sys2Proof
end

