-- ==== Sys2Proof/Config.lean ====
section
/-! DEFINITION. What the spec leaves to the implementation or to an agent outside the core: the
values a construction fixes (00_scope R5) and the FREE VALUES, opaque constants without a body, so
that a statement about the model holds whatever they are. The protocol constants of 00_scope R6
stand in Machine/Operands.lean; the quantiser of 41_modulator R146, a free value that needs the binary32
format, stands in Machine/Mixer.lean. -/

namespace Sys2Proof

/-- `phase` (10_state R21). -/
inductive Phase where
  | off
  | on
  deriving DecidableEq, Repr, Inhabited

/-- `sch`, the scheduler state; code 3 is never written (R24). -/
inductive Sch where
  | idle
  | moving
  | stopping
  deriving DecidableEq, Repr, Inhabited

/-- `wr`, the StreamWriter state (R32). -/
inductive WrState where
  | idle
  | busy
  deriving DecidableEq, Repr, Inhabited

/-- `wr_res`, the result of the last completed WRITE (R35). -/
inductive WrRes where
  | ok
  | fail
  deriving DecidableEq, Repr, Inhabited

/-- The configuration constants handed to a construction (R5): OPEN, so an argument of
`Machine.State.construct`. -/
structure Construction where
  sampleRate : BitVec 32
  fCenter : BitVec 64
  fRc : BitVec 64
  gain : Gain
  tTick : Duration
  tInit : Duration
  deriving DecidableEq, Repr, Inhabited

/-- A value for every register and buffer that 10_state R22 calls unspecified while `phase = OFF`
(all but `evq`, the fault flags with their record, the configuration registers, `phase` and
`tmr_armed`). -/
structure Unspecified where
  n : BitVec 32
  fOffset : BitVec 65
  sch : Sch
  held : BitVec 4
  curTok : Token
  tmrDelay : Duration
  wr : WrState
  wrSrc : BufSel
  wrLen : BitVec 32
  wrOff : BitVec 32
  wrRes : WrRes
  frame : List Level
  frameLen : BitVec 32
  txBuf : List C32
  txLen : BitVec 32
  stopBuf : List C32
  stopLen : BitVec 32
  deriving DecidableEq, Repr, Inhabited

/-- FREE VALUE (log 5): the radio's answer to a write primitive call that no entry of
`radioAnswers` answers: "a draw of any i32, under no law" (R87, R210, D34). -/
opaque Config.radioAnswer : Nat → BitVec 32

/-- FREE VALUE (log 8): whether a ready TICK goes before a waiting host command where no entry of
`turns` says so; "a model admits both orders" (R236). -/
opaque Config.tickFirst : Nat → Bool

/-- FREE VALUE (log 10): what the registers that R22 calls unspecified hold after END (R178). -/
opaque Config.unspecified : Nat → Unspecified

end Sys2Proof
end

