-- ==== Sys2Proof/Machine/State.lean ====
section
/-! DEFINITION. The state of the core: every register, buffer and queue of 10_state, the ghost `air`
of 20_memory R59, and the model's own fields for what agents outside the core will do. -/

namespace Sys2Proof.Machine

/-- One transaction on the radio port, as the core issued it (30_encoding R85 to R88). -/
inductive RadioTx where
  /-- `configure(sample_rate, center_frequency, gain_settings)` (R85). -/
  | configure (rate : BitVec 32) (center : BitVec 64) (gain : Gain)
  /-- `open_transmit_stream()` (R86). -/
  | openTransmitStream
  /-- `activate_stream()` (R86). -/
  | activateStream
  /-- `write(buffer, max_samples)` with the slice offered, and the radio's answer (R87). -/
  | write (offered : List C32) (maxSamples : BitVec 32) (answer : BitVec 32)
  /-- `deactivate_stream()` (R88). -/
  | deactivateStream
  /-- `close_stream()` (R88). -/
  | closeStream
  deriving DecidableEq, Repr

/-- Who runs first where a TICK is enabled and a host command waits (60_exceptions R236). -/
inductive Turn where
  | command
  | tick
  deriving DecidableEq, Repr

/-- Why the machine stops. The core's own faults (R220) are recorded conditions and no end of a run:
see `raise` in Machine/Ops.lean. -/
inductive Fault where
  /-- A radio transaction that never returns: "a model gives the core no step while the radio has not
  answered" (20_memory R65, U12). Raised by START, RELEASE, TICK, END and WRITE, where `radioHangAt` says so.
  Safe: the spec's own stuck state (log 6). -/
  | radioStuck
  /-- WRITE begun while `wr = W_BUSY`, against the precondition of 43_writer R202. Raised by WRITE, and
  by TICK and RELEASE through it, in states no run reaches (R27 e). Safe: the spec gives no effect there (log 18). -/
  | writerBusy
  /-- TILE or MODULATE, run by itself, whose result exceeds the capacity of its destination (10_state
  R38 to R40). Raised by TILE and MODULATE; no handler can meet it (20_memory R55). Safe (log 17). -/
  | bufferOverflow
  deriving DecidableEq, Repr

/-- Why an instruction has no meaning in a state. -/
inductive Refusal where
  /-- An instruction the model gives no meaning. Raised by no arm: every row of the table has one. Safe. -/
  | notModelled (mnemonic : String)
  /-- A TICK handler run while TICK is not enabled (42_scheduler R174: "Enabled when `phase = ON`, `tmr_armed =
  1`"; "a cancelled job never runs", R165). Raised by TICK; `step` never asks for it. Safe (log 19). -/
  | tickNotEnabled
  deriving DecidableEq, Repr

/-- The architectural state (10_state R20 to R45). -/
structure State where
  -- configuration registers, read-only after construction (R23)
  sampleRate : BitVec 32
  fCenter : BitVec 64
  fRc : BitVec 64
  gain : Gain
  tTick : Duration
  tInit : Duration
  -- derived registers, written by START only (R7, R23)
  n : BitVec 32
  fOffset : BitVec 65
  -- session and scheduler registers (R21, R24, R25, R26)
  phase : Phase
  sch : Sch
  held : BitVec 4
  curTok : Token
  -- timer registers (R30, R31)
  tmrArmed : Bool
  tmrDelay : Duration
  -- writer registers (R32 to R35)
  wr : WrState
  wrSrc : BufSel
  wrLen : BitVec 32
  wrOff : BitVec 32
  wrRes : WrRes
  -- fault flags and their record (R36, R37)
  fConfig : Bool
  fInvalid : Bool
  fWrite : Bool
  fCode : BitVec 2
  fInfo : BitVec 32
  -- buffers with their length registers (R38 to R40)
  frame : List Level
  frameLen : BitVec 32
  txBuf : List C32
  txLen : BitVec 32
  stopBuf : List C32
  stopLen : BitVec 32
  -- host command words that have arrived, oldest first (R42)
  evq : List Byte
  -- ghost: the samples the radio accepted since START (R59)
  air : List C32
  -- the model's own: the radio port as the core used it, oldest first (log 15)
  radioLog : List RadioTx
  -- the model's own: the answers to the next write primitive calls (log 5)
  radioAnswers : List (BitVec 32)
  -- the model's own: the index in radioLog of the first transaction that never returns (log 6)
  radioHangAt : Option Nat
  -- the model's own: the next scheduling draws (log 8)
  turns : List Turn
  -- the model's own: how many free values were drawn (log 31)
  draws : Nat
  -- the model's own: what CLASSIFY returned last at the boundary (log 14)
  classifyOut : Option Token
  deriving DecidableEq, Repr

/-- Construction, the power-on reset (70_reset R250, R251): the configuration registers latch the
given values, `phase` is OFF, the timer is disarmed, the writer idle, the flags clear, `evq` and
`air` empty. The registers R251 calls unspecified hold the values of log 3 (DESIGN CHOICE). -/
def State.construct (c : Construction) : State where
  sampleRate := c.sampleRate
  fCenter := c.fCenter
  fRc := c.fRc
  gain := c.gain
  tTick := c.tTick
  tInit := c.tInit
  n := 0
  fOffset := 0
  phase := .off
  sch := .idle
  held := 0
  curTok := .idle
  tmrArmed := false
  tmrDelay := 0
  wr := .idle
  wrSrc := .tx
  wrLen := 0
  wrOff := 0
  wrRes := .ok
  fConfig := false
  fInvalid := false
  fWrite := false
  fCode := 0
  fInfo := 0
  frame := []
  frameLen := 0
  txBuf := []
  txLen := 0
  stopBuf := []
  stopLen := 0
  evq := []
  air := []
  radioLog := []
  radioAnswers := []
  radioHangAt := none
  turns := []
  draws := 0
  classifyOut := none

/-- The constructed values of `State.reset`: the common start state of the programs of
95_test_vectors Part C (DESIGN CHOICE, log 2: the parameters are OPEN). -/
def resetConstruction : Construction where
  sampleRate := 2000
  fCenter := 1000
  fRc := 1500
  gain := []
  tTick := 2000
  tInit := 15000

/-- The machine right after reset. -/
def State.reset : State := State.construct resetConstruction

end Sys2Proof.Machine
end

