-- ==== Sys2Proof/Machine/Flags.lean ====
section
/-! DEFINITION. The fault flags and their codes (60_exceptions R220 to R222) and the tests that decide
whether a fault is raised: the sample-rate check of R224 and the answer check of 43_writer R203. -/

namespace Sys2Proof.Machine

/-- The three error kinds (R220). -/
inductive FaultKind where
  | configurationError
  | invalidCommand
  | streamWriteFailure
  deriving DecidableEq, Repr

/-- `f_code` of a fault (R221). -/
def faultCode : FaultKind → BitVec 2
  | .configurationError => 1
  | .invalidCommand => 2
  | .streamWriteFailure => 3

/-- Set the sticky flag of a fault (R36, R221). -/
def setFaultFlag (k : FaultKind) (s : State) : State :=
  { s with
    fConfig := k == .configurationError || s.fConfig
    fInvalid := k == .invalidCommand || s.fInvalid
    fWrite := k == .streamWriteFailure || s.fWrite }

/-- The check of START step 2: SAMPLE_RATE is at least 2000 and a multiple of 2000 (R7, R162, R224). -/
def rateValid (rate clock : Nat) : Bool := decide (clock ≤ rate) && rate % clock == 0

/-- An answer of the write primitive that means acceptance: `1 ≤ r ≤ max`, compared as an i32 (R87,
R203). -/
def answerAccepts (r : BitVec 32) (max : Nat) : Bool := decide (1 ≤ r.toInt) && decide (r.toInt ≤ max)

end Sys2Proof.Machine
end

