-- ==== Sys2Proof/WellFormed.lean ====
section
/-! DEFINITION. Well-formedness of an instruction as an entry of the host's command stream. The
operands of every instruction are well-formed by their types; the one check left is that the
instruction has a command word at all: "the host cannot start one directly" (30_encoding R77) of the
internal operations. -/

namespace Sys2Proof

/-- Why an instruction may not stand in the host's command stream. -/
inductive IllFormed where
  /-- TICK is raised by the timer and cannot be issued by the host (R77). -/
  | timerEvent
  /-- CLASSIFY, ENCODE, TILE, MODULATE and WRITE are started by handlers (R77). -/
  | datapathOperation
  deriving DecidableEq, Repr

/-- The check, with its reason: `none` for the eighteen instructions of R75. -/
def Instr.illFormed : Instr → Option IllFormed
  | .start => none
  | .pressN => none
  | .pressS => none
  | .pressE => none
  | .pressW => none
  | .pressNE => none
  | .pressNW => none
  | .pressSE => none
  | .pressSW => none
  | .releaseN => none
  | .releaseS => none
  | .releaseE => none
  | .releaseW => none
  | .releaseNE => none
  | .releaseNW => none
  | .releaseSE => none
  | .releaseSW => none
  | .endSession => none
  | .tick => some .timerEvent
  | .classify _ => some .datapathOperation
  | .encodeN => some .datapathOperation
  | .encodeS => some .datapathOperation
  | .encodeE => some .datapathOperation
  | .encodeW => some .datapathOperation
  | .encodeNE => some .datapathOperation
  | .encodeNW => some .datapathOperation
  | .encodeSE => some .datapathOperation
  | .encodeSW => some .datapathOperation
  | .encodeStop => some .datapathOperation
  | .encodeIdle => some .datapathOperation
  | .tile => some .datapathOperation
  | .modulate _ => some .datapathOperation
  | .write _ => some .datapathOperation

/-- An instruction the host may put into its command stream (R75, R77; log 22). -/
def Instr.wellFormed (i : Instr) : Bool := i.illFormed.isNone

end Sys2Proof
end

