-- ==== Sys2Proof/Decode.lean ====
section
/-! DEFINITION. Token codes (30_encoding R71) and command words (R74 to R76): the decoder, total on
any byte and rejecting by name, and the encoder, written from the opcode map of R75. -/

namespace Sys2Proof

/-- The 4-bit code of a token, in the source's order of listing (R71). -/
def Token.code : Token → BitVec 4
  | .n => 0
  | .s => 1
  | .e => 2
  | .w => 3
  | .ne => 4
  | .nw => 5
  | .se => 6
  | .sw => 7
  | .stop => 8
  | .idle => 9

/-- The token of a code; codes 10 to 15 are reserved (R71). -/
def Token.ofCode (c : BitVec 4) : Option Token :=
  match c.toNat with
  | 0 => some .n
  | 1 => some .s
  | 2 => some .e
  | 3 => some .w
  | 4 => some .ne
  | 5 => some .nw
  | 6 => some .se
  | 7 => some .sw
  | 8 => some .stop
  | 9 => some .idle
  | _ => none

/-- The classes of illegal command words (R76). -/
inductive Reject where
  /-- `op` is 0x0 or 0x5 to 0xF. -/
  | reservedOp
  /-- START or END with `tok ≠ 0`. -/
  | tokNotZero
  /-- PRESS or RELEASE with `tok` = 8 (STOP), 9 (IDLE) or 10 to 15. -/
  | tokNotDirectional
  /-- No word is left. -/
  | noWord
  deriving DecidableEq, Repr

/-- `op = cw[7:4]` (R74). -/
def cwOp (cw : Byte) : BitVec 4 := cw.extractLsb' 4 4

/-- `tok = cw[3:0]` (R74). -/
def cwTok (cw : Byte) : BitVec 4 := cw.extractLsb' 0 4

/-- PRESS by token (R75: directional tokens only). -/
def pressOf : Token → Option Instr
  | .n => some .pressN
  | .s => some .pressS
  | .e => some .pressE
  | .w => some .pressW
  | .ne => some .pressNE
  | .nw => some .pressNW
  | .se => some .pressSE
  | .sw => some .pressSW
  | .stop => none
  | .idle => none

/-- RELEASE by token (R75: directional tokens only). -/
def releaseOf : Token → Option Instr
  | .n => some .releaseN
  | .s => some .releaseS
  | .e => some .releaseE
  | .w => some .releaseW
  | .ne => some .releaseNE
  | .nw => some .releaseNW
  | .se => some .releaseSE
  | .sw => some .releaseSW
  | .stop => none
  | .idle => none

/-- START and END have `tok = 0` (R75, R76). -/
def decodePlain (tok : BitVec 4) (i : Instr) : Except Reject Instr :=
  if tok = 0 then .ok i else .error .tokNotZero

/-- PRESS and RELEASE carry a directional token (R75, R76). -/
def decodeTok (tok : BitVec 4) (of : Token → Option Instr) : Except Reject Instr :=
  match (Token.ofCode tok).bind of with
  | some i => .ok i
  | none => .error .tokNotDirectional

/-- The opcode map of the command word (R75, R76). -/
def decodeWord (cw : Byte) : Except Reject Instr :=
  match (cwOp cw).toNat with
  | 1 => decodePlain (cwTok cw) .start
  | 2 => decodeTok (cwTok cw) pressOf
  | 3 => decodeTok (cwTok cw) releaseOf
  | 4 => decodePlain (cwTok cw) .endSession
  | _ => .error .reservedOp

/-- The decoder on a stream of bytes: "all command words have the same length, 8 bits" (R70). -/
def decode : List Byte → Except Reject (Instr × List Byte)
  | [] => .error .noWord
  | cw :: rest =>
    match decodeWord cw with
    | .ok i => .ok (i, rest)
    | .error r => .error r

/-- A command word from its two fields (R74). -/
def mkWord (op tok : BitVec 4) : Byte := op ++ tok

/-- The command word of an instruction (R75), `none` for an internal operation (R77). -/
def encode : Instr → Option Byte
  | .start => some (mkWord 1 0)
  | .pressN => some (mkWord 2 Token.n.code)
  | .pressS => some (mkWord 2 Token.s.code)
  | .pressE => some (mkWord 2 Token.e.code)
  | .pressW => some (mkWord 2 Token.w.code)
  | .pressNE => some (mkWord 2 Token.ne.code)
  | .pressNW => some (mkWord 2 Token.nw.code)
  | .pressSE => some (mkWord 2 Token.se.code)
  | .pressSW => some (mkWord 2 Token.sw.code)
  | .releaseN => some (mkWord 3 Token.n.code)
  | .releaseS => some (mkWord 3 Token.s.code)
  | .releaseE => some (mkWord 3 Token.e.code)
  | .releaseW => some (mkWord 3 Token.w.code)
  | .releaseNE => some (mkWord 3 Token.ne.code)
  | .releaseNW => some (mkWord 3 Token.nw.code)
  | .releaseSE => some (mkWord 3 Token.se.code)
  | .releaseSW => some (mkWord 3 Token.sw.code)
  | .endSession => some (mkWord 4 0)
  | .tick => none
  | .classify _ => none
  | .encodeN => none
  | .encodeS => none
  | .encodeE => none
  | .encodeW => none
  | .encodeNE => none
  | .encodeNW => none
  | .encodeSE => none
  | .encodeSW => none
  | .encodeStop => none
  | .encodeIdle => none
  | .tile => none
  | .modulate _ => none
  | .write _ => none

/-- The words of a host program, in order (R83). -/
def encodeAll : List Instr → List Byte
  | [] => []
  | i :: is =>
    match encode i with
    | some cw => cw :: encodeAll is
    | none => encodeAll is

/-- A whole stream read by the decoder, up to its first illegal word. -/
def decodeAll : List Byte → List Instr × List Byte
  | [] => ([], [])
  | cw :: rest =>
    match decodeWord cw with
    | .ok i => (i :: (decodeAll rest).1, (decodeAll rest).2)
    | .error _ => ([], cw :: rest)

/-- `k` bytes of `w`, the least significant first. -/
def bytesOf : (k w : Nat) → List Byte
  | 0, _ => []
  | k + 1, w => BitVec.ofNat 8 w :: bytesOf k (w / 256)

/-- An instruction of the opcode table as stored: whole bytes, at least one (the longest instruction
has one word of 8 bits), the bits above `nbits` zero (log 23). -/
def tableBytes (nbits w : Nat) : List Byte := bytesOf (max 1 ((nbits + 7) / 8)) (w % 2 ^ nbits)

/-- The instruction the decoder reads from a word numbered as spec/opcode_table.json numbers it. -/
def decodeTableWord (nbits w : Nat) : Option Instr :=
  match decode (tableBytes nbits w) with
  | .ok (i, _) => some i
  | .error _ => none

end Sys2Proof
end

