-- ==== Sys2Proof/Machine/Operands.lean ====
section
/-! DEFINITION. The protocol constants (00_scope R6, each a name of its own), the operand forms: the
letters, masks and counts of tokens (30_encoding R72, R73), CLASSIFY on masks and strings
(40_encoder R101, R102), and the bit shapes and frames (R104 to R116, 41_modulator R141). -/

namespace Sys2Proof.Machine

/-- CLOCK_PERIOD = 1/2000 s, as clock periods in a second (R6). -/
def clockHz : Nat := 2000

/-- A_HIGH = 0.95 (R6). -/
def aHigh : Rat := 95 / 100

/-- A_LOW = 0.0 (R6). -/
def aLow : Rat := 0

/-- LONG_HIGH (R6). -/
def longHigh : Nat := 3

/-- LONG_LOW (R6). -/
def longLow : Nat := 1

/-- SHORT_HIGH (R6). -/
def shortHigh : Nat := 1

/-- SHORT_LOW (R6). -/
def shortLow : Nat := 1

/-- PRE_LONG (R6). -/
def preLong : Nat := 4

/-- STOP_REPS (R6). -/
def stopReps : Nat := 15

/-- STOP_LONG (R6). -/
def stopLong : Nat := 4

/-- STOP_SHORT (R6). -/
def stopShort : Nat := 4

/-- IDLE_UNITS (R6, C2). -/
def idleUnits : Nat := 10

/-- TILE (R6). -/
def tileFactor : Nat := 4


/-- `amp`: the real amplitude of a level (R8). -/
def amp : Level → Rat
  | .low => aLow
  | .high => aHigh

/-- COUNT(tok), the address of a directional token; STOP and IDLE have none (R6, R72). -/
def tokenCount : Token → Option Nat
  | .n => some 40
  | .s => some 10
  | .e => some 64
  | .w => some 58
  | .ne => some 46
  | .nw => some 52
  | .se => some 34
  | .sw => some 28
  | .stop => none
  | .idle => none

/-- The length in units of `N` of a run of `long` and then `short` bits (20_memory R55). -/
def bitUnits (longs shorts : Nat) : Nat := longs * (longHigh + longLow) + shorts * (shortHigh + shortLow)

/-- The largest COUNT. -/
def maxCount : Nat := ([.n, .s, .e, .w, .ne, .nw, .se, .sw].filterMap tokenCount).foldl max 0

/-- The capacity of STOPBUF in units of `N`, the STOP frame: 360 with the values of R6 (R55). -/
def stopCapUnits : Nat := stopReps * bitUnits stopLong stopShort

/-- The capacity of FRAME and TXBUF in units of `N`, "the largest row" of R55: 576 with the values of R6. -/
def frameCapUnits : Nat := max (tileFactor * bitUnits preLong maxCount) (max stopCapUnits idleUnits)

/-- A directional token: one of the eight "moving commands" (R9, R71). -/
def isDirectional (t : Token) : Bool := (tokenCount t).isSome

/-- `letters(tok)` as a held mask `w e s n`; `x` and `o` have no mask bit (R72, R73). -/
def letters : Token → BitVec 4
  | .n => 0b0001#4
  | .s => 0b0010#4
  | .e => 0b0100#4
  | .w => 0b1000#4
  | .ne => 0b0101#4
  | .nw => 0b1001#4
  | .se => 0b0110#4
  | .sw => 0b1010#4
  | .stop => 0b0000#4
  | .idle => 0b0000#4

/-- CLASSIFY on a held mask (R101, with D4's chain on contradictory masks). -/
def classifyMask (m : BitVec 4) : Option Token :=
  if m.getLsbD 0 then
    some (if m.getLsbD 2 then .ne else if m.getLsbD 3 then .nw else .n)
  else if m.getLsbD 1 then
    some (if m.getLsbD 2 then .se else if m.getLsbD 3 then .sw else .s)
  else if m.getLsbD 2 then some .e
  else if m.getLsbD 3 then some .w
  else none

/-- A letter flag of R78: the string contains the letter's lower-case or upper-case ASCII byte. -/
def hasLetter (lower upper : Byte) (str : List Byte) : Bool :=
  str.any fun b => b == lower || b == upper

/-- The held mask of a raw string: `has_w :: has_e :: has_s :: has_n` (R78, R102). -/
def maskOfString (str : List Byte) : BitVec 4 :=
  BitVec.ofBool (hasLetter 0x77 0x57 str) ++ BitVec.ofBool (hasLetter 0x65 0x45 str)
    ++ BitVec.ofBool (hasLetter 0x73 0x53 str) ++ BitVec.ofBool (hasLetter 0x6E 0x4E str)

/-- CLASSIFY on a raw string: `none` where R102 raises InvalidCommand. -/
def classifyString (str : List Byte) : Option Token :=
  match classifyMask (maskOfString str) with
  | some t => some t
  | none =>
    if hasLetter 0x78 0x58 str then some .stop
    else if hasLetter 0x6F 0x4F str then some .idle
    else none

/-- `tile(s, m)`: `s` concatenated with itself `m` times (R8). -/
def tileSeq {α : Type} (s : List α) (m : Nat) : List α := (List.replicate m s).flatten

/-- A `long` bit at `u` samples in a clock period (R104, C1). -/
def longBit (u : Nat) : List Level :=
  List.replicate (longHigh * u) .high ++ List.replicate (longLow * u) .low

/-- A `short` bit (R105). -/
def shortBit (u : Nat) : List Level :=
  List.replicate (shortHigh * u) .high ++ List.replicate (shortLow * u) .low

/-- DIRFRAME(c) (R106). -/
def dirFrame (u c : Nat) : List Level :=
  tileSeq (longBit u) preLong ++ tileSeq (shortBit u) c

/-- The STOP frame (R115). -/
def stopFrame (u : Nat) : List Level :=
  tileSeq (tileSeq (longBit u) stopLong ++ tileSeq (shortBit u) stopShort) stopReps

/-- IDLE_LEN (R81, R116). -/
def idleLen (u : Nat) : Nat := idleUnits * u

/-- The IDLE frame (R116). -/
def idleFrame (u : Nat) : List Level := List.replicate (idleLen u) .low

/-- ENCODE(tok) at `u` samples in a clock period: a pure function (R100, R107 to R116). -/
def encodeSeq (u : Nat) (t : Token) : List Level :=
  match t with
  | .stop => stopFrame u
  | .idle => idleFrame u
  | .n | .s | .e | .w | .ne | .nw | .se | .sw => dirFrame u ((tokenCount t).getD 0)

end Sys2Proof.Machine
end

