-- ==== Sys2Proof/Machine/Mixer.lean ====
section
/-! DEFINITION. The arithmetic of MODULATE (41_modulator R143 to R146): the exact phase, a rational
value of its cosine and sine with a proved error far below `2^-24` (Laws/Mixer.lean), the binary32
format, and the stored sample: a free value with the properties P1 to P4, and no other. -/

namespace Sys2Proof

namespace Machine

/-- `(F_OFFSET · k) mod SAMPLE_RATE`, the numerator of the phase `φ(k)` in turns (R143). -/
def phaseNum (offset : Int) (rate k : Nat) : Nat := ((offset * k) % rate).toNat

/-- A quarter turn in radians, to 20 decimals (log 13). -/
def halfPi : Rat := 314159265358979323846 / (2 * 10 ^ 20)

/-- The first `m` terms of the cosine's series. -/
def cosSum (x : Rat) : Nat → Rat
  | 0 => 0
  | m + 1 => cosSum x m + (-1) ^ m * x ^ (2 * m) / ((2 * m).factorial : Nat)

/-- The first `m` terms of the sine's series. -/
def sinSum (x : Rat) : Nat → Rat
  | 0 => 0
  | m + 1 => sinSum x m + (-1) ^ m * x ^ (2 * m + 1) / ((2 * m + 1).factorial : Nat)

/-- Cosine and sine of `p/q` turns: the quadrant exactly, the rest by series. -/
def phasor (p q : Nat) : Rat × Rat :=
  let x := halfPi * ((4 * p % q : Nat) : Rat) / (q : Rat)
  let c := cosSum x 12
  let s := sinSum x 12
  match 4 * p / q with
  | 0 => (c, s)
  | 1 => (-s, c)
  | 2 => (-c, -s)
  | _ => (s, -c)

/-- The reference value of sample `k` at level `l`: `a · (cos θ(k), sin θ(k))` (R144). -/
def reference (l : Level) (offset : Int) (rate k : Nat) : Rat × Rat :=
  let p := phasor (phaseNum offset rate k) rate
  (amp l * p.1, amp l * p.2)

/-- The exponent field of a binary32 (G1). -/
def f32Exp (b : BitVec 32) : Nat := (b.extractLsb' 23 8).toNat

/-- The fraction field of a binary32 (G1). -/
def f32Frac (b : BitVec 32) : Nat := (b.extractLsb' 0 23).toNat

/-- A binary32 that is neither an infinity nor a NaN (G1). -/
def f32Finite (b : BitVec 32) : Bool := f32Exp b != 255

/-- The magnitude of a finite binary32 in units of `2^-150` (G1). -/
def f32Mag (b : BitVec 32) : Nat :=
  if f32Exp b = 0 then 2 * f32Frac b else (2 ^ 23 + f32Frac b) * 2 ^ f32Exp b

/-- The value of a finite binary32 (G1). -/
def f32Val (b : BitVec 32) : Rat :=
  (if b.getLsbD 31 then -(f32Mag b : Rat) else (f32Mag b : Rat)) / 2 ^ 150

/-- Both zeros of binary32 (G1). -/
def f32Zero (negative : Bool) : BitVec 32 := if negative then 0x80000000 else 0

/-- `a / b` rounded to the nearest natural number, ties to even. -/
def divNearestEven (a b : Nat) : Nat :=
  if 2 * (a % b) < b then a / b
  else if b < 2 * (a % b) then a / b + 1
  else a / b + a / b % 2

/-- The magnitude bits of the binary32 nearest to `num / den` (G1), for values below `2^127`. -/
def rn32Mag (num den : Nat) : Nat :=
  let e := max (Nat.log2 (num * 2 ^ 150 / den) - 23) 1
  (e - 1) * 2 ^ 23 + divNearestEven (num * 2 ^ 150) (den * 2 ^ e)

/-- RN32, round-to-nearest-even to binary32 (R146, G1). -/
def rn32 (x : Rat) : BitVec 32 :=
  BitVec.ofNat 32 (rn32Mag x.num.natAbs x.den) ||| f32Zero (decide (x < 0))

/-- P3 and P4 of R146 for one component at the tolerance `tol`: finite, within `tol` of the exact value `x`,
and of magnitude at most `A_HIGH + tol`. -/
def ComponentOk (tol : ℝ) (b : BitVec 32) (x : ℝ) : Prop :=
  f32Finite b = true ∧ |(f32Val b : ℝ) - x| ≤ tol ∧ |(f32Val b : ℝ)| ≤ (aHigh : ℝ) + tol

/-- P3 and P4 of R146 for a sample: the exact value is `amp · (cos θ(k), sin θ(k))`, with `θ(k) = 2π ·
F_OFFSET · k / SAMPLE_RATE` (R143). -/
def SampleOk (tol : ℝ) (l : Level) (c : C32) (offset : Int) (rate k : Nat) : Prop :=
  ComponentOk tol c.re ((amp l : ℝ) * Real.cos (2 * Real.pi * ((offset : ℝ) * (k : ℝ) / (rate : ℝ)))) ∧
    ComponentOk tol c.im ((amp l : ℝ) * Real.sin (2 * Real.pi * ((offset : ℝ) * (k : ℝ) / (rate : ℝ))))

end Machine

/-- A pair of zeros, each of either sign (R146 P2). -/
def C32.isZero (c : C32) : Prop := ∃ a b : Bool, c = { re := Machine.f32Zero a, im := Machine.f32Zero b }

namespace Machine

/-- `Q32` of a core with this offset and sample rate, which are constants of a session: "a configuration
function of the model with these named properties, and nothing else may be assumed of it" (R146; log 11). A value
is a tolerance MOD_TOL with the stored samples. P1 is the type of the samples with the type's parameters. -/
inductive Quantiser (offset : Int) (rate : Nat) where
  /-- The reference model of R146: correctly rounded, MOD_TOL = `2^-24`. It meets P2 to P4 (Laws/Mixer.lean), so
  it is one of the others; it stands here so that the type has a value. -/
  | reference
  /-- Any tolerance and any stored samples with P2 (at amplitude 0 a pair of zeros, so at LOW), P3 and P4 (which
  P2 implies at LOW). -/
  | any (tol : ℝ) (sample : Level → (k : Nat) → C32)
      (zero : ∀ l k, amp l = 0 → (sample l k).isZero)
      (ok : 0 < rate → ∀ l k, SampleOk tol l (sample l k) offset rate k)
  deriving Inhabited

/-- MOD_TOL of a quantiser. -/
def quantiserTol {offset : Int} {rate : Nat} : Quantiser offset rate → ℝ
  | .reference => ((1 / 2 ^ 24 : Rat) : ℝ)
  | .any tol _ _ _ => tol

/-- The sample `k` that a quantiser stores for a level. -/
def quantiserSample {offset : Int} {rate : Nat} (q : Quantiser offset rate) (l : Level) (k : Nat) : C32 :=
  match q with
  | .reference => { re := rn32 (reference l offset rate k).1, im := rn32 (reference l offset rate k).2 }
  | .any _ sample _ _ => sample l k

end Machine

/-- FREE VALUE (logs 11, 12): the quantiser of R146, with the OPEN tolerance, at each offset and sample rate. -/
opaque Config.quantiser : (offset : Int) → (rate : Nat) → Machine.Quantiser offset rate

namespace Machine

/-- MOD_TOL (R146 P3) of a core with this offset and sample rate: OPEN, any tolerance that some stored samples
meet there. -/
def modTol (offset : Int) (rate : Nat) : ℝ := quantiserTol (Config.quantiser offset rate)

/-- `Q32(a · cos θ(k), a · sin θ(k))`, the stored sample `k` (R144, R146): what the quantiser stores, so that the
result ranges over what R146 allows and over nothing else. -/
def mixSample (offset : Int) (rate k : Nat) (l : Level) : C32 := quantiserSample (Config.quantiser offset rate) l k

/-- MODULATE on a whole frame: `k` starts at 0 on every call and runs over the frame without
restarting at a tile seam (R144). -/
def modulateSeq (offset : Int) (rate : Nat) (frame : List Level) : List C32 :=
  frame.mapIdx (mixSample offset rate)

end Machine

end Sys2Proof
end

