-- ==== Sys2Proof/Machine/Ops.lean ====
section
/-! DEFINITION. The shared operations: raising a fault and clearing the fault record (60_exceptions
R222), the timer (42_scheduler R165, R176), the buffers with their length registers (20_memory R56),
the radio port (30_encoding R85 to R88), the host port (R84), and the choice of the next event
(60_exceptions R233 to R236). -/

namespace Sys2Proof.Machine

/-- The outcome of an operation of the core. -/
abbrev Result := Host.Outcome State Fault Refusal

/-- Go on from a next state; a stop stays. -/
def andThen (o : Result) (f : State → Result) : Result :=
  match o with
  | .next s => f s
  | .fault r => .fault r
  | .refused r => .refused r

/-! ### Faults -/

/-- `raise F(info)`, the core's only exception entry: it sets the sticky flag, records the code and
the information word, and saves nothing (R222, R237). The operation that raises ends by its own rule. -/
def raise (k : FaultKind) (info : BitVec 32) (s : State) : State :=
  { setFaultFlag k s with fCode := faultCode k, fInfo := info }

/-- START step 1, the only clearing of the fault record; there is no return from a fault (R162, R231). -/
def clearFaults (s : State) : State :=
  { s with fConfig := false, fInvalid := false, fWrite := false, fCode := 0, fInfo := 0 }

/-- What the host reads of the fault record: "plain status; reading has no side effect" (R222). -/
structure Status where
  fConfig : Bool
  fInvalid : Bool
  fWrite : Bool
  fCode : BitVec 2
  fInfo : BitVec 32
  deriving DecidableEq, Repr

/-- The host's read of the fault record (R222). -/
def faultStatus (s : State) : Status :=
  { fConfig := s.fConfig, fInvalid := s.fInvalid, fWrite := s.fWrite, fCode := s.fCode, fInfo := s.fInfo }

/-! ### Timer -/

/-- `cancel()` (R165). -/
def cancel (s : State) : State := { s with tmrArmed := false }

/-- `arm(d)` (R176). -/
def arm (d : Duration) (s : State) : State := { s with tmrArmed := true, tmrDelay := d }

/-- TICK is enabled: `phase = ON` and `tmr_armed = 1` (R43, R174); a step runs a whole handler, so none
is running between steps. -/
def tickEnabled (s : State) : Bool := s.phase == .on && s.tmrArmed

/-! ### Buffers -/

/-- A length register. -/
def lenWord (k : Nat) : BitVec 32 := BitVec.ofNat 32 k

/-- `FRAME <- f`, which also sets `frame_len` (R8, R100). -/
def storeFrame (f : List Level) (s : State) : State := { s with frame := f, frameLen := lenWord f.length }

/-- `BUF <- b` for one of the two sample buffers, with its length register. -/
def storeBuf (dst : BufSel) (b : List C32) (len : BitVec 32) (s : State) : State :=
  match dst with
  | .tx => { s with txBuf := b, txLen := len }
  | .stop => { s with stopBuf := b, stopLen := len }

/-- The samples of a buffer. -/
def bufSamples (src : BufSel) (s : State) : List C32 :=
  match src with
  | .tx => s.txBuf
  | .stop => s.stopBuf

/-- The length register of a buffer. -/
def bufLen (src : BufSel) (s : State) : BitVec 32 :=
  match src with
  | .tx => s.txLen
  | .stop => s.stopLen

/-- The capacity of a buffer in units of `N` (R39, R40, R55). -/
def bufCapUnits : BufSel → Nat
  | .tx => frameCapUnits
  | .stop => stopCapUnits

/-- The three buffers' canonical form: each length register holds its sequence's length. -/
def Memory.wf (s : State) : Bool :=
  s.frameLen.toNat == s.frame.length && s.txLen.toNat == s.txBuf.length
    && s.stopLen.toNat == s.stopBuf.length

/-- `FRAME <- ENCODE(tok)` (R100). -/
def encodeFrame (t : Token) (s : State) : State := storeFrame (encodeSeq s.n.toNat t) s

/-- `FRAME <- tile(FRAME, 4)`, `frame_len <- 4·L` (R141). -/
def tileFrame (s : State) : State := storeFrame (tileSeq s.frame tileFactor) s

/-- `MODULATE(DST)`: every sample of FRAME mixed, the length kept (R144). -/
def modulateInto (dst : BufSel) (s : State) : State :=
  storeBuf dst (modulateSeq s.fOffset.toInt s.sampleRate.toNat s.frame) s.frameLen s

/-- `build_tx(tok)`: a directional frame is tiled, the others are not (R164, R142). -/
def buildTx (t : Token) (s : State) : State :=
  if isDirectional t then modulateInto .tx (tileFrame (encodeFrame t s))
  else modulateInto .tx (encodeFrame t s)

/-- ENCODE by token code: a reserved code raises InvalidCommand and writes no frame (R117). -/
def encodeCode (c : BitVec 4) (s : State) : State :=
  match Token.ofCode c with
  | some t => encodeFrame t s
  | none => raise .invalidCommand (c.zeroExtend 32) s

/-! ### Radio port -/

/-- The next radio transaction returns (R262). -/
def radioReturns (s : State) : Bool :=
  match s.radioHangAt with
  | none => true
  | some k => decide (s.radioLog.length < k)

/-- A transaction without a result (R85, R86, R88): issued, and returned from, or the core is stuck. -/
def radioCall (tx : RadioTx) (s : State) : Result :=
  if radioReturns s then .next { s with radioLog := s.radioLog ++ [tx] } else .fault .radioStuck

/-- The radio's answer to the next write primitive call: a draw of any i32 (R87, R210). -/
def nextAnswer (s : State) : BitVec 32 :=
  match s.radioAnswers with
  | r :: _ => r
  | [] => Config.radioAnswer s.draws

/-- That answer consumed. -/
def takeAnswer (s : State) : State :=
  { s with
    radioAnswers := s.radioAnswers.tail
    draws := if s.radioAnswers.isEmpty then s.draws + 1 else s.draws }

/-! ### Host port -/

/-- One transaction of the host port: the word is appended to `evq` (R84, R42). -/
def hostDeliver (cw : Byte) (s : State) : State := { s with evq := s.evq ++ [cw] }

/-! ### Dispatch of events -/

/-- An illegal command word: InvalidCommand with `f_info = cw` while `phase = ON`, dropped while
`phase = OFF` (R76, R161, R226). -/
def illegalWord (cw : Byte) (s : State) : State :=
  match s.phase with
  | .off => s
  | .on => raise .invalidCommand (cw.zeroExtend 32) s

/-- Run a handler only inside a session; outside one the word is dropped (R161). -/
def inSession (s : State) (handler : State → Result) : Result :=
  match s.phase with
  | .off => .next s
  | .on => handler s

/-- The next event of the core (R233). -/
inductive Event where
  | none
  | tick
  | command (cw : Byte)
  deriving DecidableEq, Repr

/-- Whether a ready TICK goes before a waiting command: a draw (R236, log 8). -/
def tickGoesFirst (s : State) : Bool :=
  match s.turns with
  | .tick :: _ => true
  | .command :: _ => false
  | [] => Config.tickFirst s.draws

/-- That draw consumed. -/
def takeTurn (s : State) : State :=
  { s with turns := s.turns.tail, draws := if s.turns.isEmpty then s.draws + 1 else s.draws }

/-- The next event and the state in which its handler starts: commands leave `evq` first in, first
out; where a TICK is enabled and a command waits, either may run first (R64, R234, R236). -/
def nextEvent (s : State) : Event × State :=
  match s.evq with
  | [] => if tickEnabled s then (.tick, s) else (.none, s)
  | cw :: rest =>
    if tickEnabled s then
      if tickGoesFirst s then (.tick, takeTurn s)
      else (.command cw, { takeTurn s with evq := rest })
    else (.command cw, { s with evq := rest })

end Sys2Proof.Machine
end

