-- ==== Sys2Proof/Machine/Encoder.lean ====
section
/-! DEFINITION. CommandEncoder: CLASSIFY (40_encoder R101, R102) and the ten ENCODE operations (R107 to
R116), each run by its token code (R71). -/

namespace Sys2Proof.Machine

/-- CLASSIFY of a held mask: the token, or none (R101). -/
def classifyMaskOp (m : BitVec 4) (s : State) : State := { s with classifyOut := classifyMask m }

/-- CLASSIFY of a raw string: one of the ten tokens, or InvalidCommand with `f_info = 0` and no value
(R102, R227). -/
def classifyStringOp (str : List Byte) (s : State) : State :=
  match classifyString str with
  | some t => { s with classifyOut := some t }
  | none => raise .invalidCommand 0 { s with classifyOut := none }

/-- CLASSIFY. -/
def execClassify (input : ClassifyInput) (s : State) : Result :=
  match input with
  | .mask m => .next (classifyMaskOp m s)
  | .raw str => .next (classifyStringOp str s)

/-- ENCODE.N, forward (R107). -/
def execEncodeN (s : State) : Result := .next (encodeCode 0 s)

/-- ENCODE.S, reverse (R108). -/
def execEncodeS (s : State) : Result := .next (encodeCode 1 s)

/-- ENCODE.E, right (R109). -/
def execEncodeE (s : State) : Result := .next (encodeCode 2 s)

/-- ENCODE.W, left (R110). -/
def execEncodeW (s : State) : Result := .next (encodeCode 3 s)

/-- ENCODE.NE, forward-right (R111). -/
def execEncodeNE (s : State) : Result := .next (encodeCode 4 s)

/-- ENCODE.NW, forward-left (R112). -/
def execEncodeNW (s : State) : Result := .next (encodeCode 5 s)

/-- ENCODE.SE, reverse-right (R113). -/
def execEncodeSE (s : State) : Result := .next (encodeCode 6 s)

/-- ENCODE.SW, reverse-left (R114). -/
def execEncodeSW (s : State) : Result := .next (encodeCode 7 s)

/-- ENCODE.STOP (R115). -/
def execEncodeStop (s : State) : Result := .next (encodeCode 8 s)

/-- ENCODE.IDLE (R116). -/
def execEncodeIdle (s : State) : Result := .next (encodeCode 9 s)

end Sys2Proof.Machine
end

