-- ==== Sys2Proof/Machine/Modulator.lean ====
section
/-! DEFINITION. SubcarrierModulator: TILE (41_modulator R141) and MODULATE (R144), run by themselves.
Handlers call `tileFrame` and `modulateInto`; by itself an operation may meet a frame that its
destination cannot hold (10_state R38 to R40, log 17). -/

namespace Sys2Proof.Machine

/-- TILE (R141). -/
def execTile (s : State) : Result :=
  if tileFactor * s.frame.length ≤ frameCapUnits * s.n.toNat then .next (tileFrame s)
  else .fault .bufferOverflow

/-- MODULATE (R144). -/
def execModulate (dst : BufSel) (s : State) : Result :=
  if s.frame.length ≤ bufCapUnits dst * s.n.toNat then .next (modulateInto dst s)
  else .fault .bufferOverflow

end Sys2Proof.Machine
end

