-- ==== Sys2Proof/Machine/Writer.lean ====
section
/-! DEFINITION. StreamWriter: WRITE (43_writer R200 to R211). -/

namespace Sys2Proof.Machine

/-- Begin (R202). -/
def beginWrite (src : BufSel) (s : State) : State :=
  { s with wrSrc := src, wrLen := bufLen src s, wrOff := 0, wr := .busy }

/-- `max`, the count of samples still to be written (R203). -/
def remaining (s : State) : Nat := s.wrLen.toNat - s.wrOff.toNat

/-- The slice `BUF[wr_off : wr_len]` that "starts exactly at the first unacknowledged sample" (R56,
R204). -/
def offeredSlice (s : State) : List C32 := ((bufSamples s.wrSrc s).take s.wrLen.toNat).drop s.wrOff.toNat

/-- The write primitive call of one iteration, on the radio port (R87). -/
def offer (s : State) : State :=
  { takeAnswer s with
    radioLog := s.radioLog ++ [.write (offeredSlice s) (lenWord (remaining s)) (nextAnswer s)] }

/-- An accepting answer `r`: the radio has consumed exactly the first `r` samples of the slice, which is an
assumption about the radio (70_reset_and_hazards R262; log 34), and the offset advances "by exactly the accepted
count" (R204, R59). -/
def acceptAnswer (r : BitVec 32) (s : State) : State :=
  { s with air := s.air ++ (offeredSlice s).take r.toNat, wrOff := s.wrOff + r }

/-- Finish, success (R205). -/
def finishWrite (s : State) : State := { s with wrRes := .ok, wr := .idle }

/-- Finish, failure: `wr_off` stays at the count accepted before the failing call (R206, R228). -/
def failWrite (r : BitVec 32) (s : State) : State :=
  raise .streamWriteFailure r { s with wrRes := .fail, wr := .idle }

/-- The loop "while wr_off < wr_len" (R203). Every accepted answer takes at least one sample, so as many
rounds as there are samples suffice (R209). -/
def writeLoop : Nat → State → Result
  | 0, s => .next (finishWrite s)
  | fuel + 1, s =>
    if s.wrOff.toNat < s.wrLen.toNat then
      if radioReturns s then
        if answerAccepts (nextAnswer s) (remaining s) then
          writeLoop fuel (acceptAnswer (nextAnswer s) (offer s))
        else .next (failWrite (nextAnswer s) (offer s))
      else .fault .radioStuck
    else .next (finishWrite s)

/-- WRITE(src), whole operation (R203). -/
def writeOp (src : BufSel) (s : State) : Result :=
  match s.wr with
  | .busy => .fault .writerBusy
  | .idle => writeLoop (bufLen src s).toNat (beginWrite src s)

/-- WRITE run by itself (R203). -/
def execWrite (src : BufSel) (s : State) : Result := writeOp src s

end Sys2Proof.Machine
end

