-- ==== Sys2Proof/Machine/Scheduler.lean ====
section
/-! DEFINITION. TransmitScheduler: START, PRESS, RELEASE, TICK and END (42_scheduler R160 to R181), each
handler whole, from its dispatch by phase (R161) to its end. -/

namespace Sys2Proof.Machine

/-! ### START (R162) -/

/-- Step 3: the derived registers (R7). -/
def deriveRegs (s : State) : State :=
  { s with
    n := s.sampleRate / BitVec.ofNat 32 clockHz
    fOffset := s.fRc.zeroExtend 65 - s.fCenter.zeroExtend 65 }

/-- Step 4: the three set-up transactions, in order (R85, R86). -/
def openRadio (s : State) : Result :=
  andThen (radioCall (.configure s.sampleRate s.fCenter s.gain) s) fun s1 =>
    andThen (radioCall .openTransmitStream s1) fun s2 => radioCall .activateStream s2

/-- Steps 5 to 9. `air` is counted from START (20_memory R59, 70_reset R251). -/
def beginSession (s : State) : State :=
  let s5 := modulateInto .stop (encodeFrame .stop s)
  let s6 := buildTx .idle { s5 with held := 0, curTok := .idle }
  arm s.tInit { s6 with sch := .idle, wr := .idle, wrRes := .ok, phase := .on, air := [] }

/-- Steps 1 to 9 (R162): the fault record is cleared first, whatever the check of step 2 says (R224, R225). -/
def startHandler (s : State) : Result :=
  if rateValid s.sampleRate.toNat clockHz then
    andThen (openRadio (deriveRegs (clearFaults s))) fun s4 => .next (beginSession s4)
  else
    .next (raise .configurationError (s.sampleRate % BitVec.ofNat 32 clockHz) (clearFaults s))

/-- START: dropped while a session is open (R161). -/
def execStart (s : State) : Result :=
  match s.phase with
  | .on => .next s
  | .off => startHandler s

/-! ### PRESS (R166) -/

/-- PRESS steps 1 to 6. `classify_mask` is never none here, since `letters(tok) ≠ 0` (R166 step 3; log 29). -/
def pressHandler (t : Token) (s : State) : State :=
  let h := s.held ||| letters t
  let c := (classifyMask h).getD t
  let s4 := buildTx c { cancel s with held := h, curTok := c }
  arm s.tInit { s4 with sch := .moving }

/-- PRESS of a token, dropped outside a session (R161). -/
def press (t : Token) (s : State) : Result := inSession s fun s => .next (pressHandler t s)

/-- PRESS N (0x20). -/
def execPressN (s : State) : Result := press .n s

/-- PRESS S (0x21). -/
def execPressS (s : State) : Result := press .s s

/-- PRESS E (0x22). -/
def execPressE (s : State) : Result := press .e s

/-- PRESS W (0x23). -/
def execPressW (s : State) : Result := press .w s

/-- PRESS NE (0x24). -/
def execPressNE (s : State) : Result := press .ne s

/-- PRESS NW (0x25). -/
def execPressNW (s : State) : Result := press .nw s

/-- PRESS SE (0x26). -/
def execPressSE (s : State) : Result := press .se s

/-- PRESS SW (0x27). -/
def execPressSW (s : State) : Result := press .sw s

/-! ### RELEASE (R170) -/

/-- RELEASE steps 4 to 6, which run after a failed STOP write too (R170, R229). -/
def releaseEnd (s : State) : State :=
  let s5 := { buildTx .idle { s with held := 0, curTok := .idle } with sch := .idle }
  match s.wrRes with
  | .ok => arm s.tInit s5
  | .fail => s5

/-- RELEASE steps 0 to 6. The operand was validated by dispatch and is not used (R171 b). -/
def releaseHandler (_t : Token) (s : State) : Result :=
  match s.sch with
  | .moving => andThen (writeOp .stop { cancel s with sch := .stopping }) fun s3 => .next (releaseEnd s3)
  | .idle => .next s
  | .stopping => .next s

/-- RELEASE of a token, dropped outside a session (R161). -/
def release (t : Token) (s : State) : Result := inSession s fun s => releaseHandler t s

/-- RELEASE N (0x30). -/
def execReleaseN (s : State) : Result := release .n s

/-- RELEASE S (0x31). -/
def execReleaseS (s : State) : Result := release .s s

/-- RELEASE E (0x32). -/
def execReleaseE (s : State) : Result := release .e s

/-- RELEASE W (0x33). -/
def execReleaseW (s : State) : Result := release .w s

/-- RELEASE NE (0x34). -/
def execReleaseNE (s : State) : Result := release .ne s

/-- RELEASE NW (0x35). -/
def execReleaseNW (s : State) : Result := release .nw s

/-- RELEASE SE (0x36). -/
def execReleaseSE (s : State) : Result := release .se s

/-- RELEASE SW (0x37). -/
def execReleaseSW (s : State) : Result := release .sw s

/-! ### TICK (R174) -/

/-- TICK step 3: re-arm after a WRITE that ended OK. -/
def tickEnd (s : State) : State :=
  match s.wrRes with
  | .ok => arm s.tTick s
  | .fail => s

/-- TICK steps 1 to 3, where it is enabled (R174). -/
def execTick (s : State) : Result :=
  if tickEnabled s then andThen (writeOp .tx (cancel s)) fun s2 => .next (tickEnd s2)
  else .refused .tickNotEnabled

/-! ### END (R178) -/

/-- After END every register that 10_state R22 names is unspecified: a free value (log 10). -/
def forget (s : State) : State :=
  let u := Config.unspecified s.draws
  { s with
    n := u.n, fOffset := u.fOffset, sch := u.sch, held := u.held, curTok := u.curTok
    tmrDelay := u.tmrDelay, wr := u.wr, wrSrc := u.wrSrc, wrLen := u.wrLen, wrOff := u.wrOff
    wrRes := u.wrRes, frame := u.frame, frameLen := u.frameLen, txBuf := u.txBuf, txLen := u.txLen
    stopBuf := u.stopBuf, stopLen := u.stopLen, draws := s.draws + 1 }

/-- END steps 1 to 3 (R178). -/
def endHandler (s : State) : Result :=
  andThen (radioCall .deactivateStream (cancel s)) fun s1 =>
    andThen (radioCall .closeStream s1) fun s2 => .next (forget { s2 with phase := .off })

/-- END, dropped outside a session (R161). -/
def execEnd (s : State) : Result := inSession s endHandler

end Sys2Proof.Machine
end

