-- ==== Sys2Proof/Machine/Dispatch.lean ====
section
/-! DEFINITION. The dispatch: one arm per instruction. -/

namespace Sys2Proof.Machine

/-- What each instruction does in a state. -/
def exec (i : Instr) (s : State) : Host.Outcome State Fault Refusal :=
  match i with
  | .start => Sys2Proof.Machine.execStart s
  | .pressN => Sys2Proof.Machine.execPressN s
  | .pressS => Sys2Proof.Machine.execPressS s
  | .pressE => Sys2Proof.Machine.execPressE s
  | .pressW => Sys2Proof.Machine.execPressW s
  | .pressNE => Sys2Proof.Machine.execPressNE s
  | .pressNW => Sys2Proof.Machine.execPressNW s
  | .pressSE => Sys2Proof.Machine.execPressSE s
  | .pressSW => Sys2Proof.Machine.execPressSW s
  | .releaseN => Sys2Proof.Machine.execReleaseN s
  | .releaseS => Sys2Proof.Machine.execReleaseS s
  | .releaseE => Sys2Proof.Machine.execReleaseE s
  | .releaseW => Sys2Proof.Machine.execReleaseW s
  | .releaseNE => Sys2Proof.Machine.execReleaseNE s
  | .releaseNW => Sys2Proof.Machine.execReleaseNW s
  | .releaseSE => Sys2Proof.Machine.execReleaseSE s
  | .releaseSW => Sys2Proof.Machine.execReleaseSW s
  | .endSession => Sys2Proof.Machine.execEnd s
  | .tick => Sys2Proof.Machine.execTick s
  | .classify input => Sys2Proof.Machine.execClassify input s
  | .encodeN => Sys2Proof.Machine.execEncodeN s
  | .encodeS => Sys2Proof.Machine.execEncodeS s
  | .encodeE => Sys2Proof.Machine.execEncodeE s
  | .encodeW => Sys2Proof.Machine.execEncodeW s
  | .encodeNE => Sys2Proof.Machine.execEncodeNE s
  | .encodeNW => Sys2Proof.Machine.execEncodeNW s
  | .encodeSE => Sys2Proof.Machine.execEncodeSE s
  | .encodeSW => Sys2Proof.Machine.execEncodeSW s
  | .encodeStop => Sys2Proof.Machine.execEncodeStop s
  | .encodeIdle => Sys2Proof.Machine.execEncodeIdle s
  | .tile => Sys2Proof.Machine.execTile s
  | .modulate dst => Sys2Proof.Machine.execModulate dst s
  | .write src => Sys2Proof.Machine.execWrite src s

end Sys2Proof.Machine
end

