-- ==== Sys2Proof/Machine/Step.lean ====
section
/-! DEFINITION. One step of the core: the handler of its next event, whole (10_state R20, 20_memory
R60). -/

namespace Sys2Proof.Machine

/-- Dispatch of a command word taken from `evq` (42_scheduler R161): the phases are told apart in the
meanings and in `illegalWord`. -/
def dispatch (cw : Byte) (s : State) : Host.Outcome State Fault Refusal :=
  match decodeWord cw with
  | .ok i => exec i s
  | .error _ => .next (illegalWord cw s)

/-- One step: wait where there is no event (70_reset R252), else run the handler of the next one. -/
def step (s : State) : Host.Outcome State Fault Refusal :=
  match nextEvent s with
  | (.none, s') => .next s'
  | (.tick, s') => exec .tick s'
  | (.command cw, s') => dispatch cw s'

/-- `s` with the words of an instruction delivered to the head of `evq` and taken by the very next
step, before a TICK (log 20). -/
def State.withFetchWord (s : State) (nbits w : Nat) : State :=
  { s with evq := tableBytes nbits w ++ s.evq, turns := .command :: s.turns }

end Sys2Proof.Machine
end

