-- ==== Sys2Proof/Machine/Trace.lean ====
section
/-! DEFINITION. A host program as a trace: its lines, one event each, "in the order the handlers run"
(30_encoding R83). -/

namespace Sys2Proof.Machine

/-- A line of a trace, with the `r = …` line that belongs to it. -/
inductive TraceLine where
  /-- START, PRESS, RELEASE, END, or any command word. -/
  | command (cw : Byte) (answers : List (BitVec 32))
  /-- TICK. -/
  | tick (answers : List (BitVec 32))
  /-- RAW "string": CLASSIFY at the boundary. -/
  | raw (str : List Byte)
  deriving DecidableEq, Repr

/-- The radio will give these answers after those it is already to give. -/
def withAnswers (rs : List (BitVec 32)) (s : State) : State := { s with radioAnswers := s.radioAnswers ++ rs }

/-- The handler of one line. -/
def runLine (l : TraceLine) (s : State) : Host.Outcome State Fault Refusal :=
  match l with
  | .command cw rs => dispatch cw (withAnswers rs s)
  | .tick rs => exec .tick (withAnswers rs s)
  | .raw str => exec (.classify (.raw str)) s

/-- A whole trace (R83). -/
def runTrace : List TraceLine → State → Host.Outcome State Fault Refusal
  | [], s => .next s
  | l :: ls, s =>
    match runLine l s with
    | .next s' => runTrace ls s'
    | .fault r => .fault r
    | .refused r => .refused r

end Sys2Proof.Machine
end

