-- ==== Sys2Proof/Safety.lean ====
section
/-! DEFINITION. What counts as a safe run of the core, in the terms the claims use: the invariants of
10_state R27, the fault record, accepting answer sequences, and when a stored sample is right. -/

namespace Sys2Proof

open Machine

/-- No fault flag is set: "a state with a flag set is not a good final state" (60_exceptions R222). -/
def faultFree (s : State) : Bool := !s.fConfig && !s.fInvalid && !s.fWrite

/-- The largest `N` that a u32 sample rate gives (20_memory R55). -/
def maxUnit : Nat := (2 ^ 32 - 1) / clockHz

/-- What MODULATE makes of a frame under the registers of a state. -/
def modulated (s : State) (f : List Level) : List C32 := modulateSeq s.fOffset.toInt s.sampleRate.toNat f

/-- What PRESS builds for a directional token: its frame, tiled, modulated (41_modulator R149). -/
def movingBuffer (s : State) (t : Token) : List C32 :=
  modulated s (tileSeq (encodeSeq s.n.toNat t) tileFactor)

/-- The modulated IDLE frame (R149). -/
def idleBuffer (s : State) : List C32 := modulated s (encodeSeq s.n.toNat .idle)

/-- The modulated STOP frame (R149). -/
def stopBuffer (s : State) : List C32 := modulated s (encodeSeq s.n.toNat .stop)

/-- The invariants of 10_state R27 (a) to (f), with the derived registers of R7 and R23, at the start and
the end of every handler while a session is open. -/
structure SessionInv (s : State) : Prop where
  rate : rateValid s.sampleRate.toNat clockHz = true
  unit : s.n.toNat = s.sampleRate.toNat / clockHz
  offset : s.fOffset.toInt = (s.fRc.toNat : Int) - s.fCenter.toNat
  notStopping : s.sch ≠ .stopping
  idleIff : s.sch = .idle ↔ s.curTok = .idle
  idleHeld : s.sch = .idle → s.held = 0
  idleTx : s.sch = .idle → s.txBuf = idleBuffer s ∧ s.txLen.toNat = idleLen s.n.toNat
  movingIff : s.sch = .moving ↔ isDirectional s.curTok = true
  movingHeld : s.sch = .moving → s.held ≠ 0 ∧ classifyMask s.held = some s.curTok
  movingTx : s.sch = .moving →
    s.txBuf = movingBuffer s s.curTok ∧ s.txLen.toNat = (movingBuffer s s.curTok).length
  timer : s.fWrite = false → s.tmrArmed = true
  writer : s.wr = .idle
  stop : s.stopBuf = stopBuffer s ∧ s.stopLen.toNat = stopCapUnits * s.n.toNat

/-- The invariant of the whole machine: nothing is promised of the registers while `phase = OFF` (R22). -/
def CoreInv (s : State) : Prop := s.phase = .on → SessionInv s

/-- The fault record agrees with the flags: `f_code` names the most recent fault, whose flag is set, and is
0 only while no flag is set (R36, R37, 60_exceptions R221, R222). -/
def FaultRecordInv (s : State) : Prop :=
  (s.fCode = 0 ↔ faultFree s = true) ∧ (s.fCode = 1 → s.fConfig = true) ∧
    (s.fCode = 2 → s.fInvalid = true) ∧ (s.fCode = 3 → s.fWrite = true)

/-- The registers that construction fixes (R23), as one value. -/
def configOf (s : State) : Construction where
  sampleRate := s.sampleRate
  fCenter := s.fCenter
  fRc := s.fRc
  gain := s.gain
  tTick := s.tTick
  tInit := s.tInit

/-- Answers `rs`, each in `1 .. max` while `l` samples are left, leave `l'` of them (43_writer R210). -/
def Accepting : (rs : List (BitVec 32)) → (l l' : Nat) → Prop
  | [], l, l' => l = l'
  | r :: rs, l, l' => answerAccepts r l = true ∧ Accepting rs (l - r.toNat) l'

/-- Every radio transaction returns (the host duty of 70_reset R262). -/
def radioAlive (s : State) : Prop := s.radioHangAt = none

/-- The write primitive calls in a stretch of the radio port's record. -/
def writeCalls (txs : List RadioTx) : Nat :=
  (txs.filter fun tx => match tx with | .write _ _ _ => true | _ => false).length

/-- How often a frame rises from LOW to HIGH, a HIGH first sample counted (40_encoder R106). -/
def risingEdges : (previous : Level) → List Level → Nat
  | _, [] => 0
  | .low, .high :: f => 1 + risingEdges .high f
  | _, l :: f => risingEdges l f

/-- The eight PRESS instructions with their tokens (30_encoding R75). -/
def pressInstrs : List (Instr × Token) :=
  [(.pressN, .n), (.pressS, .s), (.pressE, .e), (.pressW, .w),
    (.pressNE, .ne), (.pressNW, .nw), (.pressSE, .se), (.pressSW, .sw)]

/-- The eight RELEASE instructions with their tokens (R75). -/
def releaseInstrs : List (Instr × Token) :=
  [(.releaseN, .n), (.releaseS, .s), (.releaseE, .e), (.releaseW, .w),
    (.releaseNE, .ne), (.releaseNW, .nw), (.releaseSE, .se), (.releaseSW, .sw)]

/-- The eight directional ENCODE operations, each with its count of `short` bits and its length in `N`
(40_encoder R107 to R114). -/
def encodeInstrs : List (Instr × Nat × Nat) :=
  [(.encodeN, 40, 96), (.encodeS, 10, 36), (.encodeE, 64, 144), (.encodeW, 58, 132),
    (.encodeNE, 46, 108), (.encodeNW, 52, 120), (.encodeSE, 34, 84), (.encodeSW, 28, 72)]

/-- The write primitive calls that a buffer and a sequence of answers give: each offers what is left, with
its count (30_encoding R87). -/
def expectedCalls : List C32 → List (BitVec 32) → List RadioTx
  | _, [] => []
  | b, r :: rs => .write b (lenWord b.length) r :: expectedCalls (b.drop r.toNat) rs

/-- A legal command word, by its number (R75). -/
def legalWord (cw : Byte) : Bool :=
  cw == 0x10 || cw == 0x40 || (0x20 ≤ cw.toNat && cw.toNat ≤ 0x27) || (0x30 ≤ cw.toNat && cw.toNat ≤ 0x37)

/-- A string holds a letter, in either case (30_encoding R78). -/
def holdsLetter (lower upper : Byte) (str : List Byte) : Prop := ∃ b ∈ str, b = lower ∨ b = upper

end Sys2Proof
end

