-- ==== Sys2Proof/Certificates/Slice0/Obligations.lean ====
section
/-! DEFINITION. The statements for the provers. -/

open Sys2Proof Sys2Proof.Machine

/-! ### Construction, encoding, dispatch -/

/-- 70_reset section 1, the column "after construction", for every construction; the registers that column
calls unspecified are not mentioned. The constructed values of State.reset are the model's choice (log 2). -/
def Obligations.ConstructionLeavesSessionOff : Prop :=
  (∀ c : Construction,
    let s := State.construct c
    configOf s = c ∧ s.phase = .off ∧ s.tmrArmed = false ∧ s.wr = .idle ∧ s.fConfig = false ∧
      s.fInvalid = false ∧ s.fWrite = false ∧ s.fCode = 0 ∧ s.fInfo = 0 ∧ s.evq = [] ∧ s.air = [] ∧
      s.radioLog = []) ∧
    ∃ c, State.reset = State.construct c

/-- 30_encoding R75: the eighteen command words. -/
def Obligations.CommandWordsDecodeAndEncode : Prop :=
  ∀ p ∈ ([(0x10, .start), (0x20, .pressN), (0x21, .pressS), (0x22, .pressE), (0x23, .pressW), (0x24, .pressNE),
      (0x25, .pressNW), (0x26, .pressSE), (0x27, .pressSW), (0x30, .releaseN), (0x31, .releaseS),
      (0x32, .releaseE), (0x33, .releaseW), (0x34, .releaseNE), (0x35, .releaseNW), (0x36, .releaseSE),
      (0x37, .releaseSW), (0x40, .endSession)] : List (Byte × Instr)),
    decodeWord p.1 = .ok p.2 ∧ encode p.2 = some p.1

/-- 30_encoding R70, R75, R83: a host program of any length, encoded and decoded, is itself; and what the
decoder reads whole encodes to the words it was read from, so no bit of a word is dropped. -/
def Obligations.CommandStreamsRoundTrip : Prop :=
  (∀ is : List Instr, (∀ i ∈ is, i.wellFormed = true) → decodeAll (encodeAll is) = (is, [])) ∧
    (∀ (ws : List Byte) (is : List Instr), decodeAll ws = (is, []) →
      encodeAll is = ws ∧ is.length = ws.length ∧ ∀ i ∈ is, i.wellFormed = true)

/-- 42_scheduler R161: the dispatch of a command word, by phase. -/
def Obligations.DispatchFollowsPhase : Prop :=
  ∀ (cw : Byte) (s : State),
    (s.phase = .off →
      (cw = 0x10 → dispatch cw s = exec .start s) ∧ (cw ≠ 0x10 → dispatch cw s = .next s)) ∧
    (s.phase = .on →
      (cw = 0x10 → dispatch cw s = .next s) ∧
      (∀ p ∈ pressInstrs, cw.toNat = 0x20 + p.2.code.toNat → dispatch cw s = exec p.1 s) ∧
      (∀ p ∈ releaseInstrs, cw.toNat = 0x30 + p.2.code.toNat → dispatch cw s = exec p.1 s) ∧
      (cw = 0x40 → dispatch cw s = exec .endSession s) ∧
      (legalWord cw = false → dispatch cw s = .next (raise .invalidCommand (cw.zeroExtend 32) s)))

/-- 30_encoding R76, 60_exceptions R226: an illegal word, by the fields of R74, in a session: InvalidCommand
with `f_info = cw`, and nothing else changes. -/
def Obligations.IllegalWordRaisesInvalidCommand : Prop :=
  ∀ (cw : Byte) (s : State),
    (cw.toNat / 16 = 0 ∨ 5 ≤ cw.toNat / 16 ∨
      ((cw.toNat / 16 = 1 ∨ cw.toNat / 16 = 4) ∧ cw.toNat % 16 ≠ 0) ∨
      ((cw.toNat / 16 = 2 ∨ cw.toNat / 16 = 3) ∧ 8 ≤ cw.toNat % 16)) →
    s.phase = .on →
    dispatch cw s = .next { s with fInvalid := true, fCode := 2, fInfo := cw.zeroExtend 32 }

/-- 42_scheduler R161: what is dropped: START in a session, and every other command word outside one. -/
def Obligations.DroppedWordsChangeNothing : Prop :=
  ∀ s : State,
    (s.phase = .on → exec .start s = .next s) ∧
    (s.phase = .off →
      (∀ p ∈ pressInstrs, exec p.1 s = .next s) ∧ (∀ p ∈ releaseInstrs, exec p.1 s = .next s) ∧
        exec .endSession s = .next s)

/-- A step takes the oldest command word and runs its instruction on the state without that word; where a
TICK is enabled too, when the next turn is the command's (10_state R42, 20_memory R64, 60_exceptions R236). -/
def Obligations.StepRunsTheDecodedInstruction : Prop :=
  ∀ (s : State) (cw : Byte) (rest : List Byte) (i : Instr),
    s.evq = cw :: rest → decodeWord cw = .ok i →
    (tickEnabled s = false → step s = exec i { s with evq := rest }) ∧
    (tickEnabled s = true → ∀ ts, s.turns = .command :: ts →
      step s = exec i { s with evq := rest, turns := ts })

/-- 60_exceptions R236: with a TICK enabled and a command waiting either may run first, by the draw of the
turn, and one of the two does; with one of them ready it runs; with none the core waits (70_reset R252). -/
def Obligations.TickAndCommandInEitherOrder : Prop :=
  ∀ (s : State) (cw : Byte) (rest : List Byte),
    (tickEnabled s = true → s.evq = cw :: rest →
      (∀ ts, s.turns = .tick :: ts → step s = exec .tick { s with turns := ts }) ∧
      (∀ ts, s.turns = .command :: ts → step s = dispatch cw { s with evq := rest, turns := ts }) ∧
      (s.turns = [] → step s = exec .tick { s with draws := s.draws + 1 } ∨
        step s = dispatch cw { s with evq := rest, draws := s.draws + 1 })) ∧
    (tickEnabled s = true → s.evq = [] → step s = exec .tick s) ∧
    (tickEnabled s = false → s.evq = cw :: rest → step s = dispatch cw { s with evq := rest }) ∧
    (tickEnabled s = false → s.evq = [] → step s = .next s)

/-- No step is refused: an event that is not enabled is never chosen (R174, R161). -/
def Obligations.StepIsNeverRefused : Prop :=
  ∀ (s : State) (r : Refusal), step s ≠ .refused r

/-- 10_state R42, 20_memory R64: the host appends at the tail, and a step leaves `evq` as it is or without
its head. -/
def Obligations.CommandQueueIsFirstInFirstOut : Prop :=
  (∀ (cw : Byte) (s : State), (hostDeliver cw s).evq = s.evq ++ [cw]) ∧
    ∀ s t : State, step s = .next t → t.evq = s.evq ∨ ∃ cw, s.evq = cw :: t.evq

/-! ### START and END -/

/-- 42_scheduler section 3 (R162): START outside a session, on a radio that answers: steps 1 to 9, or the end at
step 2. The last clause also keeps `wr_src`, `wr_len` and `wr_off`, which 10_state R33 and R34 call unspecified
after START: that is the model's choice (log 32). -/
def Obligations.StartRunsItsSteps : Prop :=
  ∀ s : State, s.phase = .off → radioAlive s →
    (2000 ≤ s.sampleRate.toNat ∧ s.sampleRate.toNat % 2000 = 0 →
      ∃ t, exec .start s = .next t ∧
        t.fConfig = false ∧ t.fInvalid = false ∧ t.fWrite = false ∧ t.fCode = 0 ∧ t.fInfo = 0 ∧
        t.n.toNat * 2000 = s.sampleRate.toNat ∧ t.fOffset.toInt = (s.fRc.toNat : Int) - s.fCenter.toNat ∧
        t.radioLog = s.radioLog ++
          [.configure s.sampleRate s.fCenter s.gain, .openTransmitStream, .activateStream] ∧
        t.stopBuf = stopBuffer t ∧ t.stopLen.toNat = 360 * t.n.toNat ∧
        t.held = 0 ∧ t.curTok = .idle ∧
        t.txBuf = idleBuffer t ∧ t.txLen.toNat = 10 * t.n.toNat ∧ (∀ c ∈ t.txBuf, c.isZero) ∧
        t.sch = .idle ∧ t.wr = .idle ∧ t.wrRes = .ok ∧ t.phase = .on ∧
        t.tmrArmed = true ∧ t.tmrDelay = s.tInit ∧ t.air = [] ∧
        t = { s with
          fConfig := t.fConfig, fInvalid := t.fInvalid, fWrite := t.fWrite, fCode := t.fCode, fInfo := t.fInfo
          n := t.n, fOffset := t.fOffset, radioLog := t.radioLog, frame := t.frame, frameLen := t.frameLen
          stopBuf := t.stopBuf, stopLen := t.stopLen, held := t.held, curTok := t.curTok
          txBuf := t.txBuf, txLen := t.txLen, sch := t.sch, wr := t.wr, wrRes := t.wrRes, phase := t.phase
          tmrArmed := t.tmrArmed, tmrDelay := t.tmrDelay, air := t.air }) ∧
    (s.sampleRate.toNat < 2000 ∨ s.sampleRate.toNat % 2000 ≠ 0 →
      exec .start s = .next (raise .configurationError (BitVec.ofNat 32 (s.sampleRate.toNat % 2000)) (clearFaults s)))

/-- 60_exceptions R224, R225: a sample rate that gives no whole number of samples in a clock period: START
records ConfigurationError and changes nothing else, and fails the same way again. -/
def Obligations.StartRefusesFractionalRate : Prop :=
  ∀ s : State, s.phase = .off → (s.sampleRate.toNat < 2000 ∨ s.sampleRate.toNat % 2000 ≠ 0) →
    ∃ t, exec .start s = .next t ∧ t.phase = .off ∧ t.fInfo.toNat = s.sampleRate.toNat % 2000 ∧
      t = { s with fConfig := true, fInvalid := false, fWrite := false, fCode := 1, fInfo := t.fInfo } ∧
      exec .start t = .next t

/-- 42_scheduler section 9 (R178): END in a session: the stream is closed, no STOP frame is sent, and the
configuration, `evq` and the three fault flags stay. That `f_code` and `f_info` stay with the flags, where the
rule leaves them unspecified, is the model's choice (log 10). What the other registers hold is a free value (log
10), of which this says nothing. -/
def Obligations.EndClosesTheSession : Prop :=
  ∀ s : State, s.phase = .on → radioAlive s →
    ∃ t, exec .endSession s = .next t ∧ t.phase = .off ∧ t.tmrArmed = false ∧
      t.radioLog = s.radioLog ++ [.deactivateStream, .closeStream] ∧ t.air = s.air ∧
      configOf t = configOf s ∧ t.evq = s.evq ∧ faultStatus t = faultStatus s

/-! ### PRESS -/

/-- 42_scheduler section 5 (R166): PRESS of each of the eight tokens in a session. The buffer is of the sizes of
20_memory R55, under R55's bound on `N`. The last clause also keeps `wr_src`, `wr_len` and `wr_off`, which are any
value between operations (93_implementation_defined U15): that is the model's choice (log 32). -/
def Obligations.PressRebuildsAndArms : Prop :=
  ∀ p ∈ pressInstrs, ∀ s : State, s.phase = .on → s.n.toNat ≤ maxUnit →
    ∃ t d c, exec p.1 s = .next t ∧ t.held = s.held ||| letters p.2 ∧ classifyMask t.held = some d ∧
      tokenCount d = some c ∧ t.curTok = d ∧
      t.txBuf = modulated s (tileSeq (dirFrame s.n.toNat c) 4) ∧
      t.txLen.toNat = 4 * (16 * s.n.toNat + c * (2 * s.n.toNat)) ∧
      t.sch = .moving ∧ t.tmrArmed = true ∧ t.tmrDelay = s.tInit ∧
      t = { s with
        held := t.held, curTok := t.curTok, frame := t.frame, frameLen := t.frameLen
        txBuf := t.txBuf, txLen := t.txLen, sch := t.sch, tmrArmed := t.tmrArmed, tmrDelay := t.tmrDelay }

/-- 42_scheduler R168: PRESS N then PRESS E before any TICK: one job, the forward-right frame, nothing
offered to the radio; a TICK between the two sends the forward buffer once and changes the outcome in
nothing else. -/
def Obligations.PressesComposeBeforeTick : Prop :=
  ∀ s : State, s.phase = .on → s.held = 0 → s.n.toNat ≤ maxUnit →
    ∃ t1 t2, exec .pressN s = .next t1 ∧ exec .pressE t1 = .next t2 ∧
      t2.held = 0b0101#4 ∧ t2.curTok = .ne ∧ t2.txLen.toNat = 432 * s.n.toNat ∧ t2.tmrArmed = true ∧
      t2.sch = .moving ∧ t2.air = s.air ∧ t2.radioLog = s.radioLog ∧
      (∀ u1, exec .tick t1 = .next u1 → ∃ u2, exec .pressE u1 = .next u2 ∧
        u2.sch = .moving ∧ u2.curTok = .ne ∧ u2.txBuf = t2.txBuf ∧
        (u1.wrRes = .ok → u2.air = s.air ++ t1.txBuf))

/-! ### RELEASE -/

/-- 42_scheduler R171 (a) and (b): RELEASE outside MOVING has no effect, and the operand is not used. -/
def Obligations.ReleaseOutsideMovingDoesNothing : Prop :=
  ∀ p ∈ releaseInstrs, ∀ s : State,
    (s.phase = .on → s.sch ≠ .moving → exec p.1 s = .next s) ∧
      ∀ q ∈ releaseInstrs, exec p.1 s = exec q.1 s

/-- 42_scheduler R170: RELEASE of each of the eight tokens: without effect outside MOVING; in MOVING, where the
radio takes the whole STOP buffer in answers `rs`, the STOP buffer is sent exactly once, and the core is in IDLE
with the idle buffer and the job armed; whatever the radio answers, a RELEASE that ends does steps 4 and 5, and
step 6 by the result of the write. -/
def Obligations.ReleaseSendsStopOnceAndIdles : Prop :=
  ∀ p ∈ releaseInstrs, ∀ s : State, s.phase = .on → s.n.toNat ≤ maxUnit →
    (s.sch ≠ .moving → exec p.1 s = .next s) ∧
    (s.sch = .moving →
      (∀ rs rest : List (BitVec 32), s.wr = .idle → radioAlive s → s.stopLen.toNat = s.stopBuf.length →
        s.radioAnswers = rs ++ rest → Accepting rs s.stopBuf.length 0 →
        ∃ t, exec p.1 s = .next t ∧ t.air = s.air ++ s.stopBuf ∧
          t.radioLog = s.radioLog ++ expectedCalls s.stopBuf rs ∧ t.radioAnswers = rest ∧
          t.held = 0 ∧ t.curTok = .idle ∧ t.sch = .idle ∧
          t.txBuf = modulated s (List.replicate (10 * s.n.toNat) .low) ∧ t.txLen.toNat = 10 * s.n.toNat ∧
          (∀ c ∈ t.txBuf, c.isZero) ∧
          t.wr = .idle ∧ t.wrRes = .ok ∧ t.tmrArmed = true ∧ t.tmrDelay = s.tInit ∧
          t = { s with
            air := t.air, radioLog := t.radioLog, radioAnswers := t.radioAnswers
            held := t.held, curTok := t.curTok, sch := t.sch, frame := t.frame, frameLen := t.frameLen
            txBuf := t.txBuf, txLen := t.txLen, wrSrc := .stop, wrLen := s.stopLen, wrOff := s.stopLen
            wrRes := t.wrRes, tmrArmed := t.tmrArmed, tmrDelay := t.tmrDelay }) ∧
      (∀ t, exec p.1 s = .next t →
        t.held = 0 ∧ t.curTok = .idle ∧ t.sch = .idle ∧ t.wrSrc = .stop ∧
          t.txBuf = modulated s (List.replicate (10 * s.n.toNat) .low) ∧ t.txLen.toNat = 10 * s.n.toNat ∧
          (t.wrRes = .ok → t.tmrArmed = true ∧ t.tmrDelay = s.tInit) ∧
          (t.wrRes = .fail → t.tmrArmed = false ∧ t.fWrite = true)))

/-! ### TICK -/

/-- 42_scheduler R174: when TICK is enabled; an enabled TICK, where the radio takes the whole current buffer in
answers `rs`: the buffer is sent once and not changed, and the job is armed again; whatever the radio answers, a
TICK that ends writes no buffer and nothing of `held`, `cur_tok` and `sch`, and does step 3 by the result of the
write. -/
def Obligations.TickSendsBufferAndRearms : Prop :=
  ∀ s : State,
    (tickEnabled s = true ↔ s.phase = .on ∧ s.tmrArmed = true) ∧
    (tickEnabled s = true →
      (∀ rs rest : List (BitVec 32), s.wr = .idle → radioAlive s → s.txLen.toNat = s.txBuf.length →
        s.radioAnswers = rs ++ rest → Accepting rs s.txBuf.length 0 →
        ∃ t, exec .tick s = .next t ∧ t.air = s.air ++ s.txBuf ∧
          t.radioLog = s.radioLog ++ expectedCalls s.txBuf rs ∧ t.radioAnswers = rest ∧
          t.tmrArmed = true ∧ t.tmrDelay = s.tTick ∧
          t = { s with
            air := t.air, radioLog := t.radioLog, radioAnswers := t.radioAnswers, wrSrc := .tx, wrLen := s.txLen
            wrOff := s.txLen, wrRes := .ok, tmrDelay := t.tmrDelay }) ∧
      (∀ t, exec .tick s = .next t →
        t.wrSrc = .tx ∧ t.txBuf = s.txBuf ∧ t.txLen = s.txLen ∧ t.stopBuf = s.stopBuf ∧ t.stopLen = s.stopLen ∧
          t.frame = s.frame ∧ t.frameLen = s.frameLen ∧ t.held = s.held ∧ t.curTok = s.curTok ∧ t.sch = s.sch ∧
          t.phase = .on ∧
          (t.wrRes = .ok → t.tmrArmed = true ∧ t.tmrDelay = s.tTick) ∧
          (t.wrRes = .fail → t.tmrArmed = false ∧ t.fWrite = true)))

/-- 60_exceptions R229: a refused write. In TICK: only the writer, the air, the fault record and the timer
change. In RELEASE: the STOP frame is abandoned where it failed, steps 4 and 5 still run. In both the timer is
left disarmed, so that no TICK is enabled, and the samples accepted before stay on the air. A disarmed timer is armed again by
START, a PRESS, or a RELEASE taken in MOVING, and by nothing else. -/
def Obligations.RefusedWriteHaltsRetransmission : Prop :=
  (∀ (s : State) (rs rest : List (BitVec 32)) (r : BitVec 32) (l : Nat),
    s.phase = .on → s.wr = .idle → radioAlive s → s.n.toNat ≤ maxUnit → s.radioAnswers = rs ++ r :: rest →
    0 < l → answerAccepts r l = false →
    (s.tmrArmed = true → s.txLen.toNat = s.txBuf.length → Accepting rs s.txBuf.length l →
      ∃ t, exec .tick s = .next t ∧ t.air = s.air ++ s.txBuf.take (s.txBuf.length - l) ∧
        t.wrOff.toNat = s.txBuf.length - l ∧ tickEnabled t = false ∧
        t = { s with
          tmrArmed := false, fWrite := true, fCode := 3, fInfo := r, wrRes := .fail, radioAnswers := rest
          air := t.air, radioLog := t.radioLog, wrSrc := .tx, wrLen := s.txLen, wrOff := t.wrOff }) ∧
    (s.sch = .moving → s.stopLen.toNat = s.stopBuf.length → Accepting rs s.stopBuf.length l →
      ∀ p ∈ releaseInstrs, ∃ t, exec p.1 s = .next t ∧
        t.air = s.air ++ s.stopBuf.take (s.stopBuf.length - l) ∧ t.wrOff.toNat = s.stopBuf.length - l ∧
        tickEnabled t = false ∧ t.txBuf = idleBuffer s ∧ t.txLen.toNat = 10 * s.n.toNat ∧
        t = { s with
          tmrArmed := false, fWrite := true, fCode := 3, fInfo := r, wrRes := .fail, radioAnswers := rest
          held := 0, curTok := .idle, sch := .idle, frame := t.frame, frameLen := t.frameLen
          txBuf := t.txBuf, txLen := t.txLen
          air := t.air, radioLog := t.radioLog, wrSrc := .stop, wrLen := s.stopLen, wrOff := t.wrOff })) ∧
  (∀ (i : Instr) (s t : State), exec i s = .next t → s.tmrArmed = false → t.tmrArmed = true →
    (i = .start ∧ s.phase = .off) ∨ (s.phase = .on ∧ ∃ p ∈ pressInstrs, i = p.1) ∨
      (s.phase = .on ∧ s.sch = .moving ∧ ∃ p ∈ releaseInstrs, i = p.1))

/-- TICK has no handler to run where it is not enabled (R174); a TICK, like any WRITE, is never begun on a busy
writer (43_writer R202; log 18), and never ends on a radio that does not answer (20_memory R65; log 6). -/
def Obligations.StopsHaveNoStep : Prop :=
  ∀ s : State,
    (tickEnabled s = false → exec .tick s = .refused .tickNotEnabled) ∧
    (∀ src, s.wr = .busy → exec (.write src) s = .fault .writerBusy) ∧
    (∀ src, s.wr = .idle → bufLen src s ≠ 0 → s.radioHangAt = some s.radioLog.length →
      exec (.write src) s = .fault .radioStuck) ∧
    (tickEnabled s = true → s.wr = .busy → exec .tick s = .fault .writerBusy) ∧
    (tickEnabled s = true → s.wr = .idle → s.txLen ≠ 0 → s.radioHangAt = some s.radioLog.length →
      exec .tick s = .fault .radioStuck) ∧
    (s.phase = .on → s.radioHangAt = some s.radioLog.length → exec .endSession s = .fault .radioStuck) ∧
    (s.phase = .off → rateValid s.sampleRate.toNat 2000 = true → s.radioHangAt = some s.radioLog.length →
      exec .start s = .fault .radioStuck)

/-- 60_exceptions R236: a TICK that goes before a PRESS, and succeeds, changes what follows by one
transmission of the old buffer and no more. -/
def Obligations.TickFirstAddsOneTransmission : Prop :=
  ∀ p ∈ pressInstrs, ∀ s u t v : State,
    tickEnabled s = true → s.txLen.toNat = s.txBuf.length →
    exec .tick s = .next u → u.wrRes = .ok → exec p.1 u = .next v → exec p.1 s = .next t →
    v.air = t.air ++ s.txBuf ∧ v.held = t.held ∧ v.curTok = t.curTok ∧ v.sch = t.sch ∧ v.txBuf = t.txBuf ∧
      v.txLen = t.txLen ∧ v.stopBuf = t.stopBuf ∧ v.tmrArmed = t.tmrArmed ∧ v.tmrDelay = t.tmrDelay ∧
      v.phase = t.phase ∧ faultStatus v = faultStatus t

/-! ### CLASSIFY -/

/-- 40_encoder R101: CLASSIFY of a held mask, by the full table of the rule (the seven contradictory masks by
the spec's chain, D4). The result is returned at the port of log 14, and nothing else changes. -/
def Obligations.ClassifyMaskFollowsTable : Prop :=
  ∀ s : State, ∀ p ∈ ([(0b0000, none), (0b0001, some .n), (0b0010, some .s), (0b0011, some .n),
      (0b0100, some .e), (0b0101, some .ne), (0b0110, some .se), (0b0111, some .ne), (0b1000, some .w),
      (0b1001, some .nw), (0b1010, some .sw), (0b1011, some .nw), (0b1100, some .e), (0b1101, some .ne),
      (0b1110, some .se), (0b1111, some .ne)] : List (BitVec 4 × Option Token)),
    exec (.classify (.mask p.1)) s = .next { s with classifyOut := p.2 }

/-- 40_encoder R102 with the flags of 30_encoding R78: CLASSIFY of a raw string: the direction letters first,
then `x`, then `o`, else InvalidCommand with `f_info = 0` and no value. -/
def Obligations.ClassifyStringFollowsLetters : Prop :=
  ∀ (str : List Byte) (s : State) (m : BitVec 4),
    (m.getLsbD 0 = true ↔ holdsLetter 0x6E 0x4E str) → (m.getLsbD 1 = true ↔ holdsLetter 0x73 0x53 str) →
    (m.getLsbD 2 = true ↔ holdsLetter 0x65 0x45 str) → (m.getLsbD 3 = true ↔ holdsLetter 0x77 0x57 str) →
    (∀ d, classifyMask m = some d → exec (.classify (.raw str)) s = .next { s with classifyOut := some d }) ∧
    (classifyMask m = none →
      (holdsLetter 0x78 0x58 str → exec (.classify (.raw str)) s = .next { s with classifyOut := some .stop }) ∧
      (¬holdsLetter 0x78 0x58 str → holdsLetter 0x6F 0x4F str →
        exec (.classify (.raw str)) s = .next { s with classifyOut := some .idle }) ∧
      (¬holdsLetter 0x78 0x58 str → ¬holdsLetter 0x6F 0x4F str →
        exec (.classify (.raw str)) s =
          .next { s with classifyOut := none, fInvalid := true, fCode := 2, fInfo := 0 }))

/-- 95_test_vectors A4 and 70_reset R264: the order of a string's bytes, and words misread by their letters:
"stop", "east", "west", "none", "on", "north", "south". -/
def Obligations.ClassifyIgnoresOrderAndMisreadsWords : Prop :=
  (∀ (a b : List Byte) (s : State), a.Perm b → exec (.classify (.raw a)) s = exec (.classify (.raw b)) s) ∧
    ∀ s : State, ∀ p ∈ ([([0x73, 0x74, 0x6F, 0x70], .s), ([0x65, 0x61, 0x73, 0x74], .se),
        ([0x77, 0x65, 0x73, 0x74], .se), ([0x6E, 0x6F, 0x6E, 0x65], .ne), ([0x6F, 0x6E], .n),
        ([0x6E, 0x6F, 0x72, 0x74, 0x68], .n), ([0x73, 0x6F, 0x75, 0x74, 0x68], .s)] : List (List Byte × Token)),
      exec (.classify (.raw p.1)) s = .next { s with classifyOut := some p.2 }

/-! ### ENCODE -/

/-- 40_encoder R107 to R114: the eight directional ENCODE operations, under R55's bound on `N`. -/
def Obligations.EncodeDirectionalFrames : Prop :=
  ∀ p ∈ encodeInstrs, ∀ s : State, s.n.toNat ≤ maxUnit →
    ∃ t, exec p.1 s = .next t ∧ t.frame = dirFrame s.n.toNat p.2.1 ∧ t.frame.length = p.2.2 * s.n.toNat ∧
      t.frameLen.toNat = p.2.2 * s.n.toNat ∧ t = { s with frame := t.frame, frameLen := t.frameLen }

/-- 40_encoder R104 to R106: the directional frame by its two pulse shapes, its counts and its edges. -/
def Obligations.DirectionalFrameShape : Prop :=
  ∀ u c : Nat, 1 ≤ u →
    longBit u = List.replicate (3 * u) .high ++ List.replicate u .low ∧ (longBit u).length = 4 * u ∧
      shortBit u = List.replicate u .high ++ List.replicate u .low ∧ (shortBit u).length = 2 * u ∧
      dirFrame u c = tileSeq (longBit u) 4 ++ tileSeq (shortBit u) c ∧
      (dirFrame u c).length = 16 * u + 2 * c * u ∧
      (dirFrame u c).count .high = (12 + c) * u ∧ (dirFrame u c).count .low = (4 + c) * u ∧
      risingEdges .low (dirFrame u c) = 4 + c ∧
      (dirFrame u c).drop ((dirFrame u c).length - u) = List.replicate u .low

/-- 30_encoding R79: the closed form of a directional frame, sample by sample. -/
def Obligations.DirectionalFrameClosedForm : Prop :=
  ∀ (t : Token) (c u i : Nat), tokenCount t = some c → i < 16 * u + c * (2 * u) →
    (encodeSeq u t).length = 16 * u + c * (2 * u) ∧
      (encodeSeq u t)[i]? = some
        (if i < 16 * u then (if i % (4 * u) < 3 * u then .high else .low)
        else if (i - 16 * u) % (2 * u) < u then .high else .low)

/-- 40_encoder R115, 30_encoding R80: ENCODE.STOP, its counts, its edges and its closed form. -/
def Obligations.EncodeStopFrame : Prop :=
  ∀ s : State, s.n.toNat ≤ maxUnit → 1 ≤ s.n.toNat →
    ∃ t, exec .encodeStop s = .next t ∧ t.frame.length = 360 * s.n.toNat ∧
      t.frameLen.toNat = 360 * s.n.toNat ∧
      t.frame = tileSeq (tileSeq (longBit s.n.toNat) 4 ++ tileSeq (shortBit s.n.toNat) 4) 15 ∧
      t.frame = tileSeq (dirFrame s.n.toNat 4) 15 ∧
      t.frame.count .high = 240 * s.n.toNat ∧ t.frame.count .low = 120 * s.n.toNat ∧
      risingEdges .low t.frame = 120 ∧
      (∀ i, i < 360 * s.n.toNat → t.frame[i]? = some
        (if i % (24 * s.n.toNat) < 16 * s.n.toNat then
          (if i % (24 * s.n.toNat) % (4 * s.n.toNat) < 3 * s.n.toNat then .high else .low)
        else if (i % (24 * s.n.toNat) - 16 * s.n.toNat) % (2 * s.n.toNat) < s.n.toNat then .high else .low)) ∧
      t = { s with frame := t.frame, frameLen := t.frameLen }

/-- 40_encoder R116, 30_encoding R81: ENCODE.IDLE: `10·N` LOW samples. -/
def Obligations.EncodeIdleFrame : Prop :=
  ∀ s : State, s.n.toNat ≤ maxUnit →
    ∃ t, exec .encodeIdle s = .next t ∧ t.frame = List.replicate (10 * s.n.toNat) .low ∧
      t.frameLen.toNat = 10 * s.n.toNat ∧ t = { s with frame := t.frame, frameLen := t.frameLen }

/-- 40_encoder R117, 60_exceptions R227: ENCODE of a reserved token code raises InvalidCommand and writes no
frame. -/
def Obligations.EncodeReservedCodeRaises : Prop :=
  ∀ (c : BitVec 4) (s : State), 10 ≤ c.toNat →
    encodeCode c s = { s with fInvalid := true, fCode := 2, fInfo := c.zeroExtend 32 }

/-- 40_encoder R118: the integer laws of the encoder. -/
def Obligations.EncoderIntegerLaws : Prop :=
  (∀ (t : Token) (u : Nat), u ∣ (encodeSeq u t).length ∧
    (u ≤ maxUnit → 4 * (encodeSeq u t).length < 2 ^ 32 ∧ (encodeSeq u t).length < 2 ^ 31 ∧
      (isDirectional t = true → 4 * (encodeSeq u t).length < 2 ^ 31))) ∧
    (∀ (t t' : Token) (u : Nat), isDirectional t = true → isDirectional t' = true →
      (encodeSeq u t).take (16 * u) = (encodeSeq u t').take (16 * u) ∧
        (encodeSeq u t).take (16 * u) = (encodeSeq u .stop).take (16 * u) ∧
        (1 ≤ u → t ≠ t' → (encodeSeq u t).length ≠ (encodeSeq u t').length)) ∧
    (∀ u : Nat, ([.s, .sw, .se, .n, .ne, .nw, .w, .e] : List Token).map (fun t => (encodeSeq u t).length) =
      [36, 72, 84, 96, 108, 120, 132, 144].map (· * u)) ∧
    (([.s, .sw, .se, .n, .ne, .nw, .w, .e] : List Token).map tokenCount =
      [0, 3, 4, 5, 6, 7, 8, 9].map fun j => some (10 + 6 * j))

/-- 40_encoder R119, for every frame but IDLE (whose samples are all LOW): it begins HIGH and ends LOW, holds no
run of HIGH longer than `3·N` and no run of LOW longer than `N`; a tiled frame is periodic. -/
def Obligations.FrameRunsAreBounded : Prop :=
  ∀ (t : Token) (u : Nat), 1 ≤ u →
    (encodeSeq u t).getLast? = some .low ∧
    (t ≠ .idle →
      (encodeSeq u t).head? = some .high ∧
      (∀ i, i + 3 * u < (encodeSeq u t).length →
        ∃ j, i ≤ j ∧ j ≤ i + 3 * u ∧ (encodeSeq u t)[j]? = some .low) ∧
      (∀ i, i + u < (encodeSeq u t).length → ∃ j, i ≤ j ∧ j ≤ i + u ∧ (encodeSeq u t)[j]? = some .high)) ∧
    (∀ i, i + (encodeSeq u t).length < 4 * (encodeSeq u t).length →
      (tileSeq (encodeSeq u t) 4)[i + (encodeSeq u t).length]? = (tileSeq (encodeSeq u t) 4)[i]?)

/-! ### TILE and MODULATE -/

/-- 41_modulator R141: TILE of a frame whose four copies fit the capacity of FRAME (a directional frame does,
20_memory R55). -/
def Obligations.TileRepeatsFrameFourTimes : Prop :=
  ∀ s : State, 4 * s.frame.length ≤ 576 * s.n.toNat → s.n.toNat ≤ maxUnit →
    ∃ t, exec .tile s = .next t ∧ t.frame.length = 4 * s.frame.length ∧
      t.frameLen.toNat = 4 * s.frame.length ∧
      (∀ i, i < 4 * s.frame.length → t.frame[i]? = s.frame[i % s.frame.length]?) ∧
      t = { s with frame := t.frame, frameLen := t.frameLen }

/-- 41_modulator R144 to R146: MODULATE into a destination that can hold FRAME: the length is kept, a LOW
sample becomes a pair of zeros (P2), and sample `k` depends on the level at `k`, on `k`, on F_OFFSET and on
SAMPLE_RATE alone (P1); the other buffer and every other register stay. The stored bits are free values (log 11,
log 12). -/
def Obligations.ModulateKeepsLengthAndSilence : Prop :=
  ∀ (dst : BufSel) (s : State), s.frame.length ≤ bufCapUnits dst * s.n.toNat →
    ∃ t, exec (.modulate dst) s = .next t ∧ (bufSamples dst t).length = s.frame.length ∧
      bufLen dst t = s.frameLen ∧
      (∀ (k : Nat) (c : C32), (bufSamples dst t)[k]? = some c → s.frame[k]? = some Level.low → c.isZero) ∧
      (∀ (s' t' : State) (dst' : BufSel) (k : Nat), exec (.modulate dst') s' = .next t' →
        s'.fOffset = s.fOffset → s'.sampleRate = s.sampleRate → s'.frame[k]? = s.frame[k]? →
        (bufSamples dst' t')[k]? = (bufSamples dst t)[k]?) ∧
      (dst = .tx → t = { s with txBuf := t.txBuf, txLen := t.txLen }) ∧
      (dst = .stop → t = { s with stopBuf := t.stopBuf, stopLen := t.stopLen })

/-- 41_modulator R143 to R146 (P3, P4): every HIGH sample that MODULATE stores is a pair of finite binary32
values within MOD_TOL of `A_HIGH·(cos θ(k), sin θ(k))`, `θ(k) = 2π·F_OFFSET·k/SAMPLE_RATE`. MOD_TOL is OPEN, and
this holds for every quantiser of R146 at its own tolerance (log 11). -/
def Obligations.ModulatedHighSamplesAreAccurate : Prop :=
  ∀ (dst : BufSel) (s t : State), 0 < s.sampleRate.toNat → exec (.modulate dst) s = .next t →
    ∀ (k : Nat) (c : C32), (bufSamples dst t)[k]? = some c → s.frame[k]? = some Level.high →
      SampleOk (modTol s.fOffset.toInt s.sampleRate.toNat) .high c s.fOffset.toInt s.sampleRate.toNat k

/-- 41_modulator R143, R147: the exact phase: it vanishes at offset 0, an offset a whole sample rate away gives
the same reference values, and the phase numerator stays below the sample rate. -/
def Obligations.ReferencePhaseAliases : Prop :=
  ∀ (l : Level) (offset : Int) (rate k : Nat), 0 < rate →
    phaseNum offset rate k < rate ∧
      ((phaseNum offset rate k : Nat) : Int) = (offset * k) % (rate : Int) ∧
      reference l (offset + rate) rate k = reference l offset rate k ∧
      reference l 0 rate k = (amp l, 0)

/-- A frame that its destination cannot hold stops TILE and MODULATE, run by themselves (10_state R38 to R40;
log 17). -/
def Obligations.OversizedFramesStop : Prop :=
  ∀ s : State,
    (576 * s.n.toNat < 4 * s.frame.length → exec .tile s = .fault .bufferOverflow) ∧
      (576 * s.n.toNat < s.frame.length → exec (.modulate .tx) s = .fault .bufferOverflow) ∧
      (360 * s.n.toNat < s.frame.length → exec (.modulate .stop) s = .fault .bufferOverflow)

/-! ### WRITE -/

/-- 43_writer R204, R205: a WRITE whose answers each lie in `1 .. max` until the buffer is taken: every sample
is sent once and in order, each call offers exactly what is left, and the number of calls is between 1 and
`L`. -/
def Obligations.WriteSendsEverySampleOnce : Prop :=
  ∀ (src : BufSel) (s : State) (rs rest : List (BitVec 32)),
    s.wr = .idle → radioAlive s → (bufLen src s).toNat = (bufSamples src s).length →
    s.radioAnswers = rs ++ rest → Accepting rs (bufSamples src s).length 0 →
    ∃ t, exec (.write src) s = .next t ∧ t.wrRes = .ok ∧ t.wr = .idle ∧ t.wrOff = t.wrLen ∧
      t.wrLen = bufLen src s ∧ t.air = s.air ++ bufSamples src s ∧
      t.radioLog = s.radioLog ++ expectedCalls (bufSamples src s) rs ∧ t.radioAnswers = rest ∧
      (1 ≤ (bufSamples src s).length → 1 ≤ rs.length ∧ rs.length ≤ (bufSamples src s).length) ∧
      t = { s with
        wrSrc := src, wrLen := t.wrLen, wrOff := t.wrOff, wrRes := t.wrRes, air := t.air
        radioLog := t.radioLog, radioAnswers := t.radioAnswers }

/-- 43_writer R206, R208, 60_exceptions R228: a WRITE whose first answer outside `1 .. max` is `r`, with `l`
samples left: FAIL, `wr_off` left at the count accepted before, no further call, StreamWriteFailure with
`f_info = r`. -/
def Obligations.WriteFailsOnRefusedAnswer : Prop :=
  ∀ (src : BufSel) (s : State) (rs rest : List (BitVec 32)) (r : BitVec 32) (l : Nat),
    s.wr = .idle → radioAlive s → (bufLen src s).toNat = (bufSamples src s).length →
    s.radioAnswers = rs ++ r :: rest → Accepting rs (bufSamples src s).length l → 0 < l →
    (r.toInt ≤ 0 ∨ (l : Int) < r.toInt) →
    ∃ t, exec (.write src) s = .next t ∧ t.wrRes = .fail ∧ t.wr = .idle ∧
      t.wrOff.toNat = (bufSamples src s).length - l ∧ t.fWrite = true ∧ t.fCode = 3 ∧ t.fInfo = r ∧
      t.air = s.air ++ (bufSamples src s).take ((bufSamples src s).length - l) ∧
      t.radioLog = s.radioLog ++ expectedCalls (bufSamples src s) (rs ++ [r]) ∧ t.radioAnswers = rest ∧
      t = { s with
        wrSrc := src, wrLen := bufLen src s, wrOff := t.wrOff, wrRes := t.wrRes, air := t.air
        radioLog := t.radioLog, radioAnswers := t.radioAnswers
        fWrite := t.fWrite, fCode := t.fCode, fInfo := t.fInfo }

/-- 43_writer R207, R209: on a radio that answers every call, WRITE ends, whatever the answers are (drawn or
scripted), after at most `wr_len` calls, and after none on an empty buffer. -/
def Obligations.WriteTerminates : Prop :=
  ∀ (src : BufSel) (s : State), s.wr = .idle → radioAlive s →
    ∃ t calls, exec (.write src) s = .next t ∧ t.wr = .idle ∧ t.radioLog = s.radioLog ++ calls ∧
      writeCalls calls = calls.length ∧ calls.length ≤ (bufLen src s).toNat ∧
      ((bufLen src s).toNat = 0 → t.wrRes = .ok ∧ t.radioLog = s.radioLog ∧ t.air = s.air) ∧
      t.txBuf = s.txBuf ∧ t.stopBuf = s.stopBuf ∧ t.frame = s.frame

/-- 43_writer R211: WRITE does not look at the samples: on other buffers, of either name, whose length register
holds the same length it takes the same course. -/
def Obligations.WriteIgnoresSampleValues : Prop :=
  ∀ (src src' : BufSel) (s t : State) (tx stop : List C32) (txLen stopLen : BitVec 32),
    let s' := { s with txBuf := tx, stopBuf := stop, txLen := txLen, stopLen := stopLen }
    bufLen src' s' = bufLen src s → exec (.write src) s = .next t →
    ∃ t', exec (.write src') s' = .next t' ∧
      t'.wr = t.wr ∧ t'.wrSrc = src' ∧ t.wrSrc = src ∧ t'.wrLen = t.wrLen ∧ t'.wrOff = t.wrOff ∧
      t'.wrRes = t.wrRes ∧ faultStatus t' = faultStatus t ∧ t'.radioAnswers = t.radioAnswers ∧
      t'.draws = t.draws ∧ t'.radioLog.length = t.radioLog.length

/-- 20_memory R59: `air` grows by exactly the prefix of the buffer that was accepted, the whole of it exactly
where WRITE ends OK; no other internal operation, no PRESS and no END touches it. -/
def Obligations.AirGrowsByAcceptedPrefix : Prop :=
  (∀ (src : BufSel) (s t : State), (bufLen src s).toNat = (bufSamples src s).length →
    exec (.write src) s = .next t →
      t.air = s.air ++ (bufSamples src s).take t.wrOff.toNat ∧ t.wrOff.toNat ≤ (bufSamples src s).length ∧
        (t.wrRes = .ok ↔ t.wrOff.toNat = (bufSamples src s).length)) ∧
    (∀ (i : Instr) (s t : State), exec i s = .next t → i ≠ .start → i ≠ .tick → (∀ src, i ≠ .write src) →
      (∀ p ∈ releaseInstrs, i ≠ p.1) → t.air = s.air)

/-! ### The whole machine -/

/-- 60_exceptions R221, R222: what `raise` records, and that it changes nothing else. -/
def Obligations.RaiseRecordsTheFault : Prop :=
  ∀ (info : BitVec 32) (s : State),
    raise .configurationError info s = { s with fConfig := true, fCode := 1, fInfo := info } ∧
      raise .invalidCommand info s = { s with fInvalid := true, fCode := 2, fInfo := info } ∧
      raise .streamWriteFailure info s = { s with fWrite := true, fCode := 3, fInfo := info }

/-- 10_state R23: no operation of the core and no step writes the configuration registers, and N and F_OFFSET
are constant while the session stays open. -/
def Obligations.ConfigurationNeverChanges : Prop :=
  (∀ (i : Instr) (s t : State), exec i s = .next t →
    configOf t = configOf s ∧ (s.phase = .on → t.phase = .on → t.n = s.n ∧ t.fOffset = s.fOffset) ∧
      (i ≠ .start → i ≠ .endSession → t.n = s.n ∧ t.fOffset = s.fOffset)) ∧
    (∀ s t : State, step s = .next t →
      configOf t = configOf s ∧ (s.phase = .on → t.phase = .on → t.n = s.n ∧ t.fOffset = s.fOffset)) ∧
    (∀ (cw : Byte) (s : State), configOf (hostDeliver cw s) = configOf s)

/-- 10_state R36: a flag, once set, is cleared by no operation but START taken outside a session. -/
def Obligations.FaultFlagsAreSticky : Prop :=
  ∀ (i : Instr) (s t : State), exec i s = .next t → (i = .start → s.phase = .on) →
    (s.fConfig = true → t.fConfig = true) ∧ (s.fInvalid = true → t.fInvalid = true) ∧
      (s.fWrite = true → t.fWrite = true)

/-- 10_state R36, R37: every step keeps the agreement of `f_code` with the flags. At END this rests on `f_code`
keeping its value, which 42_scheduler R178 and 70_reset_and_hazards R251 leave unspecified: the model's choice
(log 10). -/
def Obligations.StepKeepsFaultRecord : Prop :=
  ∀ s t : State, FaultRecordInv s → step s = .next t → FaultRecordInv t

/-- The invariants hold at reset, and at every construction. `Memory.wf` holds there by the model's choice of
empty buffers with lengths 0 (log 3), which 70_reset_and_hazards R251 leaves unspecified. -/
def Obligations.InvariantsHoldAtReset : Prop :=
  CoreInv State.reset ∧ FaultRecordInv State.reset ∧ Memory.wf State.reset = true ∧
    ∀ c, CoreInv (State.construct c) ∧ FaultRecordInv (State.construct c) ∧ Memory.wf (State.construct c) = true

/-- 10_state R27 (a) to (f): every step, from every state that meets the session invariants (not only from
reachable ones), ends in a state that meets them. -/
def Obligations.StepKeepsSessionInvariants : Prop :=
  ∀ s t : State, CoreInv s → step s = .next t → CoreInv t

/-- Every step in a session keeps the canonical form of the buffers: each length register holds its
sequence's length; START establishes it. -/
def Obligations.StepKeepsMemoryForm : Prop :=
  ∀ s t : State, CoreInv s → (s.phase = .on → Memory.wf s = true) → step s = .next t →
    t.phase = .on → Memory.wf t = true

/-- 42_scheduler R177: in IDLE, between a RELEASE and the next PRESS, a step puts nothing but zero samples on
the air, whichever event it takes. -/
def Obligations.IdleTransmitsOnlySilence : Prop :=
  ∀ s t : State, s.phase = .on → CoreInv s → s.sch = .idle → step s = .next t →
    ∃ zs : List C32, t.air = s.air ++ zs ∧ ∀ c ∈ zs, c.isZero

/-- Outside a session nothing is transmitted: a step makes no write primitive call, and it adds nothing to the
air (42_scheduler R161: "A dropped word can never cause a transmission"). -/
def Obligations.NoTransmissionOutsideSession : Prop :=
  ∀ s t : State, s.phase = .off → step s = .next t →
    writeCalls t.radioLog = writeCalls s.radioLog ∧ (t.air = s.air ∨ t.air = [])

/-- 20_memory R57: TXBUF is written by START, PRESS, RELEASE and MODULATE into it alone, STOPBUF by START and
MODULATE into it alone (END leaves both unspecified); TICK and WRITE write no buffer. -/
def Obligations.BuffersAreReadOnlyOnceBuilt : Prop :=
  ∀ (i : Instr) (s t : State), exec i s = .next t → i ≠ .start → i ≠ .endSession →
    (i ≠ .modulate .stop → t.stopBuf = s.stopBuf ∧ t.stopLen = s.stopLen) ∧
      (i ≠ .modulate .tx → (∀ p ∈ pressInstrs, i ≠ p.1) → (∀ p ∈ releaseInstrs, i ≠ p.1) →
        t.txBuf = s.txBuf ∧ t.txLen = s.txLen) ∧
      (i = .tick ∨ (∃ src, i = .write src) → t.frame = s.frame ∧ t.frameLen = s.frameLen)
end

