-- ==== Sys2Proof/Laws/State.lean ====
section
/-! SUPPORT. One lemma per field per update: what each plain operation leaves in each field, so that no
proof unfolds a record update. -/

namespace Sys2Proof.Machine

/-! ### clearFaults -/

@[simp] theorem clearFaults_sampleRate (s : State) : (clearFaults s).sampleRate = s.sampleRate := rfl
@[simp] theorem clearFaults_fCenter (s : State) : (clearFaults s).fCenter = s.fCenter := rfl
@[simp] theorem clearFaults_fRc (s : State) : (clearFaults s).fRc = s.fRc := rfl
@[simp] theorem clearFaults_gain (s : State) : (clearFaults s).gain = s.gain := rfl
@[simp] theorem clearFaults_tTick (s : State) : (clearFaults s).tTick = s.tTick := rfl
@[simp] theorem clearFaults_tInit (s : State) : (clearFaults s).tInit = s.tInit := rfl
@[simp] theorem clearFaults_n (s : State) : (clearFaults s).n = s.n := rfl
@[simp] theorem clearFaults_fOffset (s : State) : (clearFaults s).fOffset = s.fOffset := rfl
@[simp] theorem clearFaults_phase (s : State) : (clearFaults s).phase = s.phase := rfl
@[simp] theorem clearFaults_sch (s : State) : (clearFaults s).sch = s.sch := rfl
@[simp] theorem clearFaults_held (s : State) : (clearFaults s).held = s.held := rfl
@[simp] theorem clearFaults_curTok (s : State) : (clearFaults s).curTok = s.curTok := rfl
@[simp] theorem clearFaults_tmrArmed (s : State) : (clearFaults s).tmrArmed = s.tmrArmed := rfl
@[simp] theorem clearFaults_tmrDelay (s : State) : (clearFaults s).tmrDelay = s.tmrDelay := rfl
@[simp] theorem clearFaults_wr (s : State) : (clearFaults s).wr = s.wr := rfl
@[simp] theorem clearFaults_wrSrc (s : State) : (clearFaults s).wrSrc = s.wrSrc := rfl
@[simp] theorem clearFaults_wrLen (s : State) : (clearFaults s).wrLen = s.wrLen := rfl
@[simp] theorem clearFaults_wrOff (s : State) : (clearFaults s).wrOff = s.wrOff := rfl
@[simp] theorem clearFaults_wrRes (s : State) : (clearFaults s).wrRes = s.wrRes := rfl
@[simp] theorem clearFaults_fConfig (s : State) : (clearFaults s).fConfig = false := rfl
@[simp] theorem clearFaults_fInvalid (s : State) : (clearFaults s).fInvalid = false := rfl
@[simp] theorem clearFaults_fWrite (s : State) : (clearFaults s).fWrite = false := rfl
@[simp] theorem clearFaults_fCode (s : State) : (clearFaults s).fCode = 0 := rfl
@[simp] theorem clearFaults_fInfo (s : State) : (clearFaults s).fInfo = 0 := rfl
@[simp] theorem clearFaults_frame (s : State) : (clearFaults s).frame = s.frame := rfl
@[simp] theorem clearFaults_frameLen (s : State) : (clearFaults s).frameLen = s.frameLen := rfl
@[simp] theorem clearFaults_txBuf (s : State) : (clearFaults s).txBuf = s.txBuf := rfl
@[simp] theorem clearFaults_txLen (s : State) : (clearFaults s).txLen = s.txLen := rfl
@[simp] theorem clearFaults_stopBuf (s : State) : (clearFaults s).stopBuf = s.stopBuf := rfl
@[simp] theorem clearFaults_stopLen (s : State) : (clearFaults s).stopLen = s.stopLen := rfl
@[simp] theorem clearFaults_evq (s : State) : (clearFaults s).evq = s.evq := rfl
@[simp] theorem clearFaults_air (s : State) : (clearFaults s).air = s.air := rfl
@[simp] theorem clearFaults_radioLog (s : State) : (clearFaults s).radioLog = s.radioLog := rfl
@[simp] theorem clearFaults_radioAnswers (s : State) : (clearFaults s).radioAnswers = s.radioAnswers := rfl
@[simp] theorem clearFaults_radioHangAt (s : State) : (clearFaults s).radioHangAt = s.radioHangAt := rfl
@[simp] theorem clearFaults_turns (s : State) : (clearFaults s).turns = s.turns := rfl
@[simp] theorem clearFaults_draws (s : State) : (clearFaults s).draws = s.draws := rfl
@[simp] theorem clearFaults_classifyOut (s : State) : (clearFaults s).classifyOut = s.classifyOut := rfl

/-! ### cancel -/

@[simp] theorem cancel_sampleRate (s : State) : (cancel s).sampleRate = s.sampleRate := rfl
@[simp] theorem cancel_fCenter (s : State) : (cancel s).fCenter = s.fCenter := rfl
@[simp] theorem cancel_fRc (s : State) : (cancel s).fRc = s.fRc := rfl
@[simp] theorem cancel_gain (s : State) : (cancel s).gain = s.gain := rfl
@[simp] theorem cancel_tTick (s : State) : (cancel s).tTick = s.tTick := rfl
@[simp] theorem cancel_tInit (s : State) : (cancel s).tInit = s.tInit := rfl
@[simp] theorem cancel_n (s : State) : (cancel s).n = s.n := rfl
@[simp] theorem cancel_fOffset (s : State) : (cancel s).fOffset = s.fOffset := rfl
@[simp] theorem cancel_phase (s : State) : (cancel s).phase = s.phase := rfl
@[simp] theorem cancel_sch (s : State) : (cancel s).sch = s.sch := rfl
@[simp] theorem cancel_held (s : State) : (cancel s).held = s.held := rfl
@[simp] theorem cancel_curTok (s : State) : (cancel s).curTok = s.curTok := rfl
@[simp] theorem cancel_tmrArmed (s : State) : (cancel s).tmrArmed = false := rfl
@[simp] theorem cancel_tmrDelay (s : State) : (cancel s).tmrDelay = s.tmrDelay := rfl
@[simp] theorem cancel_wr (s : State) : (cancel s).wr = s.wr := rfl
@[simp] theorem cancel_wrSrc (s : State) : (cancel s).wrSrc = s.wrSrc := rfl
@[simp] theorem cancel_wrLen (s : State) : (cancel s).wrLen = s.wrLen := rfl
@[simp] theorem cancel_wrOff (s : State) : (cancel s).wrOff = s.wrOff := rfl
@[simp] theorem cancel_wrRes (s : State) : (cancel s).wrRes = s.wrRes := rfl
@[simp] theorem cancel_fConfig (s : State) : (cancel s).fConfig = s.fConfig := rfl
@[simp] theorem cancel_fInvalid (s : State) : (cancel s).fInvalid = s.fInvalid := rfl
@[simp] theorem cancel_fWrite (s : State) : (cancel s).fWrite = s.fWrite := rfl
@[simp] theorem cancel_fCode (s : State) : (cancel s).fCode = s.fCode := rfl
@[simp] theorem cancel_fInfo (s : State) : (cancel s).fInfo = s.fInfo := rfl
@[simp] theorem cancel_frame (s : State) : (cancel s).frame = s.frame := rfl
@[simp] theorem cancel_frameLen (s : State) : (cancel s).frameLen = s.frameLen := rfl
@[simp] theorem cancel_txBuf (s : State) : (cancel s).txBuf = s.txBuf := rfl
@[simp] theorem cancel_txLen (s : State) : (cancel s).txLen = s.txLen := rfl
@[simp] theorem cancel_stopBuf (s : State) : (cancel s).stopBuf = s.stopBuf := rfl
@[simp] theorem cancel_stopLen (s : State) : (cancel s).stopLen = s.stopLen := rfl
@[simp] theorem cancel_evq (s : State) : (cancel s).evq = s.evq := rfl
@[simp] theorem cancel_air (s : State) : (cancel s).air = s.air := rfl
@[simp] theorem cancel_radioLog (s : State) : (cancel s).radioLog = s.radioLog := rfl
@[simp] theorem cancel_radioAnswers (s : State) : (cancel s).radioAnswers = s.radioAnswers := rfl
@[simp] theorem cancel_radioHangAt (s : State) : (cancel s).radioHangAt = s.radioHangAt := rfl
@[simp] theorem cancel_turns (s : State) : (cancel s).turns = s.turns := rfl
@[simp] theorem cancel_draws (s : State) : (cancel s).draws = s.draws := rfl
@[simp] theorem cancel_classifyOut (s : State) : (cancel s).classifyOut = s.classifyOut := rfl

/-! ### arm -/

@[simp] theorem arm_sampleRate (d : Duration) (s : State) : (arm d s).sampleRate = s.sampleRate := rfl
@[simp] theorem arm_fCenter (d : Duration) (s : State) : (arm d s).fCenter = s.fCenter := rfl
@[simp] theorem arm_fRc (d : Duration) (s : State) : (arm d s).fRc = s.fRc := rfl
@[simp] theorem arm_gain (d : Duration) (s : State) : (arm d s).gain = s.gain := rfl
@[simp] theorem arm_tTick (d : Duration) (s : State) : (arm d s).tTick = s.tTick := rfl
@[simp] theorem arm_tInit (d : Duration) (s : State) : (arm d s).tInit = s.tInit := rfl
@[simp] theorem arm_n (d : Duration) (s : State) : (arm d s).n = s.n := rfl
@[simp] theorem arm_fOffset (d : Duration) (s : State) : (arm d s).fOffset = s.fOffset := rfl
@[simp] theorem arm_phase (d : Duration) (s : State) : (arm d s).phase = s.phase := rfl
@[simp] theorem arm_sch (d : Duration) (s : State) : (arm d s).sch = s.sch := rfl
@[simp] theorem arm_held (d : Duration) (s : State) : (arm d s).held = s.held := rfl
@[simp] theorem arm_curTok (d : Duration) (s : State) : (arm d s).curTok = s.curTok := rfl
@[simp] theorem arm_tmrArmed (d : Duration) (s : State) : (arm d s).tmrArmed = true := rfl
@[simp] theorem arm_tmrDelay (d : Duration) (s : State) : (arm d s).tmrDelay = d := rfl
@[simp] theorem arm_wr (d : Duration) (s : State) : (arm d s).wr = s.wr := rfl
@[simp] theorem arm_wrSrc (d : Duration) (s : State) : (arm d s).wrSrc = s.wrSrc := rfl
@[simp] theorem arm_wrLen (d : Duration) (s : State) : (arm d s).wrLen = s.wrLen := rfl
@[simp] theorem arm_wrOff (d : Duration) (s : State) : (arm d s).wrOff = s.wrOff := rfl
@[simp] theorem arm_wrRes (d : Duration) (s : State) : (arm d s).wrRes = s.wrRes := rfl
@[simp] theorem arm_fConfig (d : Duration) (s : State) : (arm d s).fConfig = s.fConfig := rfl
@[simp] theorem arm_fInvalid (d : Duration) (s : State) : (arm d s).fInvalid = s.fInvalid := rfl
@[simp] theorem arm_fWrite (d : Duration) (s : State) : (arm d s).fWrite = s.fWrite := rfl
@[simp] theorem arm_fCode (d : Duration) (s : State) : (arm d s).fCode = s.fCode := rfl
@[simp] theorem arm_fInfo (d : Duration) (s : State) : (arm d s).fInfo = s.fInfo := rfl
@[simp] theorem arm_frame (d : Duration) (s : State) : (arm d s).frame = s.frame := rfl
@[simp] theorem arm_frameLen (d : Duration) (s : State) : (arm d s).frameLen = s.frameLen := rfl
@[simp] theorem arm_txBuf (d : Duration) (s : State) : (arm d s).txBuf = s.txBuf := rfl
@[simp] theorem arm_txLen (d : Duration) (s : State) : (arm d s).txLen = s.txLen := rfl
@[simp] theorem arm_stopBuf (d : Duration) (s : State) : (arm d s).stopBuf = s.stopBuf := rfl
@[simp] theorem arm_stopLen (d : Duration) (s : State) : (arm d s).stopLen = s.stopLen := rfl
@[simp] theorem arm_evq (d : Duration) (s : State) : (arm d s).evq = s.evq := rfl
@[simp] theorem arm_air (d : Duration) (s : State) : (arm d s).air = s.air := rfl
@[simp] theorem arm_radioLog (d : Duration) (s : State) : (arm d s).radioLog = s.radioLog := rfl
@[simp] theorem arm_radioAnswers (d : Duration) (s : State) : (arm d s).radioAnswers = s.radioAnswers := rfl
@[simp] theorem arm_radioHangAt (d : Duration) (s : State) : (arm d s).radioHangAt = s.radioHangAt := rfl
@[simp] theorem arm_turns (d : Duration) (s : State) : (arm d s).turns = s.turns := rfl
@[simp] theorem arm_draws (d : Duration) (s : State) : (arm d s).draws = s.draws := rfl
@[simp] theorem arm_classifyOut (d : Duration) (s : State) : (arm d s).classifyOut = s.classifyOut := rfl

/-! ### storeFrame -/

@[simp] theorem storeFrame_sampleRate (f : List Level) (s : State) : (storeFrame f s).sampleRate = s.sampleRate := rfl
@[simp] theorem storeFrame_fCenter (f : List Level) (s : State) : (storeFrame f s).fCenter = s.fCenter := rfl
@[simp] theorem storeFrame_fRc (f : List Level) (s : State) : (storeFrame f s).fRc = s.fRc := rfl
@[simp] theorem storeFrame_gain (f : List Level) (s : State) : (storeFrame f s).gain = s.gain := rfl
@[simp] theorem storeFrame_tTick (f : List Level) (s : State) : (storeFrame f s).tTick = s.tTick := rfl
@[simp] theorem storeFrame_tInit (f : List Level) (s : State) : (storeFrame f s).tInit = s.tInit := rfl
@[simp] theorem storeFrame_n (f : List Level) (s : State) : (storeFrame f s).n = s.n := rfl
@[simp] theorem storeFrame_fOffset (f : List Level) (s : State) : (storeFrame f s).fOffset = s.fOffset := rfl
@[simp] theorem storeFrame_phase (f : List Level) (s : State) : (storeFrame f s).phase = s.phase := rfl
@[simp] theorem storeFrame_sch (f : List Level) (s : State) : (storeFrame f s).sch = s.sch := rfl
@[simp] theorem storeFrame_held (f : List Level) (s : State) : (storeFrame f s).held = s.held := rfl
@[simp] theorem storeFrame_curTok (f : List Level) (s : State) : (storeFrame f s).curTok = s.curTok := rfl
@[simp] theorem storeFrame_tmrArmed (f : List Level) (s : State) : (storeFrame f s).tmrArmed = s.tmrArmed := rfl
@[simp] theorem storeFrame_tmrDelay (f : List Level) (s : State) : (storeFrame f s).tmrDelay = s.tmrDelay := rfl
@[simp] theorem storeFrame_wr (f : List Level) (s : State) : (storeFrame f s).wr = s.wr := rfl
@[simp] theorem storeFrame_wrSrc (f : List Level) (s : State) : (storeFrame f s).wrSrc = s.wrSrc := rfl
@[simp] theorem storeFrame_wrLen (f : List Level) (s : State) : (storeFrame f s).wrLen = s.wrLen := rfl
@[simp] theorem storeFrame_wrOff (f : List Level) (s : State) : (storeFrame f s).wrOff = s.wrOff := rfl
@[simp] theorem storeFrame_wrRes (f : List Level) (s : State) : (storeFrame f s).wrRes = s.wrRes := rfl
@[simp] theorem storeFrame_fConfig (f : List Level) (s : State) : (storeFrame f s).fConfig = s.fConfig := rfl
@[simp] theorem storeFrame_fInvalid (f : List Level) (s : State) : (storeFrame f s).fInvalid = s.fInvalid := rfl
@[simp] theorem storeFrame_fWrite (f : List Level) (s : State) : (storeFrame f s).fWrite = s.fWrite := rfl
@[simp] theorem storeFrame_fCode (f : List Level) (s : State) : (storeFrame f s).fCode = s.fCode := rfl
@[simp] theorem storeFrame_fInfo (f : List Level) (s : State) : (storeFrame f s).fInfo = s.fInfo := rfl
@[simp] theorem storeFrame_frame (f : List Level) (s : State) : (storeFrame f s).frame = f := rfl
@[simp] theorem storeFrame_frameLen (f : List Level) (s : State) : (storeFrame f s).frameLen = lenWord f.length := rfl
@[simp] theorem storeFrame_txBuf (f : List Level) (s : State) : (storeFrame f s).txBuf = s.txBuf := rfl
@[simp] theorem storeFrame_txLen (f : List Level) (s : State) : (storeFrame f s).txLen = s.txLen := rfl
@[simp] theorem storeFrame_stopBuf (f : List Level) (s : State) : (storeFrame f s).stopBuf = s.stopBuf := rfl
@[simp] theorem storeFrame_stopLen (f : List Level) (s : State) : (storeFrame f s).stopLen = s.stopLen := rfl
@[simp] theorem storeFrame_evq (f : List Level) (s : State) : (storeFrame f s).evq = s.evq := rfl
@[simp] theorem storeFrame_air (f : List Level) (s : State) : (storeFrame f s).air = s.air := rfl
@[simp] theorem storeFrame_radioLog (f : List Level) (s : State) : (storeFrame f s).radioLog = s.radioLog := rfl
@[simp] theorem storeFrame_radioAnswers (f : List Level) (s : State) : (storeFrame f s).radioAnswers = s.radioAnswers := rfl
@[simp] theorem storeFrame_radioHangAt (f : List Level) (s : State) : (storeFrame f s).radioHangAt = s.radioHangAt := rfl
@[simp] theorem storeFrame_turns (f : List Level) (s : State) : (storeFrame f s).turns = s.turns := rfl
@[simp] theorem storeFrame_draws (f : List Level) (s : State) : (storeFrame f s).draws = s.draws := rfl
@[simp] theorem storeFrame_classifyOut (f : List Level) (s : State) : (storeFrame f s).classifyOut = s.classifyOut := rfl

/-! ### encodeFrame -/

@[simp] theorem encodeFrame_sampleRate (t : Token) (s : State) : (encodeFrame t s).sampleRate = s.sampleRate := rfl
@[simp] theorem encodeFrame_fCenter (t : Token) (s : State) : (encodeFrame t s).fCenter = s.fCenter := rfl
@[simp] theorem encodeFrame_fRc (t : Token) (s : State) : (encodeFrame t s).fRc = s.fRc := rfl
@[simp] theorem encodeFrame_gain (t : Token) (s : State) : (encodeFrame t s).gain = s.gain := rfl
@[simp] theorem encodeFrame_tTick (t : Token) (s : State) : (encodeFrame t s).tTick = s.tTick := rfl
@[simp] theorem encodeFrame_tInit (t : Token) (s : State) : (encodeFrame t s).tInit = s.tInit := rfl
@[simp] theorem encodeFrame_n (t : Token) (s : State) : (encodeFrame t s).n = s.n := rfl
@[simp] theorem encodeFrame_fOffset (t : Token) (s : State) : (encodeFrame t s).fOffset = s.fOffset := rfl
@[simp] theorem encodeFrame_phase (t : Token) (s : State) : (encodeFrame t s).phase = s.phase := rfl
@[simp] theorem encodeFrame_sch (t : Token) (s : State) : (encodeFrame t s).sch = s.sch := rfl
@[simp] theorem encodeFrame_held (t : Token) (s : State) : (encodeFrame t s).held = s.held := rfl
@[simp] theorem encodeFrame_curTok (t : Token) (s : State) : (encodeFrame t s).curTok = s.curTok := rfl
@[simp] theorem encodeFrame_tmrArmed (t : Token) (s : State) : (encodeFrame t s).tmrArmed = s.tmrArmed := rfl
@[simp] theorem encodeFrame_tmrDelay (t : Token) (s : State) : (encodeFrame t s).tmrDelay = s.tmrDelay := rfl
@[simp] theorem encodeFrame_wr (t : Token) (s : State) : (encodeFrame t s).wr = s.wr := rfl
@[simp] theorem encodeFrame_wrSrc (t : Token) (s : State) : (encodeFrame t s).wrSrc = s.wrSrc := rfl
@[simp] theorem encodeFrame_wrLen (t : Token) (s : State) : (encodeFrame t s).wrLen = s.wrLen := rfl
@[simp] theorem encodeFrame_wrOff (t : Token) (s : State) : (encodeFrame t s).wrOff = s.wrOff := rfl
@[simp] theorem encodeFrame_wrRes (t : Token) (s : State) : (encodeFrame t s).wrRes = s.wrRes := rfl
@[simp] theorem encodeFrame_fConfig (t : Token) (s : State) : (encodeFrame t s).fConfig = s.fConfig := rfl
@[simp] theorem encodeFrame_fInvalid (t : Token) (s : State) : (encodeFrame t s).fInvalid = s.fInvalid := rfl
@[simp] theorem encodeFrame_fWrite (t : Token) (s : State) : (encodeFrame t s).fWrite = s.fWrite := rfl
@[simp] theorem encodeFrame_fCode (t : Token) (s : State) : (encodeFrame t s).fCode = s.fCode := rfl
@[simp] theorem encodeFrame_fInfo (t : Token) (s : State) : (encodeFrame t s).fInfo = s.fInfo := rfl
@[simp] theorem encodeFrame_frame (t : Token) (s : State) : (encodeFrame t s).frame = encodeSeq s.n.toNat t := rfl
@[simp] theorem encodeFrame_frameLen (t : Token) (s : State) : (encodeFrame t s).frameLen = lenWord (encodeSeq s.n.toNat t).length := rfl
@[simp] theorem encodeFrame_txBuf (t : Token) (s : State) : (encodeFrame t s).txBuf = s.txBuf := rfl
@[simp] theorem encodeFrame_txLen (t : Token) (s : State) : (encodeFrame t s).txLen = s.txLen := rfl
@[simp] theorem encodeFrame_stopBuf (t : Token) (s : State) : (encodeFrame t s).stopBuf = s.stopBuf := rfl
@[simp] theorem encodeFrame_stopLen (t : Token) (s : State) : (encodeFrame t s).stopLen = s.stopLen := rfl
@[simp] theorem encodeFrame_evq (t : Token) (s : State) : (encodeFrame t s).evq = s.evq := rfl
@[simp] theorem encodeFrame_air (t : Token) (s : State) : (encodeFrame t s).air = s.air := rfl
@[simp] theorem encodeFrame_radioLog (t : Token) (s : State) : (encodeFrame t s).radioLog = s.radioLog := rfl
@[simp] theorem encodeFrame_radioAnswers (t : Token) (s : State) : (encodeFrame t s).radioAnswers = s.radioAnswers := rfl
@[simp] theorem encodeFrame_radioHangAt (t : Token) (s : State) : (encodeFrame t s).radioHangAt = s.radioHangAt := rfl
@[simp] theorem encodeFrame_turns (t : Token) (s : State) : (encodeFrame t s).turns = s.turns := rfl
@[simp] theorem encodeFrame_draws (t : Token) (s : State) : (encodeFrame t s).draws = s.draws := rfl
@[simp] theorem encodeFrame_classifyOut (t : Token) (s : State) : (encodeFrame t s).classifyOut = s.classifyOut := rfl

/-! ### tileFrame -/

@[simp] theorem tileFrame_sampleRate (s : State) : (tileFrame s).sampleRate = s.sampleRate := rfl
@[simp] theorem tileFrame_fCenter (s : State) : (tileFrame s).fCenter = s.fCenter := rfl
@[simp] theorem tileFrame_fRc (s : State) : (tileFrame s).fRc = s.fRc := rfl
@[simp] theorem tileFrame_gain (s : State) : (tileFrame s).gain = s.gain := rfl
@[simp] theorem tileFrame_tTick (s : State) : (tileFrame s).tTick = s.tTick := rfl
@[simp] theorem tileFrame_tInit (s : State) : (tileFrame s).tInit = s.tInit := rfl
@[simp] theorem tileFrame_n (s : State) : (tileFrame s).n = s.n := rfl
@[simp] theorem tileFrame_fOffset (s : State) : (tileFrame s).fOffset = s.fOffset := rfl
@[simp] theorem tileFrame_phase (s : State) : (tileFrame s).phase = s.phase := rfl
@[simp] theorem tileFrame_sch (s : State) : (tileFrame s).sch = s.sch := rfl
@[simp] theorem tileFrame_held (s : State) : (tileFrame s).held = s.held := rfl
@[simp] theorem tileFrame_curTok (s : State) : (tileFrame s).curTok = s.curTok := rfl
@[simp] theorem tileFrame_tmrArmed (s : State) : (tileFrame s).tmrArmed = s.tmrArmed := rfl
@[simp] theorem tileFrame_tmrDelay (s : State) : (tileFrame s).tmrDelay = s.tmrDelay := rfl
@[simp] theorem tileFrame_wr (s : State) : (tileFrame s).wr = s.wr := rfl
@[simp] theorem tileFrame_wrSrc (s : State) : (tileFrame s).wrSrc = s.wrSrc := rfl
@[simp] theorem tileFrame_wrLen (s : State) : (tileFrame s).wrLen = s.wrLen := rfl
@[simp] theorem tileFrame_wrOff (s : State) : (tileFrame s).wrOff = s.wrOff := rfl
@[simp] theorem tileFrame_wrRes (s : State) : (tileFrame s).wrRes = s.wrRes := rfl
@[simp] theorem tileFrame_fConfig (s : State) : (tileFrame s).fConfig = s.fConfig := rfl
@[simp] theorem tileFrame_fInvalid (s : State) : (tileFrame s).fInvalid = s.fInvalid := rfl
@[simp] theorem tileFrame_fWrite (s : State) : (tileFrame s).fWrite = s.fWrite := rfl
@[simp] theorem tileFrame_fCode (s : State) : (tileFrame s).fCode = s.fCode := rfl
@[simp] theorem tileFrame_fInfo (s : State) : (tileFrame s).fInfo = s.fInfo := rfl
@[simp] theorem tileFrame_frame (s : State) : (tileFrame s).frame = tileSeq s.frame tileFactor := rfl
@[simp] theorem tileFrame_frameLen (s : State) : (tileFrame s).frameLen = lenWord (tileSeq s.frame tileFactor).length := rfl
@[simp] theorem tileFrame_txBuf (s : State) : (tileFrame s).txBuf = s.txBuf := rfl
@[simp] theorem tileFrame_txLen (s : State) : (tileFrame s).txLen = s.txLen := rfl
@[simp] theorem tileFrame_stopBuf (s : State) : (tileFrame s).stopBuf = s.stopBuf := rfl
@[simp] theorem tileFrame_stopLen (s : State) : (tileFrame s).stopLen = s.stopLen := rfl
@[simp] theorem tileFrame_evq (s : State) : (tileFrame s).evq = s.evq := rfl
@[simp] theorem tileFrame_air (s : State) : (tileFrame s).air = s.air := rfl
@[simp] theorem tileFrame_radioLog (s : State) : (tileFrame s).radioLog = s.radioLog := rfl
@[simp] theorem tileFrame_radioAnswers (s : State) : (tileFrame s).radioAnswers = s.radioAnswers := rfl
@[simp] theorem tileFrame_radioHangAt (s : State) : (tileFrame s).radioHangAt = s.radioHangAt := rfl
@[simp] theorem tileFrame_turns (s : State) : (tileFrame s).turns = s.turns := rfl
@[simp] theorem tileFrame_draws (s : State) : (tileFrame s).draws = s.draws := rfl
@[simp] theorem tileFrame_classifyOut (s : State) : (tileFrame s).classifyOut = s.classifyOut := rfl

/-! ### modulateTx -/

@[simp] theorem modulateTx_sampleRate (s : State) : (modulateInto .tx s).sampleRate = s.sampleRate := rfl
@[simp] theorem modulateTx_fCenter (s : State) : (modulateInto .tx s).fCenter = s.fCenter := rfl
@[simp] theorem modulateTx_fRc (s : State) : (modulateInto .tx s).fRc = s.fRc := rfl
@[simp] theorem modulateTx_gain (s : State) : (modulateInto .tx s).gain = s.gain := rfl
@[simp] theorem modulateTx_tTick (s : State) : (modulateInto .tx s).tTick = s.tTick := rfl
@[simp] theorem modulateTx_tInit (s : State) : (modulateInto .tx s).tInit = s.tInit := rfl
@[simp] theorem modulateTx_n (s : State) : (modulateInto .tx s).n = s.n := rfl
@[simp] theorem modulateTx_fOffset (s : State) : (modulateInto .tx s).fOffset = s.fOffset := rfl
@[simp] theorem modulateTx_phase (s : State) : (modulateInto .tx s).phase = s.phase := rfl
@[simp] theorem modulateTx_sch (s : State) : (modulateInto .tx s).sch = s.sch := rfl
@[simp] theorem modulateTx_held (s : State) : (modulateInto .tx s).held = s.held := rfl
@[simp] theorem modulateTx_curTok (s : State) : (modulateInto .tx s).curTok = s.curTok := rfl
@[simp] theorem modulateTx_tmrArmed (s : State) : (modulateInto .tx s).tmrArmed = s.tmrArmed := rfl
@[simp] theorem modulateTx_tmrDelay (s : State) : (modulateInto .tx s).tmrDelay = s.tmrDelay := rfl
@[simp] theorem modulateTx_wr (s : State) : (modulateInto .tx s).wr = s.wr := rfl
@[simp] theorem modulateTx_wrSrc (s : State) : (modulateInto .tx s).wrSrc = s.wrSrc := rfl
@[simp] theorem modulateTx_wrLen (s : State) : (modulateInto .tx s).wrLen = s.wrLen := rfl
@[simp] theorem modulateTx_wrOff (s : State) : (modulateInto .tx s).wrOff = s.wrOff := rfl
@[simp] theorem modulateTx_wrRes (s : State) : (modulateInto .tx s).wrRes = s.wrRes := rfl
@[simp] theorem modulateTx_fConfig (s : State) : (modulateInto .tx s).fConfig = s.fConfig := rfl
@[simp] theorem modulateTx_fInvalid (s : State) : (modulateInto .tx s).fInvalid = s.fInvalid := rfl
@[simp] theorem modulateTx_fWrite (s : State) : (modulateInto .tx s).fWrite = s.fWrite := rfl
@[simp] theorem modulateTx_fCode (s : State) : (modulateInto .tx s).fCode = s.fCode := rfl
@[simp] theorem modulateTx_fInfo (s : State) : (modulateInto .tx s).fInfo = s.fInfo := rfl
@[simp] theorem modulateTx_frame (s : State) : (modulateInto .tx s).frame = s.frame := rfl
@[simp] theorem modulateTx_frameLen (s : State) : (modulateInto .tx s).frameLen = s.frameLen := rfl
@[simp] theorem modulateTx_txBuf (s : State) : (modulateInto .tx s).txBuf = modulateSeq s.fOffset.toInt s.sampleRate.toNat s.frame := rfl
@[simp] theorem modulateTx_txLen (s : State) : (modulateInto .tx s).txLen = s.frameLen := rfl
@[simp] theorem modulateTx_stopBuf (s : State) : (modulateInto .tx s).stopBuf = s.stopBuf := rfl
@[simp] theorem modulateTx_stopLen (s : State) : (modulateInto .tx s).stopLen = s.stopLen := rfl
@[simp] theorem modulateTx_evq (s : State) : (modulateInto .tx s).evq = s.evq := rfl
@[simp] theorem modulateTx_air (s : State) : (modulateInto .tx s).air = s.air := rfl
@[simp] theorem modulateTx_radioLog (s : State) : (modulateInto .tx s).radioLog = s.radioLog := rfl
@[simp] theorem modulateTx_radioAnswers (s : State) : (modulateInto .tx s).radioAnswers = s.radioAnswers := rfl
@[simp] theorem modulateTx_radioHangAt (s : State) : (modulateInto .tx s).radioHangAt = s.radioHangAt := rfl
@[simp] theorem modulateTx_turns (s : State) : (modulateInto .tx s).turns = s.turns := rfl
@[simp] theorem modulateTx_draws (s : State) : (modulateInto .tx s).draws = s.draws := rfl
@[simp] theorem modulateTx_classifyOut (s : State) : (modulateInto .tx s).classifyOut = s.classifyOut := rfl

/-! ### modulateStop -/

@[simp] theorem modulateStop_sampleRate (s : State) : (modulateInto .stop s).sampleRate = s.sampleRate := rfl
@[simp] theorem modulateStop_fCenter (s : State) : (modulateInto .stop s).fCenter = s.fCenter := rfl
@[simp] theorem modulateStop_fRc (s : State) : (modulateInto .stop s).fRc = s.fRc := rfl
@[simp] theorem modulateStop_gain (s : State) : (modulateInto .stop s).gain = s.gain := rfl
@[simp] theorem modulateStop_tTick (s : State) : (modulateInto .stop s).tTick = s.tTick := rfl
@[simp] theorem modulateStop_tInit (s : State) : (modulateInto .stop s).tInit = s.tInit := rfl
@[simp] theorem modulateStop_n (s : State) : (modulateInto .stop s).n = s.n := rfl
@[simp] theorem modulateStop_fOffset (s : State) : (modulateInto .stop s).fOffset = s.fOffset := rfl
@[simp] theorem modulateStop_phase (s : State) : (modulateInto .stop s).phase = s.phase := rfl
@[simp] theorem modulateStop_sch (s : State) : (modulateInto .stop s).sch = s.sch := rfl
@[simp] theorem modulateStop_held (s : State) : (modulateInto .stop s).held = s.held := rfl
@[simp] theorem modulateStop_curTok (s : State) : (modulateInto .stop s).curTok = s.curTok := rfl
@[simp] theorem modulateStop_tmrArmed (s : State) : (modulateInto .stop s).tmrArmed = s.tmrArmed := rfl
@[simp] theorem modulateStop_tmrDelay (s : State) : (modulateInto .stop s).tmrDelay = s.tmrDelay := rfl
@[simp] theorem modulateStop_wr (s : State) : (modulateInto .stop s).wr = s.wr := rfl
@[simp] theorem modulateStop_wrSrc (s : State) : (modulateInto .stop s).wrSrc = s.wrSrc := rfl
@[simp] theorem modulateStop_wrLen (s : State) : (modulateInto .stop s).wrLen = s.wrLen := rfl
@[simp] theorem modulateStop_wrOff (s : State) : (modulateInto .stop s).wrOff = s.wrOff := rfl
@[simp] theorem modulateStop_wrRes (s : State) : (modulateInto .stop s).wrRes = s.wrRes := rfl
@[simp] theorem modulateStop_fConfig (s : State) : (modulateInto .stop s).fConfig = s.fConfig := rfl
@[simp] theorem modulateStop_fInvalid (s : State) : (modulateInto .stop s).fInvalid = s.fInvalid := rfl
@[simp] theorem modulateStop_fWrite (s : State) : (modulateInto .stop s).fWrite = s.fWrite := rfl
@[simp] theorem modulateStop_fCode (s : State) : (modulateInto .stop s).fCode = s.fCode := rfl
@[simp] theorem modulateStop_fInfo (s : State) : (modulateInto .stop s).fInfo = s.fInfo := rfl
@[simp] theorem modulateStop_frame (s : State) : (modulateInto .stop s).frame = s.frame := rfl
@[simp] theorem modulateStop_frameLen (s : State) : (modulateInto .stop s).frameLen = s.frameLen := rfl
@[simp] theorem modulateStop_txBuf (s : State) : (modulateInto .stop s).txBuf = s.txBuf := rfl
@[simp] theorem modulateStop_txLen (s : State) : (modulateInto .stop s).txLen = s.txLen := rfl
@[simp] theorem modulateStop_stopBuf (s : State) : (modulateInto .stop s).stopBuf = modulateSeq s.fOffset.toInt s.sampleRate.toNat s.frame := rfl
@[simp] theorem modulateStop_stopLen (s : State) : (modulateInto .stop s).stopLen = s.frameLen := rfl
@[simp] theorem modulateStop_evq (s : State) : (modulateInto .stop s).evq = s.evq := rfl
@[simp] theorem modulateStop_air (s : State) : (modulateInto .stop s).air = s.air := rfl
@[simp] theorem modulateStop_radioLog (s : State) : (modulateInto .stop s).radioLog = s.radioLog := rfl
@[simp] theorem modulateStop_radioAnswers (s : State) : (modulateInto .stop s).radioAnswers = s.radioAnswers := rfl
@[simp] theorem modulateStop_radioHangAt (s : State) : (modulateInto .stop s).radioHangAt = s.radioHangAt := rfl
@[simp] theorem modulateStop_turns (s : State) : (modulateInto .stop s).turns = s.turns := rfl
@[simp] theorem modulateStop_draws (s : State) : (modulateInto .stop s).draws = s.draws := rfl
@[simp] theorem modulateStop_classifyOut (s : State) : (modulateInto .stop s).classifyOut = s.classifyOut := rfl

/-! ### beginWrite -/

@[simp] theorem beginWrite_sampleRate (src : BufSel) (s : State) : (beginWrite src s).sampleRate = s.sampleRate := rfl
@[simp] theorem beginWrite_fCenter (src : BufSel) (s : State) : (beginWrite src s).fCenter = s.fCenter := rfl
@[simp] theorem beginWrite_fRc (src : BufSel) (s : State) : (beginWrite src s).fRc = s.fRc := rfl
@[simp] theorem beginWrite_gain (src : BufSel) (s : State) : (beginWrite src s).gain = s.gain := rfl
@[simp] theorem beginWrite_tTick (src : BufSel) (s : State) : (beginWrite src s).tTick = s.tTick := rfl
@[simp] theorem beginWrite_tInit (src : BufSel) (s : State) : (beginWrite src s).tInit = s.tInit := rfl
@[simp] theorem beginWrite_n (src : BufSel) (s : State) : (beginWrite src s).n = s.n := rfl
@[simp] theorem beginWrite_fOffset (src : BufSel) (s : State) : (beginWrite src s).fOffset = s.fOffset := rfl
@[simp] theorem beginWrite_phase (src : BufSel) (s : State) : (beginWrite src s).phase = s.phase := rfl
@[simp] theorem beginWrite_sch (src : BufSel) (s : State) : (beginWrite src s).sch = s.sch := rfl
@[simp] theorem beginWrite_held (src : BufSel) (s : State) : (beginWrite src s).held = s.held := rfl
@[simp] theorem beginWrite_curTok (src : BufSel) (s : State) : (beginWrite src s).curTok = s.curTok := rfl
@[simp] theorem beginWrite_tmrArmed (src : BufSel) (s : State) : (beginWrite src s).tmrArmed = s.tmrArmed := rfl
@[simp] theorem beginWrite_tmrDelay (src : BufSel) (s : State) : (beginWrite src s).tmrDelay = s.tmrDelay := rfl
@[simp] theorem beginWrite_wr (src : BufSel) (s : State) : (beginWrite src s).wr = .busy := rfl
@[simp] theorem beginWrite_wrSrc (src : BufSel) (s : State) : (beginWrite src s).wrSrc = src := rfl
@[simp] theorem beginWrite_wrLen (src : BufSel) (s : State) : (beginWrite src s).wrLen = bufLen src s := rfl
@[simp] theorem beginWrite_wrOff (src : BufSel) (s : State) : (beginWrite src s).wrOff = 0 := rfl
@[simp] theorem beginWrite_wrRes (src : BufSel) (s : State) : (beginWrite src s).wrRes = s.wrRes := rfl
@[simp] theorem beginWrite_fConfig (src : BufSel) (s : State) : (beginWrite src s).fConfig = s.fConfig := rfl
@[simp] theorem beginWrite_fInvalid (src : BufSel) (s : State) : (beginWrite src s).fInvalid = s.fInvalid := rfl
@[simp] theorem beginWrite_fWrite (src : BufSel) (s : State) : (beginWrite src s).fWrite = s.fWrite := rfl
@[simp] theorem beginWrite_fCode (src : BufSel) (s : State) : (beginWrite src s).fCode = s.fCode := rfl
@[simp] theorem beginWrite_fInfo (src : BufSel) (s : State) : (beginWrite src s).fInfo = s.fInfo := rfl
@[simp] theorem beginWrite_frame (src : BufSel) (s : State) : (beginWrite src s).frame = s.frame := rfl
@[simp] theorem beginWrite_frameLen (src : BufSel) (s : State) : (beginWrite src s).frameLen = s.frameLen := rfl
@[simp] theorem beginWrite_txBuf (src : BufSel) (s : State) : (beginWrite src s).txBuf = s.txBuf := rfl
@[simp] theorem beginWrite_txLen (src : BufSel) (s : State) : (beginWrite src s).txLen = s.txLen := rfl
@[simp] theorem beginWrite_stopBuf (src : BufSel) (s : State) : (beginWrite src s).stopBuf = s.stopBuf := rfl
@[simp] theorem beginWrite_stopLen (src : BufSel) (s : State) : (beginWrite src s).stopLen = s.stopLen := rfl
@[simp] theorem beginWrite_evq (src : BufSel) (s : State) : (beginWrite src s).evq = s.evq := rfl
@[simp] theorem beginWrite_air (src : BufSel) (s : State) : (beginWrite src s).air = s.air := rfl
@[simp] theorem beginWrite_radioLog (src : BufSel) (s : State) : (beginWrite src s).radioLog = s.radioLog := rfl
@[simp] theorem beginWrite_radioAnswers (src : BufSel) (s : State) : (beginWrite src s).radioAnswers = s.radioAnswers := rfl
@[simp] theorem beginWrite_radioHangAt (src : BufSel) (s : State) : (beginWrite src s).radioHangAt = s.radioHangAt := rfl
@[simp] theorem beginWrite_turns (src : BufSel) (s : State) : (beginWrite src s).turns = s.turns := rfl
@[simp] theorem beginWrite_draws (src : BufSel) (s : State) : (beginWrite src s).draws = s.draws := rfl
@[simp] theorem beginWrite_classifyOut (src : BufSel) (s : State) : (beginWrite src s).classifyOut = s.classifyOut := rfl

/-! ### finishWrite -/

@[simp] theorem finishWrite_sampleRate (s : State) : (finishWrite s).sampleRate = s.sampleRate := rfl
@[simp] theorem finishWrite_fCenter (s : State) : (finishWrite s).fCenter = s.fCenter := rfl
@[simp] theorem finishWrite_fRc (s : State) : (finishWrite s).fRc = s.fRc := rfl
@[simp] theorem finishWrite_gain (s : State) : (finishWrite s).gain = s.gain := rfl
@[simp] theorem finishWrite_tTick (s : State) : (finishWrite s).tTick = s.tTick := rfl
@[simp] theorem finishWrite_tInit (s : State) : (finishWrite s).tInit = s.tInit := rfl
@[simp] theorem finishWrite_n (s : State) : (finishWrite s).n = s.n := rfl
@[simp] theorem finishWrite_fOffset (s : State) : (finishWrite s).fOffset = s.fOffset := rfl
@[simp] theorem finishWrite_phase (s : State) : (finishWrite s).phase = s.phase := rfl
@[simp] theorem finishWrite_sch (s : State) : (finishWrite s).sch = s.sch := rfl
@[simp] theorem finishWrite_held (s : State) : (finishWrite s).held = s.held := rfl
@[simp] theorem finishWrite_curTok (s : State) : (finishWrite s).curTok = s.curTok := rfl
@[simp] theorem finishWrite_tmrArmed (s : State) : (finishWrite s).tmrArmed = s.tmrArmed := rfl
@[simp] theorem finishWrite_tmrDelay (s : State) : (finishWrite s).tmrDelay = s.tmrDelay := rfl
@[simp] theorem finishWrite_wr (s : State) : (finishWrite s).wr = .idle := rfl
@[simp] theorem finishWrite_wrSrc (s : State) : (finishWrite s).wrSrc = s.wrSrc := rfl
@[simp] theorem finishWrite_wrLen (s : State) : (finishWrite s).wrLen = s.wrLen := rfl
@[simp] theorem finishWrite_wrOff (s : State) : (finishWrite s).wrOff = s.wrOff := rfl
@[simp] theorem finishWrite_wrRes (s : State) : (finishWrite s).wrRes = .ok := rfl
@[simp] theorem finishWrite_fConfig (s : State) : (finishWrite s).fConfig = s.fConfig := rfl
@[simp] theorem finishWrite_fInvalid (s : State) : (finishWrite s).fInvalid = s.fInvalid := rfl
@[simp] theorem finishWrite_fWrite (s : State) : (finishWrite s).fWrite = s.fWrite := rfl
@[simp] theorem finishWrite_fCode (s : State) : (finishWrite s).fCode = s.fCode := rfl
@[simp] theorem finishWrite_fInfo (s : State) : (finishWrite s).fInfo = s.fInfo := rfl
@[simp] theorem finishWrite_frame (s : State) : (finishWrite s).frame = s.frame := rfl
@[simp] theorem finishWrite_frameLen (s : State) : (finishWrite s).frameLen = s.frameLen := rfl
@[simp] theorem finishWrite_txBuf (s : State) : (finishWrite s).txBuf = s.txBuf := rfl
@[simp] theorem finishWrite_txLen (s : State) : (finishWrite s).txLen = s.txLen := rfl
@[simp] theorem finishWrite_stopBuf (s : State) : (finishWrite s).stopBuf = s.stopBuf := rfl
@[simp] theorem finishWrite_stopLen (s : State) : (finishWrite s).stopLen = s.stopLen := rfl
@[simp] theorem finishWrite_evq (s : State) : (finishWrite s).evq = s.evq := rfl
@[simp] theorem finishWrite_air (s : State) : (finishWrite s).air = s.air := rfl
@[simp] theorem finishWrite_radioLog (s : State) : (finishWrite s).radioLog = s.radioLog := rfl
@[simp] theorem finishWrite_radioAnswers (s : State) : (finishWrite s).radioAnswers = s.radioAnswers := rfl
@[simp] theorem finishWrite_radioHangAt (s : State) : (finishWrite s).radioHangAt = s.radioHangAt := rfl
@[simp] theorem finishWrite_turns (s : State) : (finishWrite s).turns = s.turns := rfl
@[simp] theorem finishWrite_draws (s : State) : (finishWrite s).draws = s.draws := rfl
@[simp] theorem finishWrite_classifyOut (s : State) : (finishWrite s).classifyOut = s.classifyOut := rfl

/-! ### acceptAnswer -/

@[simp] theorem acceptAnswer_sampleRate (r : BitVec 32) (s : State) : (acceptAnswer r s).sampleRate = s.sampleRate := rfl
@[simp] theorem acceptAnswer_fCenter (r : BitVec 32) (s : State) : (acceptAnswer r s).fCenter = s.fCenter := rfl
@[simp] theorem acceptAnswer_fRc (r : BitVec 32) (s : State) : (acceptAnswer r s).fRc = s.fRc := rfl
@[simp] theorem acceptAnswer_gain (r : BitVec 32) (s : State) : (acceptAnswer r s).gain = s.gain := rfl
@[simp] theorem acceptAnswer_tTick (r : BitVec 32) (s : State) : (acceptAnswer r s).tTick = s.tTick := rfl
@[simp] theorem acceptAnswer_tInit (r : BitVec 32) (s : State) : (acceptAnswer r s).tInit = s.tInit := rfl
@[simp] theorem acceptAnswer_n (r : BitVec 32) (s : State) : (acceptAnswer r s).n = s.n := rfl
@[simp] theorem acceptAnswer_fOffset (r : BitVec 32) (s : State) : (acceptAnswer r s).fOffset = s.fOffset := rfl
@[simp] theorem acceptAnswer_phase (r : BitVec 32) (s : State) : (acceptAnswer r s).phase = s.phase := rfl
@[simp] theorem acceptAnswer_sch (r : BitVec 32) (s : State) : (acceptAnswer r s).sch = s.sch := rfl
@[simp] theorem acceptAnswer_held (r : BitVec 32) (s : State) : (acceptAnswer r s).held = s.held := rfl
@[simp] theorem acceptAnswer_curTok (r : BitVec 32) (s : State) : (acceptAnswer r s).curTok = s.curTok := rfl
@[simp] theorem acceptAnswer_tmrArmed (r : BitVec 32) (s : State) : (acceptAnswer r s).tmrArmed = s.tmrArmed := rfl
@[simp] theorem acceptAnswer_tmrDelay (r : BitVec 32) (s : State) : (acceptAnswer r s).tmrDelay = s.tmrDelay := rfl
@[simp] theorem acceptAnswer_wr (r : BitVec 32) (s : State) : (acceptAnswer r s).wr = s.wr := rfl
@[simp] theorem acceptAnswer_wrSrc (r : BitVec 32) (s : State) : (acceptAnswer r s).wrSrc = s.wrSrc := rfl
@[simp] theorem acceptAnswer_wrLen (r : BitVec 32) (s : State) : (acceptAnswer r s).wrLen = s.wrLen := rfl
@[simp] theorem acceptAnswer_wrOff (r : BitVec 32) (s : State) : (acceptAnswer r s).wrOff = s.wrOff + r := rfl
@[simp] theorem acceptAnswer_wrRes (r : BitVec 32) (s : State) : (acceptAnswer r s).wrRes = s.wrRes := rfl
@[simp] theorem acceptAnswer_fConfig (r : BitVec 32) (s : State) : (acceptAnswer r s).fConfig = s.fConfig := rfl
@[simp] theorem acceptAnswer_fInvalid (r : BitVec 32) (s : State) : (acceptAnswer r s).fInvalid = s.fInvalid := rfl
@[simp] theorem acceptAnswer_fWrite (r : BitVec 32) (s : State) : (acceptAnswer r s).fWrite = s.fWrite := rfl
@[simp] theorem acceptAnswer_fCode (r : BitVec 32) (s : State) : (acceptAnswer r s).fCode = s.fCode := rfl
@[simp] theorem acceptAnswer_fInfo (r : BitVec 32) (s : State) : (acceptAnswer r s).fInfo = s.fInfo := rfl
@[simp] theorem acceptAnswer_frame (r : BitVec 32) (s : State) : (acceptAnswer r s).frame = s.frame := rfl
@[simp] theorem acceptAnswer_frameLen (r : BitVec 32) (s : State) : (acceptAnswer r s).frameLen = s.frameLen := rfl
@[simp] theorem acceptAnswer_txBuf (r : BitVec 32) (s : State) : (acceptAnswer r s).txBuf = s.txBuf := rfl
@[simp] theorem acceptAnswer_txLen (r : BitVec 32) (s : State) : (acceptAnswer r s).txLen = s.txLen := rfl
@[simp] theorem acceptAnswer_stopBuf (r : BitVec 32) (s : State) : (acceptAnswer r s).stopBuf = s.stopBuf := rfl
@[simp] theorem acceptAnswer_stopLen (r : BitVec 32) (s : State) : (acceptAnswer r s).stopLen = s.stopLen := rfl
@[simp] theorem acceptAnswer_evq (r : BitVec 32) (s : State) : (acceptAnswer r s).evq = s.evq := rfl
@[simp] theorem acceptAnswer_air (r : BitVec 32) (s : State) : (acceptAnswer r s).air = s.air ++ (offeredSlice s).take r.toNat := rfl
@[simp] theorem acceptAnswer_radioLog (r : BitVec 32) (s : State) : (acceptAnswer r s).radioLog = s.radioLog := rfl
@[simp] theorem acceptAnswer_radioAnswers (r : BitVec 32) (s : State) : (acceptAnswer r s).radioAnswers = s.radioAnswers := rfl
@[simp] theorem acceptAnswer_radioHangAt (r : BitVec 32) (s : State) : (acceptAnswer r s).radioHangAt = s.radioHangAt := rfl
@[simp] theorem acceptAnswer_turns (r : BitVec 32) (s : State) : (acceptAnswer r s).turns = s.turns := rfl
@[simp] theorem acceptAnswer_draws (r : BitVec 32) (s : State) : (acceptAnswer r s).draws = s.draws := rfl
@[simp] theorem acceptAnswer_classifyOut (r : BitVec 32) (s : State) : (acceptAnswer r s).classifyOut = s.classifyOut := rfl

/-! ### hostDeliver -/

@[simp] theorem hostDeliver_sampleRate (cw : Byte) (s : State) : (hostDeliver cw s).sampleRate = s.sampleRate := rfl
@[simp] theorem hostDeliver_fCenter (cw : Byte) (s : State) : (hostDeliver cw s).fCenter = s.fCenter := rfl
@[simp] theorem hostDeliver_fRc (cw : Byte) (s : State) : (hostDeliver cw s).fRc = s.fRc := rfl
@[simp] theorem hostDeliver_gain (cw : Byte) (s : State) : (hostDeliver cw s).gain = s.gain := rfl
@[simp] theorem hostDeliver_tTick (cw : Byte) (s : State) : (hostDeliver cw s).tTick = s.tTick := rfl
@[simp] theorem hostDeliver_tInit (cw : Byte) (s : State) : (hostDeliver cw s).tInit = s.tInit := rfl
@[simp] theorem hostDeliver_n (cw : Byte) (s : State) : (hostDeliver cw s).n = s.n := rfl
@[simp] theorem hostDeliver_fOffset (cw : Byte) (s : State) : (hostDeliver cw s).fOffset = s.fOffset := rfl
@[simp] theorem hostDeliver_phase (cw : Byte) (s : State) : (hostDeliver cw s).phase = s.phase := rfl
@[simp] theorem hostDeliver_sch (cw : Byte) (s : State) : (hostDeliver cw s).sch = s.sch := rfl
@[simp] theorem hostDeliver_held (cw : Byte) (s : State) : (hostDeliver cw s).held = s.held := rfl
@[simp] theorem hostDeliver_curTok (cw : Byte) (s : State) : (hostDeliver cw s).curTok = s.curTok := rfl
@[simp] theorem hostDeliver_tmrArmed (cw : Byte) (s : State) : (hostDeliver cw s).tmrArmed = s.tmrArmed := rfl
@[simp] theorem hostDeliver_tmrDelay (cw : Byte) (s : State) : (hostDeliver cw s).tmrDelay = s.tmrDelay := rfl
@[simp] theorem hostDeliver_wr (cw : Byte) (s : State) : (hostDeliver cw s).wr = s.wr := rfl
@[simp] theorem hostDeliver_wrSrc (cw : Byte) (s : State) : (hostDeliver cw s).wrSrc = s.wrSrc := rfl
@[simp] theorem hostDeliver_wrLen (cw : Byte) (s : State) : (hostDeliver cw s).wrLen = s.wrLen := rfl
@[simp] theorem hostDeliver_wrOff (cw : Byte) (s : State) : (hostDeliver cw s).wrOff = s.wrOff := rfl
@[simp] theorem hostDeliver_wrRes (cw : Byte) (s : State) : (hostDeliver cw s).wrRes = s.wrRes := rfl
@[simp] theorem hostDeliver_fConfig (cw : Byte) (s : State) : (hostDeliver cw s).fConfig = s.fConfig := rfl
@[simp] theorem hostDeliver_fInvalid (cw : Byte) (s : State) : (hostDeliver cw s).fInvalid = s.fInvalid := rfl
@[simp] theorem hostDeliver_fWrite (cw : Byte) (s : State) : (hostDeliver cw s).fWrite = s.fWrite := rfl
@[simp] theorem hostDeliver_fCode (cw : Byte) (s : State) : (hostDeliver cw s).fCode = s.fCode := rfl
@[simp] theorem hostDeliver_fInfo (cw : Byte) (s : State) : (hostDeliver cw s).fInfo = s.fInfo := rfl
@[simp] theorem hostDeliver_frame (cw : Byte) (s : State) : (hostDeliver cw s).frame = s.frame := rfl
@[simp] theorem hostDeliver_frameLen (cw : Byte) (s : State) : (hostDeliver cw s).frameLen = s.frameLen := rfl
@[simp] theorem hostDeliver_txBuf (cw : Byte) (s : State) : (hostDeliver cw s).txBuf = s.txBuf := rfl
@[simp] theorem hostDeliver_txLen (cw : Byte) (s : State) : (hostDeliver cw s).txLen = s.txLen := rfl
@[simp] theorem hostDeliver_stopBuf (cw : Byte) (s : State) : (hostDeliver cw s).stopBuf = s.stopBuf := rfl
@[simp] theorem hostDeliver_stopLen (cw : Byte) (s : State) : (hostDeliver cw s).stopLen = s.stopLen := rfl
@[simp] theorem hostDeliver_evq (cw : Byte) (s : State) : (hostDeliver cw s).evq = s.evq ++ [cw] := rfl
@[simp] theorem hostDeliver_air (cw : Byte) (s : State) : (hostDeliver cw s).air = s.air := rfl
@[simp] theorem hostDeliver_radioLog (cw : Byte) (s : State) : (hostDeliver cw s).radioLog = s.radioLog := rfl
@[simp] theorem hostDeliver_radioAnswers (cw : Byte) (s : State) : (hostDeliver cw s).radioAnswers = s.radioAnswers := rfl
@[simp] theorem hostDeliver_radioHangAt (cw : Byte) (s : State) : (hostDeliver cw s).radioHangAt = s.radioHangAt := rfl
@[simp] theorem hostDeliver_turns (cw : Byte) (s : State) : (hostDeliver cw s).turns = s.turns := rfl
@[simp] theorem hostDeliver_draws (cw : Byte) (s : State) : (hostDeliver cw s).draws = s.draws := rfl
@[simp] theorem hostDeliver_classifyOut (cw : Byte) (s : State) : (hostDeliver cw s).classifyOut = s.classifyOut := rfl

/-! ### deriveRegs -/

@[simp] theorem deriveRegs_sampleRate (s : State) : (deriveRegs s).sampleRate = s.sampleRate := rfl
@[simp] theorem deriveRegs_fCenter (s : State) : (deriveRegs s).fCenter = s.fCenter := rfl
@[simp] theorem deriveRegs_fRc (s : State) : (deriveRegs s).fRc = s.fRc := rfl
@[simp] theorem deriveRegs_gain (s : State) : (deriveRegs s).gain = s.gain := rfl
@[simp] theorem deriveRegs_tTick (s : State) : (deriveRegs s).tTick = s.tTick := rfl
@[simp] theorem deriveRegs_tInit (s : State) : (deriveRegs s).tInit = s.tInit := rfl
@[simp] theorem deriveRegs_n (s : State) : (deriveRegs s).n = s.sampleRate / BitVec.ofNat 32 clockHz := rfl
@[simp] theorem deriveRegs_fOffset (s : State) : (deriveRegs s).fOffset = s.fRc.zeroExtend 65 - s.fCenter.zeroExtend 65 := rfl
@[simp] theorem deriveRegs_phase (s : State) : (deriveRegs s).phase = s.phase := rfl
@[simp] theorem deriveRegs_sch (s : State) : (deriveRegs s).sch = s.sch := rfl
@[simp] theorem deriveRegs_held (s : State) : (deriveRegs s).held = s.held := rfl
@[simp] theorem deriveRegs_curTok (s : State) : (deriveRegs s).curTok = s.curTok := rfl
@[simp] theorem deriveRegs_tmrArmed (s : State) : (deriveRegs s).tmrArmed = s.tmrArmed := rfl
@[simp] theorem deriveRegs_tmrDelay (s : State) : (deriveRegs s).tmrDelay = s.tmrDelay := rfl
@[simp] theorem deriveRegs_wr (s : State) : (deriveRegs s).wr = s.wr := rfl
@[simp] theorem deriveRegs_wrSrc (s : State) : (deriveRegs s).wrSrc = s.wrSrc := rfl
@[simp] theorem deriveRegs_wrLen (s : State) : (deriveRegs s).wrLen = s.wrLen := rfl
@[simp] theorem deriveRegs_wrOff (s : State) : (deriveRegs s).wrOff = s.wrOff := rfl
@[simp] theorem deriveRegs_wrRes (s : State) : (deriveRegs s).wrRes = s.wrRes := rfl
@[simp] theorem deriveRegs_fConfig (s : State) : (deriveRegs s).fConfig = s.fConfig := rfl
@[simp] theorem deriveRegs_fInvalid (s : State) : (deriveRegs s).fInvalid = s.fInvalid := rfl
@[simp] theorem deriveRegs_fWrite (s : State) : (deriveRegs s).fWrite = s.fWrite := rfl
@[simp] theorem deriveRegs_fCode (s : State) : (deriveRegs s).fCode = s.fCode := rfl
@[simp] theorem deriveRegs_fInfo (s : State) : (deriveRegs s).fInfo = s.fInfo := rfl
@[simp] theorem deriveRegs_frame (s : State) : (deriveRegs s).frame = s.frame := rfl
@[simp] theorem deriveRegs_frameLen (s : State) : (deriveRegs s).frameLen = s.frameLen := rfl
@[simp] theorem deriveRegs_txBuf (s : State) : (deriveRegs s).txBuf = s.txBuf := rfl
@[simp] theorem deriveRegs_txLen (s : State) : (deriveRegs s).txLen = s.txLen := rfl
@[simp] theorem deriveRegs_stopBuf (s : State) : (deriveRegs s).stopBuf = s.stopBuf := rfl
@[simp] theorem deriveRegs_stopLen (s : State) : (deriveRegs s).stopLen = s.stopLen := rfl
@[simp] theorem deriveRegs_evq (s : State) : (deriveRegs s).evq = s.evq := rfl
@[simp] theorem deriveRegs_air (s : State) : (deriveRegs s).air = s.air := rfl
@[simp] theorem deriveRegs_radioLog (s : State) : (deriveRegs s).radioLog = s.radioLog := rfl
@[simp] theorem deriveRegs_radioAnswers (s : State) : (deriveRegs s).radioAnswers = s.radioAnswers := rfl
@[simp] theorem deriveRegs_radioHangAt (s : State) : (deriveRegs s).radioHangAt = s.radioHangAt := rfl
@[simp] theorem deriveRegs_turns (s : State) : (deriveRegs s).turns = s.turns := rfl
@[simp] theorem deriveRegs_draws (s : State) : (deriveRegs s).draws = s.draws := rfl
@[simp] theorem deriveRegs_classifyOut (s : State) : (deriveRegs s).classifyOut = s.classifyOut := rfl

/-! ### raise -/

@[simp] theorem raise_sampleRate (k : FaultKind) (i : BitVec 32) (s : State) : (raise k i s).sampleRate = s.sampleRate := rfl
@[simp] theorem raise_fCenter (k : FaultKind) (i : BitVec 32) (s : State) : (raise k i s).fCenter = s.fCenter := rfl
@[simp] theorem raise_fRc (k : FaultKind) (i : BitVec 32) (s : State) : (raise k i s).fRc = s.fRc := rfl
@[simp] theorem raise_gain (k : FaultKind) (i : BitVec 32) (s : State) : (raise k i s).gain = s.gain := rfl
@[simp] theorem raise_tTick (k : FaultKind) (i : BitVec 32) (s : State) : (raise k i s).tTick = s.tTick := rfl
@[simp] theorem raise_tInit (k : FaultKind) (i : BitVec 32) (s : State) : (raise k i s).tInit = s.tInit := rfl
@[simp] theorem raise_n (k : FaultKind) (i : BitVec 32) (s : State) : (raise k i s).n = s.n := rfl
@[simp] theorem raise_fOffset (k : FaultKind) (i : BitVec 32) (s : State) : (raise k i s).fOffset = s.fOffset := rfl
@[simp] theorem raise_phase (k : FaultKind) (i : BitVec 32) (s : State) : (raise k i s).phase = s.phase := rfl
@[simp] theorem raise_sch (k : FaultKind) (i : BitVec 32) (s : State) : (raise k i s).sch = s.sch := rfl
@[simp] theorem raise_held (k : FaultKind) (i : BitVec 32) (s : State) : (raise k i s).held = s.held := rfl
@[simp] theorem raise_curTok (k : FaultKind) (i : BitVec 32) (s : State) : (raise k i s).curTok = s.curTok := rfl
@[simp] theorem raise_tmrArmed (k : FaultKind) (i : BitVec 32) (s : State) : (raise k i s).tmrArmed = s.tmrArmed := rfl
@[simp] theorem raise_tmrDelay (k : FaultKind) (i : BitVec 32) (s : State) : (raise k i s).tmrDelay = s.tmrDelay := rfl
@[simp] theorem raise_wr (k : FaultKind) (i : BitVec 32) (s : State) : (raise k i s).wr = s.wr := rfl
@[simp] theorem raise_wrSrc (k : FaultKind) (i : BitVec 32) (s : State) : (raise k i s).wrSrc = s.wrSrc := rfl
@[simp] theorem raise_wrLen (k : FaultKind) (i : BitVec 32) (s : State) : (raise k i s).wrLen = s.wrLen := rfl
@[simp] theorem raise_wrOff (k : FaultKind) (i : BitVec 32) (s : State) : (raise k i s).wrOff = s.wrOff := rfl
@[simp] theorem raise_wrRes (k : FaultKind) (i : BitVec 32) (s : State) : (raise k i s).wrRes = s.wrRes := rfl
@[simp] theorem raise_fConfig (k : FaultKind) (i : BitVec 32) (s : State) : (raise k i s).fConfig = (k == .configurationError || s.fConfig) := rfl
@[simp] theorem raise_fInvalid (k : FaultKind) (i : BitVec 32) (s : State) : (raise k i s).fInvalid = (k == .invalidCommand || s.fInvalid) := rfl
@[simp] theorem raise_fWrite (k : FaultKind) (i : BitVec 32) (s : State) : (raise k i s).fWrite = (k == .streamWriteFailure || s.fWrite) := rfl
@[simp] theorem raise_fCode (k : FaultKind) (i : BitVec 32) (s : State) : (raise k i s).fCode = faultCode k := rfl
@[simp] theorem raise_fInfo (k : FaultKind) (i : BitVec 32) (s : State) : (raise k i s).fInfo = i := rfl
@[simp] theorem raise_frame (k : FaultKind) (i : BitVec 32) (s : State) : (raise k i s).frame = s.frame := rfl
@[simp] theorem raise_frameLen (k : FaultKind) (i : BitVec 32) (s : State) : (raise k i s).frameLen = s.frameLen := rfl
@[simp] theorem raise_txBuf (k : FaultKind) (i : BitVec 32) (s : State) : (raise k i s).txBuf = s.txBuf := rfl
@[simp] theorem raise_txLen (k : FaultKind) (i : BitVec 32) (s : State) : (raise k i s).txLen = s.txLen := rfl
@[simp] theorem raise_stopBuf (k : FaultKind) (i : BitVec 32) (s : State) : (raise k i s).stopBuf = s.stopBuf := rfl
@[simp] theorem raise_stopLen (k : FaultKind) (i : BitVec 32) (s : State) : (raise k i s).stopLen = s.stopLen := rfl
@[simp] theorem raise_evq (k : FaultKind) (i : BitVec 32) (s : State) : (raise k i s).evq = s.evq := rfl
@[simp] theorem raise_air (k : FaultKind) (i : BitVec 32) (s : State) : (raise k i s).air = s.air := rfl
@[simp] theorem raise_radioLog (k : FaultKind) (i : BitVec 32) (s : State) : (raise k i s).radioLog = s.radioLog := rfl
@[simp] theorem raise_radioAnswers (k : FaultKind) (i : BitVec 32) (s : State) : (raise k i s).radioAnswers = s.radioAnswers := rfl
@[simp] theorem raise_radioHangAt (k : FaultKind) (i : BitVec 32) (s : State) : (raise k i s).radioHangAt = s.radioHangAt := rfl
@[simp] theorem raise_turns (k : FaultKind) (i : BitVec 32) (s : State) : (raise k i s).turns = s.turns := rfl
@[simp] theorem raise_draws (k : FaultKind) (i : BitVec 32) (s : State) : (raise k i s).draws = s.draws := rfl
@[simp] theorem raise_classifyOut (k : FaultKind) (i : BitVec 32) (s : State) : (raise k i s).classifyOut = s.classifyOut := rfl

/-! ### failWrite -/

@[simp] theorem failWrite_sampleRate (r : BitVec 32) (s : State) : (failWrite r s).sampleRate = s.sampleRate := rfl
@[simp] theorem failWrite_fCenter (r : BitVec 32) (s : State) : (failWrite r s).fCenter = s.fCenter := rfl
@[simp] theorem failWrite_fRc (r : BitVec 32) (s : State) : (failWrite r s).fRc = s.fRc := rfl
@[simp] theorem failWrite_gain (r : BitVec 32) (s : State) : (failWrite r s).gain = s.gain := rfl
@[simp] theorem failWrite_tTick (r : BitVec 32) (s : State) : (failWrite r s).tTick = s.tTick := rfl
@[simp] theorem failWrite_tInit (r : BitVec 32) (s : State) : (failWrite r s).tInit = s.tInit := rfl
@[simp] theorem failWrite_n (r : BitVec 32) (s : State) : (failWrite r s).n = s.n := rfl
@[simp] theorem failWrite_fOffset (r : BitVec 32) (s : State) : (failWrite r s).fOffset = s.fOffset := rfl
@[simp] theorem failWrite_phase (r : BitVec 32) (s : State) : (failWrite r s).phase = s.phase := rfl
@[simp] theorem failWrite_sch (r : BitVec 32) (s : State) : (failWrite r s).sch = s.sch := rfl
@[simp] theorem failWrite_held (r : BitVec 32) (s : State) : (failWrite r s).held = s.held := rfl
@[simp] theorem failWrite_curTok (r : BitVec 32) (s : State) : (failWrite r s).curTok = s.curTok := rfl
@[simp] theorem failWrite_tmrArmed (r : BitVec 32) (s : State) : (failWrite r s).tmrArmed = s.tmrArmed := rfl
@[simp] theorem failWrite_tmrDelay (r : BitVec 32) (s : State) : (failWrite r s).tmrDelay = s.tmrDelay := rfl
@[simp] theorem failWrite_wr (r : BitVec 32) (s : State) : (failWrite r s).wr = .idle := rfl
@[simp] theorem failWrite_wrSrc (r : BitVec 32) (s : State) : (failWrite r s).wrSrc = s.wrSrc := rfl
@[simp] theorem failWrite_wrLen (r : BitVec 32) (s : State) : (failWrite r s).wrLen = s.wrLen := rfl
@[simp] theorem failWrite_wrOff (r : BitVec 32) (s : State) : (failWrite r s).wrOff = s.wrOff := rfl
@[simp] theorem failWrite_wrRes (r : BitVec 32) (s : State) : (failWrite r s).wrRes = .fail := rfl
@[simp] theorem failWrite_fConfig (r : BitVec 32) (s : State) : (failWrite r s).fConfig = s.fConfig := rfl
@[simp] theorem failWrite_fInvalid (r : BitVec 32) (s : State) : (failWrite r s).fInvalid = s.fInvalid := rfl
@[simp] theorem failWrite_fWrite (r : BitVec 32) (s : State) : (failWrite r s).fWrite = true := rfl
@[simp] theorem failWrite_fCode (r : BitVec 32) (s : State) : (failWrite r s).fCode = 3 := rfl
@[simp] theorem failWrite_fInfo (r : BitVec 32) (s : State) : (failWrite r s).fInfo = r := rfl
@[simp] theorem failWrite_frame (r : BitVec 32) (s : State) : (failWrite r s).frame = s.frame := rfl
@[simp] theorem failWrite_frameLen (r : BitVec 32) (s : State) : (failWrite r s).frameLen = s.frameLen := rfl
@[simp] theorem failWrite_txBuf (r : BitVec 32) (s : State) : (failWrite r s).txBuf = s.txBuf := rfl
@[simp] theorem failWrite_txLen (r : BitVec 32) (s : State) : (failWrite r s).txLen = s.txLen := rfl
@[simp] theorem failWrite_stopBuf (r : BitVec 32) (s : State) : (failWrite r s).stopBuf = s.stopBuf := rfl
@[simp] theorem failWrite_stopLen (r : BitVec 32) (s : State) : (failWrite r s).stopLen = s.stopLen := rfl
@[simp] theorem failWrite_evq (r : BitVec 32) (s : State) : (failWrite r s).evq = s.evq := rfl
@[simp] theorem failWrite_air (r : BitVec 32) (s : State) : (failWrite r s).air = s.air := rfl
@[simp] theorem failWrite_radioLog (r : BitVec 32) (s : State) : (failWrite r s).radioLog = s.radioLog := rfl
@[simp] theorem failWrite_radioAnswers (r : BitVec 32) (s : State) : (failWrite r s).radioAnswers = s.radioAnswers := rfl
@[simp] theorem failWrite_radioHangAt (r : BitVec 32) (s : State) : (failWrite r s).radioHangAt = s.radioHangAt := rfl
@[simp] theorem failWrite_turns (r : BitVec 32) (s : State) : (failWrite r s).turns = s.turns := rfl
@[simp] theorem failWrite_draws (r : BitVec 32) (s : State) : (failWrite r s).draws = s.draws := rfl
@[simp] theorem failWrite_classifyOut (r : BitVec 32) (s : State) : (failWrite r s).classifyOut = s.classifyOut := rfl

/-! ### takeAnswer, takeTurn, offer -/

@[simp] theorem takeAnswer_sampleRate (s : State) : (takeAnswer s).sampleRate = s.sampleRate := rfl
@[simp] theorem takeAnswer_fCenter (s : State) : (takeAnswer s).fCenter = s.fCenter := rfl
@[simp] theorem takeAnswer_fRc (s : State) : (takeAnswer s).fRc = s.fRc := rfl
@[simp] theorem takeAnswer_gain (s : State) : (takeAnswer s).gain = s.gain := rfl
@[simp] theorem takeAnswer_tTick (s : State) : (takeAnswer s).tTick = s.tTick := rfl
@[simp] theorem takeAnswer_tInit (s : State) : (takeAnswer s).tInit = s.tInit := rfl
@[simp] theorem takeAnswer_n (s : State) : (takeAnswer s).n = s.n := rfl
@[simp] theorem takeAnswer_fOffset (s : State) : (takeAnswer s).fOffset = s.fOffset := rfl
@[simp] theorem takeAnswer_phase (s : State) : (takeAnswer s).phase = s.phase := rfl
@[simp] theorem takeAnswer_sch (s : State) : (takeAnswer s).sch = s.sch := rfl
@[simp] theorem takeAnswer_held (s : State) : (takeAnswer s).held = s.held := rfl
@[simp] theorem takeAnswer_curTok (s : State) : (takeAnswer s).curTok = s.curTok := rfl
@[simp] theorem takeAnswer_tmrArmed (s : State) : (takeAnswer s).tmrArmed = s.tmrArmed := rfl
@[simp] theorem takeAnswer_tmrDelay (s : State) : (takeAnswer s).tmrDelay = s.tmrDelay := rfl
@[simp] theorem takeAnswer_wr (s : State) : (takeAnswer s).wr = s.wr := rfl
@[simp] theorem takeAnswer_wrSrc (s : State) : (takeAnswer s).wrSrc = s.wrSrc := rfl
@[simp] theorem takeAnswer_wrLen (s : State) : (takeAnswer s).wrLen = s.wrLen := rfl
@[simp] theorem takeAnswer_wrOff (s : State) : (takeAnswer s).wrOff = s.wrOff := rfl
@[simp] theorem takeAnswer_wrRes (s : State) : (takeAnswer s).wrRes = s.wrRes := rfl
@[simp] theorem takeAnswer_fConfig (s : State) : (takeAnswer s).fConfig = s.fConfig := rfl
@[simp] theorem takeAnswer_fInvalid (s : State) : (takeAnswer s).fInvalid = s.fInvalid := rfl
@[simp] theorem takeAnswer_fWrite (s : State) : (takeAnswer s).fWrite = s.fWrite := rfl
@[simp] theorem takeAnswer_fCode (s : State) : (takeAnswer s).fCode = s.fCode := rfl
@[simp] theorem takeAnswer_fInfo (s : State) : (takeAnswer s).fInfo = s.fInfo := rfl
@[simp] theorem takeAnswer_frame (s : State) : (takeAnswer s).frame = s.frame := rfl
@[simp] theorem takeAnswer_frameLen (s : State) : (takeAnswer s).frameLen = s.frameLen := rfl
@[simp] theorem takeAnswer_txBuf (s : State) : (takeAnswer s).txBuf = s.txBuf := rfl
@[simp] theorem takeAnswer_txLen (s : State) : (takeAnswer s).txLen = s.txLen := rfl
@[simp] theorem takeAnswer_stopBuf (s : State) : (takeAnswer s).stopBuf = s.stopBuf := rfl
@[simp] theorem takeAnswer_stopLen (s : State) : (takeAnswer s).stopLen = s.stopLen := rfl
@[simp] theorem takeAnswer_radioAnswers (s : State) : (takeAnswer s).radioAnswers = s.radioAnswers.tail := rfl
@[simp] theorem takeAnswer_draws (s : State) :
    (takeAnswer s).draws = if s.radioAnswers.isEmpty then s.draws + 1 else s.draws := rfl
@[simp] theorem takeAnswer_evq (s : State) : (takeAnswer s).evq = s.evq := rfl
@[simp] theorem takeAnswer_air (s : State) : (takeAnswer s).air = s.air := rfl
@[simp] theorem takeAnswer_radioLog (s : State) : (takeAnswer s).radioLog = s.radioLog := rfl
@[simp] theorem takeAnswer_radioHangAt (s : State) : (takeAnswer s).radioHangAt = s.radioHangAt := rfl
@[simp] theorem takeAnswer_turns (s : State) : (takeAnswer s).turns = s.turns := rfl
@[simp] theorem takeAnswer_classifyOut (s : State) : (takeAnswer s).classifyOut = s.classifyOut := rfl

@[simp] theorem takeTurn_sampleRate (s : State) : (takeTurn s).sampleRate = s.sampleRate := rfl
@[simp] theorem takeTurn_fCenter (s : State) : (takeTurn s).fCenter = s.fCenter := rfl
@[simp] theorem takeTurn_fRc (s : State) : (takeTurn s).fRc = s.fRc := rfl
@[simp] theorem takeTurn_gain (s : State) : (takeTurn s).gain = s.gain := rfl
@[simp] theorem takeTurn_tTick (s : State) : (takeTurn s).tTick = s.tTick := rfl
@[simp] theorem takeTurn_tInit (s : State) : (takeTurn s).tInit = s.tInit := rfl
@[simp] theorem takeTurn_n (s : State) : (takeTurn s).n = s.n := rfl
@[simp] theorem takeTurn_fOffset (s : State) : (takeTurn s).fOffset = s.fOffset := rfl
@[simp] theorem takeTurn_phase (s : State) : (takeTurn s).phase = s.phase := rfl
@[simp] theorem takeTurn_sch (s : State) : (takeTurn s).sch = s.sch := rfl
@[simp] theorem takeTurn_held (s : State) : (takeTurn s).held = s.held := rfl
@[simp] theorem takeTurn_curTok (s : State) : (takeTurn s).curTok = s.curTok := rfl
@[simp] theorem takeTurn_tmrArmed (s : State) : (takeTurn s).tmrArmed = s.tmrArmed := rfl
@[simp] theorem takeTurn_tmrDelay (s : State) : (takeTurn s).tmrDelay = s.tmrDelay := rfl
@[simp] theorem takeTurn_wr (s : State) : (takeTurn s).wr = s.wr := rfl
@[simp] theorem takeTurn_wrSrc (s : State) : (takeTurn s).wrSrc = s.wrSrc := rfl
@[simp] theorem takeTurn_wrLen (s : State) : (takeTurn s).wrLen = s.wrLen := rfl
@[simp] theorem takeTurn_wrOff (s : State) : (takeTurn s).wrOff = s.wrOff := rfl
@[simp] theorem takeTurn_wrRes (s : State) : (takeTurn s).wrRes = s.wrRes := rfl
@[simp] theorem takeTurn_fConfig (s : State) : (takeTurn s).fConfig = s.fConfig := rfl
@[simp] theorem takeTurn_fInvalid (s : State) : (takeTurn s).fInvalid = s.fInvalid := rfl
@[simp] theorem takeTurn_fWrite (s : State) : (takeTurn s).fWrite = s.fWrite := rfl
@[simp] theorem takeTurn_fCode (s : State) : (takeTurn s).fCode = s.fCode := rfl
@[simp] theorem takeTurn_fInfo (s : State) : (takeTurn s).fInfo = s.fInfo := rfl
@[simp] theorem takeTurn_frame (s : State) : (takeTurn s).frame = s.frame := rfl
@[simp] theorem takeTurn_frameLen (s : State) : (takeTurn s).frameLen = s.frameLen := rfl
@[simp] theorem takeTurn_txBuf (s : State) : (takeTurn s).txBuf = s.txBuf := rfl
@[simp] theorem takeTurn_txLen (s : State) : (takeTurn s).txLen = s.txLen := rfl
@[simp] theorem takeTurn_stopBuf (s : State) : (takeTurn s).stopBuf = s.stopBuf := rfl
@[simp] theorem takeTurn_stopLen (s : State) : (takeTurn s).stopLen = s.stopLen := rfl
@[simp] theorem takeTurn_turns (s : State) : (takeTurn s).turns = s.turns.tail := rfl
@[simp] theorem takeTurn_draws (s : State) :
    (takeTurn s).draws = if s.turns.isEmpty then s.draws + 1 else s.draws := rfl
@[simp] theorem takeTurn_evq (s : State) : (takeTurn s).evq = s.evq := rfl
@[simp] theorem takeTurn_air (s : State) : (takeTurn s).air = s.air := rfl
@[simp] theorem takeTurn_radioLog (s : State) : (takeTurn s).radioLog = s.radioLog := rfl
@[simp] theorem takeTurn_radioAnswers (s : State) : (takeTurn s).radioAnswers = s.radioAnswers := rfl
@[simp] theorem takeTurn_radioHangAt (s : State) : (takeTurn s).radioHangAt = s.radioHangAt := rfl
@[simp] theorem takeTurn_classifyOut (s : State) : (takeTurn s).classifyOut = s.classifyOut := rfl

@[simp] theorem offer_sampleRate (s : State) : (offer s).sampleRate = s.sampleRate := rfl
@[simp] theorem offer_fCenter (s : State) : (offer s).fCenter = s.fCenter := rfl
@[simp] theorem offer_fRc (s : State) : (offer s).fRc = s.fRc := rfl
@[simp] theorem offer_gain (s : State) : (offer s).gain = s.gain := rfl
@[simp] theorem offer_tTick (s : State) : (offer s).tTick = s.tTick := rfl
@[simp] theorem offer_tInit (s : State) : (offer s).tInit = s.tInit := rfl
@[simp] theorem offer_n (s : State) : (offer s).n = s.n := rfl
@[simp] theorem offer_fOffset (s : State) : (offer s).fOffset = s.fOffset := rfl
@[simp] theorem offer_phase (s : State) : (offer s).phase = s.phase := rfl
@[simp] theorem offer_sch (s : State) : (offer s).sch = s.sch := rfl
@[simp] theorem offer_held (s : State) : (offer s).held = s.held := rfl
@[simp] theorem offer_curTok (s : State) : (offer s).curTok = s.curTok := rfl
@[simp] theorem offer_tmrArmed (s : State) : (offer s).tmrArmed = s.tmrArmed := rfl
@[simp] theorem offer_tmrDelay (s : State) : (offer s).tmrDelay = s.tmrDelay := rfl
@[simp] theorem offer_wr (s : State) : (offer s).wr = s.wr := rfl
@[simp] theorem offer_wrSrc (s : State) : (offer s).wrSrc = s.wrSrc := rfl
@[simp] theorem offer_wrLen (s : State) : (offer s).wrLen = s.wrLen := rfl
@[simp] theorem offer_wrOff (s : State) : (offer s).wrOff = s.wrOff := rfl
@[simp] theorem offer_wrRes (s : State) : (offer s).wrRes = s.wrRes := rfl
@[simp] theorem offer_fConfig (s : State) : (offer s).fConfig = s.fConfig := rfl
@[simp] theorem offer_fInvalid (s : State) : (offer s).fInvalid = s.fInvalid := rfl
@[simp] theorem offer_fWrite (s : State) : (offer s).fWrite = s.fWrite := rfl
@[simp] theorem offer_fCode (s : State) : (offer s).fCode = s.fCode := rfl
@[simp] theorem offer_fInfo (s : State) : (offer s).fInfo = s.fInfo := rfl
@[simp] theorem offer_frame (s : State) : (offer s).frame = s.frame := rfl
@[simp] theorem offer_frameLen (s : State) : (offer s).frameLen = s.frameLen := rfl
@[simp] theorem offer_txBuf (s : State) : (offer s).txBuf = s.txBuf := rfl
@[simp] theorem offer_txLen (s : State) : (offer s).txLen = s.txLen := rfl
@[simp] theorem offer_stopBuf (s : State) : (offer s).stopBuf = s.stopBuf := rfl
@[simp] theorem offer_stopLen (s : State) : (offer s).stopLen = s.stopLen := rfl
@[simp] theorem offer_evq (s : State) : (offer s).evq = s.evq := rfl
@[simp] theorem offer_air (s : State) : (offer s).air = s.air := rfl
@[simp] theorem offer_radioLog (s : State) :
    (offer s).radioLog = s.radioLog ++ [.write (offeredSlice s) (lenWord (remaining s)) (nextAnswer s)] := rfl
@[simp] theorem offer_radioAnswers (s : State) : (offer s).radioAnswers = s.radioAnswers.tail := rfl
@[simp] theorem offer_radioHangAt (s : State) : (offer s).radioHangAt = s.radioHangAt := rfl
@[simp] theorem offer_turns (s : State) : (offer s).turns = s.turns := rfl
@[simp] theorem offer_draws (s : State) : (offer s).draws = if s.radioAnswers.isEmpty then s.draws + 1 else s.draws := rfl
@[simp] theorem offer_classifyOut (s : State) : (offer s).classifyOut = s.classifyOut := rfl

end Sys2Proof.Machine
end

