-- ==== Sys2Proof/Laws/Ops.lean ====
section
/-! SUPPORT. One lemma for each shared operation that says once everything it can do; proofs cite these
and do not unfold the operations. -/

namespace Sys2Proof.Machine

/-! ### Going on from an outcome -/

@[simp] theorem andThen_next (s : State) (f : State → Result) : andThen (.next s) f = f s := rfl

/-- `andThen` answers a next state exactly where both parts do. -/
theorem andThen_eq_next {o : Result} {f : State → Result} {t : State} :
    andThen o f = .next t ↔ ∃ s, o = .next s ∧ f s = .next t := by
  cases o <;> simp [andThen]

/-! ### Capacities -/

/-- The capacity of FRAME and TXBUF with the values of R6 (20_memory R55). -/
@[simp] theorem frameCapUnits_eq : frameCapUnits = 576 := rfl

/-- The capacity of STOPBUF with the values of R6 (20_memory R55). -/
@[simp] theorem stopCapUnits_eq : stopCapUnits = 360 := rfl

/-! ### Tokens and sequences -/

/-- Adding a directional token's letters to any held mask classifies to a directional token (R166 step 3). -/
theorem classifyMask_or_letters (t : Token) (ht : isDirectional t = true) (m : BitVec 4) :
    ∃ d, classifyMask (m ||| letters t) = some d ∧ isDirectional d = true := by
  revert m
  cases t <;> first | (exact absurd ht (by decide)) | decide

/-- A mask that classifies is not empty (R101). -/
theorem classifyMask_ne_zero {m : BitVec 4} {d : Token} (h : classifyMask m = some d) : m ≠ 0 := by
  rintro rfl
  exact absurd h (by cases d <;> decide)

@[simp] theorem tileSeq_length {α : Type} (s : List α) (m : Nat) : (tileSeq s m).length = m * s.length := by
  simp [tileSeq]

@[simp] theorem longBit_length (u : Nat) : (longBit u).length = 4 * u := by
  simp [longBit, longHigh, longLow]; omega

@[simp] theorem shortBit_length (u : Nat) : (shortBit u).length = 2 * u := by
  simp [shortBit, shortHigh, shortLow]; omega

@[simp] theorem dirFrame_length (u c : Nat) : (dirFrame u c).length = 16 * u + c * (2 * u) := by
  simp [dirFrame, preLong]; omega

@[simp] theorem stopFrame_length (u : Nat) : (stopFrame u).length = 360 * u := by
  simp [stopFrame, stopReps, stopLong, stopShort]; omega

@[simp] theorem idleFrame_length (u : Nat) : (idleFrame u).length = 10 * u := by
  simp [idleFrame, idleLen, idleUnits]

/-- No frame is longer than STOP's (R55). -/
theorem encodeSeq_length_le (u : Nat) (t : Token) : (encodeSeq u t).length ≤ 360 * u := by
  cases t <;> simp [encodeSeq, tokenCount] <;> omega

/-- A length register holds a length below `2^32`. -/
theorem lenWord_toNat {k : Nat} (h : k < 2 ^ 32) : (lenWord k).toNat = k := by
  simp only [lenWord, BitVec.toNat_ofNat]
  exact Nat.mod_eq_of_lt h

/-! ### Building a buffer -/

/-- `build_tx` for a directional token: the tiled frame, modulated, into TXBUF (R164). -/
theorem buildTx_directional (t : Token) (ht : isDirectional t = true) (s : State) :
    buildTx t s = modulateInto .tx (tileFrame (encodeFrame t s)) := by
  simp [buildTx, ht]

/-- `build_tx(IDLE)`: the plain frame, modulated, into TXBUF (R164, R142). -/
theorem buildTx_idle (s : State) : buildTx .idle s = modulateInto .tx (encodeFrame .idle s) := rfl

/-- ENCODE of a token by its own code (R71, R117). -/
theorem encodeCode_code (t : Token) (s : State) : encodeCode t.code s = encodeFrame t s := by
  cases t <;> rfl

/-! ### The radio port -/

/-- A transaction without a result: recorded where it returns, else the core is stuck. -/
theorem radioCall_eq_next {tx : RadioTx} {s t : State} :
    radioCall tx s = .next t ↔ radioReturns s = true ∧ t = { s with radioLog := s.radioLog ++ [tx] } := by
  unfold radioCall
  split_ifs with h <;> simp [h, eq_comm]

/-- Where every transaction returns, so does the next. -/
theorem radioReturns_alive {s : State} (h : s.radioHangAt = none) : radioReturns s = true := by
  simp [radioReturns, h]

/-- START step 4: three transactions, in order (R162). -/
theorem openRadio_alive {s : State} (h : s.radioHangAt = none) :
    openRadio s = .next { s with
      radioLog := s.radioLog ++ [.configure s.sampleRate s.fCenter s.gain, .openTransmitStream, .activateStream] } := by
  simp [openRadio, radioCall, radioReturns, h]

/-- START step 4 changes the radio port's record alone. -/
theorem openRadio_next {s t : State} (h : openRadio s = .next t) :
    t = { s with
      radioLog := s.radioLog ++ [.configure s.sampleRate s.fCenter s.gain, .openTransmitStream, .activateStream] } := by
  obtain ⟨s1, h1, h⟩ := andThen_eq_next.mp h
  obtain ⟨s2, h2, h⟩ := andThen_eq_next.mp h
  obtain ⟨-, rfl⟩ := radioCall_eq_next.mp h1
  obtain ⟨-, rfl⟩ := radioCall_eq_next.mp h2
  obtain ⟨-, rfl⟩ := radioCall_eq_next.mp h
  simp

/-! ### WRITE -/

/-- What the writer may change: its own registers, the air, the radio port, and, on failure, the fault
record (R200). -/
def WroteOnly (s t : State) : Prop :=
  t = { s with
    wr := t.wr, wrSrc := t.wrSrc, wrLen := t.wrLen, wrOff := t.wrOff, wrRes := t.wrRes, air := t.air
    radioLog := t.radioLog, radioAnswers := t.radioAnswers, draws := t.draws
    fWrite := t.fWrite, fCode := t.fCode, fInfo := t.fInfo }

/-- How a WRITE ended: OK with the fault record untouched, or FAIL with StreamWriteFailure recorded. -/
def WroteResult (s t : State) : Prop :=
  (t.wrRes = .ok ∧ t.fWrite = s.fWrite ∧ t.fCode = s.fCode ∧ t.fInfo = s.fInfo) ∨
    (t.wrRes = .fail ∧ t.fWrite = true ∧ t.fCode = 3)

/-- An iteration that goes on changes what the writer may change, and no fault record. -/
theorem accept_wroteOnly (r : BitVec 32) (s t : State) (h : WroteOnly (acceptAnswer r (offer s)) t) :
    WroteOnly s t := by
  unfold WroteOnly at *
  exact h.trans rfl

/-- The loop: where it ends, the writer is idle, and what it may change is all it changed. -/
theorem writeLoop_next {fuel : Nat} {s t : State} (h : writeLoop fuel s = .next t) :
    WroteOnly s t ∧ WroteResult s t ∧ t.wr = .idle := by
  induction fuel generalizing s with
  | zero =>
    obtain rfl : finishWrite s = t := by simpa [writeLoop] using h
    exact ⟨rfl, .inl ⟨rfl, rfl, rfl, rfl⟩, rfl⟩
  | succ fuel ih =>
    unfold writeLoop at h
    split_ifs at h with h1 h2 h3
    · obtain ⟨hw, hr, hi⟩ := ih h
      refine ⟨accept_wroteOnly _ _ _ hw, ?_, hi⟩
      simpa [WroteResult] using hr
    · obtain rfl : failWrite (nextAnswer s) (offer s) = t := by simpa using h
      exact ⟨rfl, .inr ⟨rfl, rfl, rfl⟩, rfl⟩
    · obtain rfl : finishWrite s = t := by simpa using h
      exact ⟨rfl, .inl ⟨rfl, rfl, rfl, rfl⟩, rfl⟩

/-- WRITE, whole: what it may change is all it changed, and the writer is idle again (R200, R201). -/
theorem writeOp_next {src : BufSel} {s t : State} (h : writeOp src s = .next t) :
    s.wr = .idle ∧ WroteOnly s t ∧ WroteResult s t ∧ t.wr = .idle := by
  unfold writeOp at h
  split at h
  · cases h
  · next hw =>
    obtain ⟨h1, h2, h3⟩ := writeLoop_next h
    exact ⟨hw, h1, by simpa [WroteResult] using h2, h3⟩

/-- Where the radio answers every call, the loop ends in a next state (R209). -/
theorem writeLoop_alive (fuel : Nat) {s : State} (h : s.radioHangAt = none) :
    ∃ t, writeLoop fuel s = .next t := by
  induction fuel generalizing s with
  | zero => exact ⟨_, rfl⟩
  | succ fuel ih =>
    unfold writeLoop
    rw [radioReturns_alive h]
    simp only [if_true]
    split_ifs
    · exact ih (by simpa using h)
    · exact ⟨_, rfl⟩
    · exact ⟨_, rfl⟩

/-! ### Events -/

/-- The next event: none, a TICK, or the oldest command (R233 to R236). -/
theorem nextEvent_cases (s : State) :
    (s.evq = [] ∧ tickEnabled s = false ∧ nextEvent s = (.none, s)) ∨
      (tickEnabled s = true ∧ (nextEvent s = (.tick, s) ∨ nextEvent s = (.tick, takeTurn s))) ∨
      (∃ cw rest, s.evq = cw :: rest ∧
        (nextEvent s = (.command cw, { s with evq := rest }) ∨
          nextEvent s = (.command cw, { takeTurn s with evq := rest }))) := by
  unfold nextEvent
  rcases he : s.evq with _ | ⟨cw, rest⟩
  · cases ht : tickEnabled s <;> simp
  · cases ht : tickEnabled s
    · right; right; exact ⟨cw, rest, rfl, .inl (by simp)⟩
    · cases hf : tickGoesFirst s
      · right; right; exact ⟨cw, rest, rfl, .inr (by simp)⟩
      · right; left; exact ⟨rfl, .inr (by simp)⟩

/-- The decoder gives command words only to instructions the host may send (R75, R77). -/
theorem decodeWord_wellFormed {cw : Byte} {i : Instr} (h : decodeWord cw = .ok i) : i.wellFormed = true := by
  unfold decodeWord decodePlain decodeTok at h
  split at h
  · split_ifs at h; cases h; rfl
  · cases ht : Token.ofCode (cwTok cw) with
    | none => rw [ht] at h; cases h
    | some t => rw [ht] at h; cases t <;> cases h <;> rfl
  · cases ht : Token.ofCode (cwTok cw) with
    | none => rw [ht] at h; cases h
    | some t => rw [ht] at h; cases t <;> cases h <;> rfl
  · split_ifs at h; cases h; rfl
  · cases h

end Sys2Proof.Machine
end

