-- ==== Sys2Proof/Laws/Handlers.lean ====
section
/-! SUPPORT. What each handler can do, said once: where it answers a next state, which one. Proofs about
instructions and steps cite these and unfold no handler. -/

namespace Sys2Proof.Machine

/-- PRESS steps 1 to 6 as one update: the classified token `d`, its tiled and modulated frame, the armed job
(R166). -/
theorem pressHandler_spec (t : Token) (ht : isDirectional t = true) (s : State) :
    ∃ d, classifyMask (s.held ||| letters t) = some d ∧ isDirectional d = true ∧
      pressHandler t s = { s with
        held := s.held ||| letters t, curTok := d
        frame := tileSeq (encodeSeq s.n.toNat d) tileFactor
        frameLen := lenWord (tileSeq (encodeSeq s.n.toNat d) tileFactor).length
        txBuf := modulateSeq s.fOffset.toInt s.sampleRate.toNat (tileSeq (encodeSeq s.n.toNat d) tileFactor)
        txLen := lenWord (tileSeq (encodeSeq s.n.toNat d) tileFactor).length
        sch := .moving, tmrArmed := true, tmrDelay := s.tInit } := by
  obtain ⟨d, hd, hdd⟩ := classifyMask_or_letters t ht s.held
  refine ⟨d, hd, hdd, ?_⟩
  simp only [pressHandler, hd, Option.getD_some, buildTx_directional d hdd]
  rfl

/-- PRESS: dropped outside a session, else its handler (R161, R166). -/
theorem press_next (t : Token) (s : State) :
    press t s = .next (match s.phase with | .off => s | .on => pressHandler t s) := by
  unfold press inSession
  cases s.phase <;> rfl

/-- RELEASE steps 4 to 6 as one update (R170, R229). -/
theorem releaseEnd_spec (u : State) :
    releaseEnd u = { u with
      held := 0, curTok := .idle, sch := .idle
      frame := idleFrame u.n.toNat, frameLen := lenWord (idleFrame u.n.toNat).length
      txBuf := modulateSeq u.fOffset.toInt u.sampleRate.toNat (idleFrame u.n.toNat)
      txLen := lenWord (idleFrame u.n.toNat).length
      tmrArmed := match u.wrRes with | .ok => true | .fail => u.tmrArmed
      tmrDelay := match u.wrRes with | .ok => u.tInit | .fail => u.tmrDelay } := by
  unfold releaseEnd
  cases u.wrRes <;> rfl

/-- RELEASE: dropped outside a session, without effect outside MOVING, else the STOP write and steps 4 to 6
(R161, R170, R171). -/
theorem release_next {t : Token} {s t' : State} (h : release t s = .next t') :
    (s.phase = .off ∧ t' = s) ∨ (s.phase = .on ∧ s.sch ≠ .moving ∧ t' = s) ∨
      (s.phase = .on ∧ s.sch = .moving ∧
        ∃ u, writeOp .stop { cancel s with sch := .stopping } = .next u ∧ t' = releaseEnd u) := by
  unfold release inSession at h
  rcases hp : s.phase with _ | _ <;> rw [hp] at h <;> simp only at h
  · exact .inl ⟨rfl, (Host.Outcome.next.inj h).symm⟩
  · unfold releaseHandler at h
    rcases hs : s.sch with _ | _ | _ <;> rw [hs] at h <;> simp only at h
    · exact .inr (.inl ⟨rfl, by simp, (Host.Outcome.next.inj h).symm⟩)
    · obtain ⟨u, h1, h2⟩ := andThen_eq_next.mp h
      exact .inr (.inr ⟨rfl, rfl, u, h1, (Host.Outcome.next.inj h2).symm⟩)
    · exact .inr (.inl ⟨rfl, by simp, (Host.Outcome.next.inj h).symm⟩)

/-- TICK step 3 as one update (R174). -/
theorem tickEnd_spec (u : State) :
    tickEnd u = { u with
      tmrArmed := match u.wrRes with | .ok => true | .fail => u.tmrArmed
      tmrDelay := match u.wrRes with | .ok => u.tTick | .fail => u.tmrDelay } := by
  unfold tickEnd
  rcases u with ⟨⟩
  rename_i r _ _ _ _ _ _ _ _ _ _ _ _ _ _ _ _ _ _ _
  cases r <;> rfl

/-- TICK: enabled, the write of the current buffer, and step 3 (R174). -/
theorem execTick_next {s t : State} (h : execTick s = .next t) :
    tickEnabled s = true ∧ ∃ u, writeOp .tx (cancel s) = .next u ∧ t = tickEnd u := by
  unfold execTick at h
  by_cases he : tickEnabled s = true
  case neg => rw [if_neg he] at h; cases h
  rw [if_pos he] at h
  obtain ⟨u, h1, h2⟩ := andThen_eq_next.mp h
  exact ⟨he, u, h1, (Host.Outcome.next.inj h2).symm⟩

/-- START steps 5 to 9 as one update (R162). -/
theorem beginSession_spec (s : State) :
    beginSession s = { s with
      stopBuf := modulateSeq s.fOffset.toInt s.sampleRate.toNat (stopFrame s.n.toNat)
      stopLen := lenWord (stopFrame s.n.toNat).length
      held := 0, curTok := .idle
      frame := idleFrame s.n.toNat, frameLen := lenWord (idleFrame s.n.toNat).length
      txBuf := modulateSeq s.fOffset.toInt s.sampleRate.toNat (idleFrame s.n.toNat)
      txLen := lenWord (idleFrame s.n.toNat).length
      sch := .idle, wr := .idle, wrRes := .ok, phase := .on, air := [], tmrArmed := true, tmrDelay := s.tInit } := by
  simp only [beginSession, buildTx_idle, arm, modulateInto, storeBuf, encodeFrame, storeFrame, encodeSeq]

/-- START: dropped in a session; else ConfigurationError, or the whole start (R161, R162). -/
theorem execStart_next {s t : State} (h : execStart s = .next t) :
    (s.phase = .on ∧ t = s) ∨
      (s.phase = .off ∧ rateValid s.sampleRate.toNat clockHz = false ∧
        t = raise .configurationError (s.sampleRate % BitVec.ofNat 32 clockHz) (clearFaults s)) ∨
      (s.phase = .off ∧ rateValid s.sampleRate.toNat clockHz = true ∧
        t = beginSession { deriveRegs (clearFaults s) with
          radioLog := s.radioLog ++
            [.configure s.sampleRate s.fCenter s.gain, .openTransmitStream, .activateStream] }) := by
  unfold execStart at h
  rcases hp : s.phase with _ | _ <;> rw [hp] at h <;> simp only at h
  · unfold startHandler at h
    by_cases hr : rateValid s.sampleRate.toNat clockHz = true
    · rw [if_pos hr] at h
      obtain ⟨u, h1, h2⟩ := andThen_eq_next.mp h
      have hu := openRadio_next h1
      exact .inr (.inr ⟨rfl, hr, by rw [← Host.Outcome.next.inj h2, hu]; rfl⟩)
    · rw [if_neg hr] at h
      exact .inr (.inl ⟨rfl, by simpa using hr, (Host.Outcome.next.inj h).symm⟩)
  · exact .inl ⟨rfl, (Host.Outcome.next.inj h).symm⟩

/-- END: dropped outside a session, else the stream closed and the registers forgotten (R161, R178). -/
theorem execEnd_next {s t : State} (h : execEnd s = .next t) :
    (s.phase = .off ∧ t = s) ∨
      (s.phase = .on ∧ t = forget { cancel s with
        radioLog := s.radioLog ++ [.deactivateStream] ++ [.closeStream], phase := .off }) := by
  unfold execEnd inSession at h
  rcases hp : s.phase with _ | _ <;> rw [hp] at h <;> simp only at h
  · exact .inl ⟨rfl, (Host.Outcome.next.inj h).symm⟩
  · obtain ⟨u, h1, h2⟩ := andThen_eq_next.mp h
    obtain ⟨v, h3, h4⟩ := andThen_eq_next.mp h2
    obtain ⟨-, rfl⟩ := radioCall_eq_next.mp h1
    obtain ⟨-, rfl⟩ := radioCall_eq_next.mp h3
    exact .inr ⟨rfl, (Host.Outcome.next.inj h4).symm⟩

/-- What an instruction can do where it answers a next state, by the kind of handler. -/
inductive ExecNext (i : Instr) (s t : State) : Prop where
  /-- A word dropped by dispatch, or a RELEASE outside MOVING. -/
  | unchanged (hi : i.wellFormed = true) (h : t = s)
  | configError (hi : i = .start) (hp : s.phase = .off) (hr : rateValid s.sampleRate.toNat clockHz = false)
      (h : t = raise .configurationError (s.sampleRate % BitVec.ofNat 32 clockHz) (clearFaults s))
  | started (hi : i = .start) (hp : s.phase = .off) (hr : rateValid s.sampleRate.toNat clockHz = true)
      (h : t = beginSession { deriveRegs (clearFaults s) with
        radioLog := s.radioLog ++
          [.configure s.sampleRate s.fCenter s.gain, .openTransmitStream, .activateStream] })
  | pressed (p : Token) (hi : pressOf p = some i) (hp : s.phase = .on) (ht : isDirectional p = true)
      (h : t = pressHandler p s)
  | released (p : Token) (hi : releaseOf p = some i) (hp : s.phase = .on) (hs : s.sch = .moving) (u : State)
      (hw : writeOp .stop { cancel s with sch := .stopping } = .next u) (h : t = releaseEnd u)
  | ended (hi : i = .endSession) (hp : s.phase = .on)
      (h : t = forget { cancel s with
        radioLog := s.radioLog ++ [.deactivateStream] ++ [.closeStream], phase := .off })
  | ticked (hi : i = .tick) (he : tickEnabled s = true) (u : State)
      (hw : writeOp .tx (cancel s) = .next u) (h : t = tickEnd u)
  | classified (x : ClassifyInput) (hi : i = .classify x) (c : Option Token)
      (h : t = { s with classifyOut := c } ∨ t = raise .invalidCommand 0 { s with classifyOut := none })
  | encoded (d : Token) (hi : i.wellFormed = false)
      (hb : i ≠ .tick ∧ (∀ x, i ≠ .classify x) ∧ i ≠ .tile ∧ (∀ b, i ≠ .modulate b) ∧ (∀ b, i ≠ .write b))
      (h : t = encodeFrame d s)
  | tiled (hi : i = .tile) (h : t = tileFrame s)
  | mixed (b : BufSel) (hi : i = .modulate b) (h : t = modulateInto b s)
  | wrote (b : BufSel) (hi : i = .write b) (hw : writeOp b s = .next t)

theorem exec_press_next {i : Instr} {p : Token} {s t : State} (hi : pressOf p = some i)
    (h : press p s = .next t) : ExecNext i s t := by
  have hd : isDirectional p = true := by cases p <;> first | rfl | cases hi
  have hw : i.wellFormed = true := by cases p <;> cases hi <;> rfl
  rw [press_next] at h
  rcases hp : s.phase with _ | _ <;> rw [hp] at h <;> simp only at h
  · exact .unchanged hw (Host.Outcome.next.inj h).symm
  · exact .pressed p hi hp hd (Host.Outcome.next.inj h).symm

theorem exec_release_next {i : Instr} {p : Token} {s t : State} (hi : releaseOf p = some i)
    (h : release p s = .next t) : ExecNext i s t := by
  have hw : i.wellFormed = true := by cases p <;> cases hi <;> rfl
  rcases release_next h with ⟨-, h⟩ | ⟨-, -, h⟩ | ⟨hp, hs, u, hu, h⟩
  · exact .unchanged hw h
  · exact .unchanged hw h
  · exact .released p hi hp hs u hu h

theorem exec_encode_next {i : Instr} {d : Token} {s t : State} (hi : i.wellFormed = false)
    (hb : i ≠ .tick ∧ (∀ x, i ≠ .classify x) ∧ i ≠ .tile ∧ (∀ b, i ≠ .modulate b) ∧ (∀ b, i ≠ .write b))
    (h : Host.Outcome.next (encodeCode d.code s) = (.next t : Result)) : ExecNext i s t :=
  .encoded d hi hb (by rw [← Host.Outcome.next.inj h, encodeCode_code])

/-- The inversion of `exec`: where it answers a next state, one of these cases holds. -/
theorem exec_next {i : Instr} {s t : State} (h : exec i s = .next t) : ExecNext i s t := by
  cases i with
  | start =>
    rcases execStart_next h with ⟨-, h⟩ | ⟨hp, hr, h⟩ | ⟨hp, hr, h⟩
    · exact .unchanged rfl h
    · exact .configError rfl hp hr h
    · exact .started rfl hp hr h
  | pressN => exact exec_press_next (p := .n) rfl h
  | pressS => exact exec_press_next (p := .s) rfl h
  | pressE => exact exec_press_next (p := .e) rfl h
  | pressW => exact exec_press_next (p := .w) rfl h
  | pressNE => exact exec_press_next (p := .ne) rfl h
  | pressNW => exact exec_press_next (p := .nw) rfl h
  | pressSE => exact exec_press_next (p := .se) rfl h
  | pressSW => exact exec_press_next (p := .sw) rfl h
  | releaseN => exact exec_release_next (p := .n) rfl h
  | releaseS => exact exec_release_next (p := .s) rfl h
  | releaseE => exact exec_release_next (p := .e) rfl h
  | releaseW => exact exec_release_next (p := .w) rfl h
  | releaseNE => exact exec_release_next (p := .ne) rfl h
  | releaseNW => exact exec_release_next (p := .nw) rfl h
  | releaseSE => exact exec_release_next (p := .se) rfl h
  | releaseSW => exact exec_release_next (p := .sw) rfl h
  | endSession =>
    rcases execEnd_next h with ⟨-, h⟩ | ⟨hp, h⟩
    · exact .unchanged rfl h
    · exact .ended rfl hp h
  | tick =>
    obtain ⟨he, u, hu, h⟩ := execTick_next h
    exact .ticked rfl he u hu h
  | classify x =>
    rcases x with m | str
    · exact .classified _ rfl (classifyMask m) (.inl (Host.Outcome.next.inj h).symm)
    · have h' : classifyStringOp str s = t := Host.Outcome.next.inj h
      unfold classifyStringOp at h'
      rcases hc : classifyString str with _ | d <;> rw [hc] at h' <;> simp only at h'
      · exact .classified _ rfl none (.inr h'.symm)
      · exact .classified _ rfl (some d) (.inl h'.symm)
  | encodeN => exact exec_encode_next (d := .n) rfl (by simp) h
  | encodeS => exact exec_encode_next (d := .s) rfl (by simp) h
  | encodeE => exact exec_encode_next (d := .e) rfl (by simp) h
  | encodeW => exact exec_encode_next (d := .w) rfl (by simp) h
  | encodeNE => exact exec_encode_next (d := .ne) rfl (by simp) h
  | encodeNW => exact exec_encode_next (d := .nw) rfl (by simp) h
  | encodeSE => exact exec_encode_next (d := .se) rfl (by simp) h
  | encodeSW => exact exec_encode_next (d := .sw) rfl (by simp) h
  | encodeStop => exact exec_encode_next (d := .stop) rfl (by simp) h
  | encodeIdle => exact exec_encode_next (d := .idle) rfl (by simp) h
  | tile =>
    have h' : execTile s = .next t := h
    unfold execTile at h'
    split_ifs at h'
    exact .tiled rfl (Host.Outcome.next.inj h').symm
  | modulate b =>
    have h' : execModulate b s = .next t := h
    unfold execModulate at h'
    split_ifs at h'
    exact .mixed b rfl (Host.Outcome.next.inj h').symm
  | write b => exact .wrote b rfl h

/-- What a step can do where it answers a next state: wait, run TICK, run the oldest command's instruction,
or meet an illegal word. -/
theorem step_next {s t : State} (h : step s = .next t) :
    t = s ∨
      (tickEnabled s = true ∧ (exec .tick s = .next t ∨ exec .tick (takeTurn s) = .next t)) ∨
      (∃ cw rest s', s.evq = cw :: rest ∧ (s' = { s with evq := rest } ∨ s' = { takeTurn s with evq := rest }) ∧
        ((∃ i, decodeWord cw = .ok i ∧ exec i s' = .next t) ∨
          (∃ e, decodeWord cw = .error e ∧ t = illegalWord cw s'))) := by
  have hd : ∀ cw s', dispatch cw s' = .next t →
      (∃ i, decodeWord cw = .ok i ∧ exec i s' = .next t) ∨ (∃ e, decodeWord cw = .error e ∧ t = illegalWord cw s') := by
    intro cw s' hd
    unfold dispatch at hd
    rcases hc : decodeWord cw with e | i <;> rw [hc] at hd <;> simp only at hd
    · exact .inr ⟨e, rfl, (Host.Outcome.next.inj hd).symm⟩
    · exact .inl ⟨i, rfl, hd⟩
  unfold step at h
  rcases nextEvent_cases s with ⟨-, -, he⟩ | ⟨ht, he | he⟩ | ⟨cw, rest, hq, he | he⟩ <;> rw [he] at h <;>
    simp only at h
  · exact .inl (Host.Outcome.next.inj h).symm
  · exact .inr (.inl ⟨ht, .inl h⟩)
  · exact .inr (.inl ⟨ht, .inr h⟩)
  · exact .inr (.inr ⟨cw, rest, _, hq, .inl rfl, hd _ _ h⟩)
  · exact .inr (.inr ⟨cw, rest, _, hq, .inr rfl, hd _ _ h⟩)

end Sys2Proof.Machine
end

