-- ==== Sys2Proof/Laws/Mixer.lean ====
section
/-! SUPPORT. The accuracy of the mixer's arithmetic (41_modulator R143, R146): the series against the
real cosine and sine, the exact quadrant, the binary32 rounding, and the properties P2 to P4 of
every stored sample. -/

namespace Sys2Proof.Machine

open Complex in
/-- The exponential series of `i·x` splits into the two sums. -/
theorem exp_series_split (x : ℚ) (m : ℕ) :
    ∑ j ∈ Finset.range (2 * m), (((x : ℝ) : ℂ) * I) ^ j / (j.factorial : ℂ)
      = ((cosSum x m : ℝ) : ℂ) + ((sinSum x m : ℝ) : ℂ) * I := by
  induction m with
  | zero => simp [cosSum, sinSum]
  | succ m ih =>
    rw [show 2 * (m + 1) = 2 * m + 1 + 1 by ring, Finset.sum_range_succ, Finset.sum_range_succ, ih]
    have hI : (I : ℂ) ^ (2 * m) = (-1) ^ m := by rw [pow_mul, I_sq]
    simp only [cosSum, sinSum, mul_pow, pow_succ I (2 * m), hI]
    push_cast
    ring

/-- Both sums are within the exponential's remainder of the real functions. -/
theorem series_error (x : ℚ) (m : ℕ) (h : |(x : ℝ)| / ((2 * m).succ : ℝ) ≤ 1 / 2) :
    |Real.cos x - cosSum x m| ≤ |(x : ℝ)| ^ (2 * m) / (2 * m).factorial * 2 ∧
      |Real.sin x - sinSum x m| ≤ |(x : ℝ)| ^ (2 * m) / (2 * m).factorial * 2 := by
  have hn : ‖((x : ℝ) : ℂ) * Complex.I‖ = |(x : ℝ)| := by simp
  have hb := Complex.exp_bound' (x := ((x : ℝ) : ℂ) * Complex.I) (n := 2 * m) (by rw [hn]; exact h)
  rw [hn, exp_series_split, Complex.exp_mul_I, ← Complex.ofReal_cos, ← Complex.ofReal_sin] at hb
  have he : ((Real.cos x : ℝ) : ℂ) + ((Real.sin x : ℝ) : ℂ) * Complex.I
      - (((cosSum x m : ℝ) : ℂ) + ((sinSum x m : ℝ) : ℂ) * Complex.I)
      = ⟨Real.cos x - cosSum x m, Real.sin x - sinSum x m⟩ := by
    generalize Real.cos x = c, Real.sin x = d
    apply Complex.ext <;> simp
  rw [he] at hb
  exact ⟨(Complex.abs_re_le_norm _).trans hb, (Complex.abs_im_le_norm _).trans hb⟩

/-- The quarter turn's decimals. -/
theorem halfPi_error : |Real.pi / 2 - (halfPi : ℝ)| ≤ 1 / 10 ^ 20 := by
  have h1 := Real.pi_gt_d20
  have h2 := Real.pi_lt_d20
  rw [abs_le]
  simp only [halfPi]
  push_cast
  constructor <;> norm_num at * <;> linarith

/-- The argument of the series in one quadrant. -/
theorem quadrant_arg (r q : ℕ) (hq : 0 < q) (hr : r < q) :
    (0 : ℝ) ≤ ((halfPi * (r : ℚ) / (q : ℚ) : ℚ) : ℝ) ∧
      ((halfPi * (r : ℚ) / (q : ℚ) : ℚ) : ℝ) ≤ 1571 / 1000 ∧
      |Real.pi / 2 * (r / q) - ((halfPi * (r : ℚ) / (q : ℚ) : ℚ) : ℝ)| ≤ 1 / 10 ^ 20 := by
  have hqR : (0 : ℝ) < q := by exact_mod_cast hq
  have hf0 : (0 : ℝ) ≤ (r : ℝ) / q := by positivity
  have hf1 : (r : ℝ) / q ≤ 1 := by rw [div_le_one hqR]; exact_mod_cast hr.le
  have hp0 : (0 : ℝ) ≤ (halfPi : ℝ) := by simp only [halfPi]; push_cast; positivity
  have hp1 : (halfPi : ℝ) ≤ 1571 / 1000 := by simp only [halfPi]; push_cast; norm_num
  have he : ((halfPi * (r : ℚ) / (q : ℚ) : ℚ) : ℝ) = (halfPi : ℝ) * ((r : ℝ) / q) := by
    push_cast; ring
  rw [he]
  refine ⟨mul_nonneg hp0 hf0, ?_, ?_⟩
  · calc (halfPi : ℝ) * ((r : ℝ) / q) ≤ (halfPi : ℝ) * 1 := mul_le_mul_of_nonneg_left hf1 hp0
      _ ≤ 1571 / 1000 := by linarith
  · rw [← sub_mul, abs_mul, abs_of_nonneg hf0]
    calc |Real.pi / 2 - (halfPi : ℝ)| * ((r : ℝ) / q) ≤ 1 / 10 ^ 20 * 1 :=
          mul_le_mul halfPi_error hf1 hf0 (by positivity)
      _ = 1 / 10 ^ 20 := by ring

/-- The error of the series in one quadrant, with the error of the quarter turn. -/
theorem quadrant_error (r q : ℕ) (hq : 0 < q) (hr : r < q) :
    |Real.cos (Real.pi / 2 * (r / q)) - cosSum (halfPi * (r : ℚ) / (q : ℚ)) 12| ≤ 1 / 2 ^ 60 ∧
      |Real.sin (Real.pi / 2 * (r / q)) - sinSum (halfPi * (r : ℚ) / (q : ℚ)) 12| ≤ 1 / 2 ^ 60 := by
  obtain ⟨h0, h1, h2⟩ := quadrant_arg r q hq hr
  generalize halfPi * (r : ℚ) / (q : ℚ) = x at *
  have hx : |(x : ℝ)| ≤ 1571 / 1000 := by rw [abs_of_nonneg h0]; exact h1
  have hs := series_error x 12 (by
    rw [div_le_iff₀ (by positivity)]; norm_num; linarith)
  have hrem : |(x : ℝ)| ^ (2 * 12) / ((2 * 12).factorial : ℝ) * 2 ≤ 1 / 2 ^ 61 := by
    have hp : |(x : ℝ)| ^ (2 * 12) ≤ (1571 / 1000) ^ (2 * 12) :=
      pow_le_pow_left₀ (abs_nonneg _) hx _
    calc |(x : ℝ)| ^ (2 * 12) / ((2 * 12).factorial : ℝ) * 2
        ≤ (1571 / 1000) ^ (2 * 12) / ((2 * 12).factorial : ℝ) * 2 := by gcongr
      _ ≤ 1 / 2 ^ 61 := by norm_num [Nat.factorial]
  have hsum : (1 : ℝ) / 10 ^ 20 + 1 / 2 ^ 61 ≤ 1 / 2 ^ 60 := by norm_num
  have hc := Real.abs_cos_sub_cos_le (Real.pi / 2 * (r / q)) x
  have hsn := Real.abs_sin_sub_sin_le (Real.pi / 2 * (r / q)) x
  constructor
  · calc _ ≤ |Real.cos (Real.pi / 2 * (r / q)) - Real.cos x| + |Real.cos x - cosSum x 12| :=
          abs_sub_le _ _ _
      _ ≤ 1 / 2 ^ 60 := by linarith [hs.1]
  · calc _ ≤ |Real.sin (Real.pi / 2 * (r / q)) - Real.sin x| + |Real.sin x - sinSum x 12| :=
          abs_sub_le _ _ _
      _ ≤ 1 / 2 ^ 60 := by linarith [hs.2]

/-- `phasor p q` is within `2^-60` of the cosine and the sine of `p/q` turns. -/
theorem phasor_error (p q : ℕ) (hp : p < q) :
    |Real.cos (2 * Real.pi * (p / q)) - (phasor p q).1| ≤ 1 / 2 ^ 60 ∧
      |Real.sin (2 * Real.pi * (p / q)) - (phasor p q).2| ≤ 1 / 2 ^ 60 := by
  have hq : 0 < q := by omega
  have hqR : (q : ℝ) ≠ 0 := by positivity
  obtain ⟨hc, hs⟩ := quadrant_error (4 * p % q) q hq (Nat.mod_lt _ hq)
  have hdm : ((4 * p / q : ℕ) : ℝ) * q + ((4 * p % q : ℕ) : ℝ) = 4 * p := by
    exact_mod_cast Nat.div_add_mod' (4 * p) q
  have harg : 2 * Real.pi * (p / q)
      = Real.pi / 2 * (((4 * p % q : ℕ) : ℝ) / q) + ((4 * p / q : ℕ) : ℝ) * (Real.pi / 2) := by
    field_simp
    linear_combination (-1 : ℝ) * hdm
  have hlt : 4 * p / q < 4 := by rw [Nat.div_lt_iff_lt_mul hq]; omega
  rw [harg]
  unfold phasor
  dsimp only
  generalize Real.pi / 2 * (((4 * p % q : ℕ) : ℝ) / q) = a at *
  generalize cosSum (halfPi * ((4 * p % q : ℕ) : ℚ) / (q : ℚ)) 12 = c at *
  generalize sinSum (halfPi * ((4 * p % q : ℕ) : ℚ) / (q : ℚ)) 12 = d at *
  generalize 4 * p / q = j at *
  interval_cases j
  · rw [Nat.cast_zero, zero_mul, add_zero]
    exact ⟨hc, hs⟩
  · simp only [Nat.cast_one, one_mul, Real.cos_add_pi_div_two, Real.sin_add_pi_div_two]
    push_cast
    exact ⟨by rw [neg_sub_neg, abs_sub_comm]; exact hs, hc⟩
  · simp only [Nat.cast_ofNat, mul_div_cancel₀ Real.pi (two_ne_zero' ℝ), Real.cos_add_pi, Real.sin_add_pi]
    push_cast
    exact ⟨by rw [neg_sub_neg, abs_sub_comm]; exact hc, by rw [neg_sub_neg, abs_sub_comm]; exact hs⟩
  · have h3 : a + ((3 : ℕ) : ℝ) * (Real.pi / 2) = a + Real.pi / 2 + Real.pi := by push_cast; ring
    rw [h3, Real.cos_add_pi, Real.sin_add_pi, Real.cos_add_pi_div_two, Real.sin_add_pi_div_two]
    push_cast
    exact ⟨by rw [neg_neg]; exact hs, by rw [neg_sub_neg, abs_sub_comm]; exact hc⟩

/-- The phase in turns is a whole number of turns away from `F_OFFSET · k / SAMPLE_RATE` (R143). -/
theorem phaseNum_turns (offset : ℤ) (rate k : ℕ) (hr : 0 < rate) :
    ∃ t : ℤ, 2 * Real.pi * (offset * k / rate)
      = 2 * Real.pi * ((phaseNum offset rate k : ℝ) / rate) + t * (2 * Real.pi) := by
  have hrR : (rate : ℝ) ≠ 0 := by positivity
  have hnn : 0 ≤ offset * k % rate := Int.emod_nonneg _ (by positivity)
  have hp : ((phaseNum offset rate k : ℤ)) = offset * k % rate := Int.toNat_of_nonneg hnn
  have hdm : (rate : ℤ) * (offset * k / rate) + offset * k % rate = offset * k := Int.mul_ediv_add_emod _ _
  rw [← hp] at hdm
  have hdR : (rate : ℝ) * ((offset * k / rate : ℤ) : ℝ) + (phaseNum offset rate k : ℝ) = offset * k := by
    exact_mod_cast hdm
  refine ⟨offset * k / rate, ?_⟩
  rw [← hdR]
  field_simp
  ring

/-- The phase numerator stays below the sample rate (R143: `0 ≤ φ(k) < 1`). -/
theorem phaseNum_lt (offset : ℤ) (rate k : ℕ) (hr : 0 < rate) : phaseNum offset rate k < rate := by
  unfold phaseNum
  have h1 : 0 ≤ offset * k % rate := Int.emod_nonneg _ (by positivity)
  have h2 : offset * k % rate < rate := Int.emod_lt_of_pos _ (by positivity)
  omega

/-- An amplitude lies in `[0, 1)`, with room for the errors of the mixer below 1. -/
theorem amp_bounds (l : Level) : (0 : ℝ) ≤ (amp l : ℝ) ∧ (amp l : ℝ) ≤ (aHigh : ℝ) ∧ (aHigh : ℝ) + 1 / 2 ^ 60 < 1 := by
  cases l <;> norm_num [amp, aLow, aHigh]

/-- The reference value of a sample is within `2^-60` of `amp · (cos θ(k), sin θ(k))` (R143, R144). -/
theorem reference_error (l : Level) (offset : ℤ) (rate k : ℕ) (hr : 0 < rate) :
    |(amp l : ℝ) * Real.cos (2 * Real.pi * (offset * k / rate)) - (reference l offset rate k).1| ≤ 1 / 2 ^ 60 ∧
      |(amp l : ℝ) * Real.sin (2 * Real.pi * (offset * k / rate)) - (reference l offset rate k).2| ≤ 1 / 2 ^ 60 := by
  obtain ⟨t, ht⟩ := phaseNum_turns offset rate k hr
  rw [ht, Real.cos_add_int_mul_two_pi, Real.sin_add_int_mul_two_pi]
  obtain ⟨hc, hs⟩ := phasor_error _ _ (phaseNum_lt offset rate k hr)
  obtain ⟨h0, hh, h1⟩ := amp_bounds l
  simp only [reference]
  have key : ∀ u : ℝ, ∀ v : ℚ, |u - v| ≤ 1 / 2 ^ 60 → |(amp l : ℝ) * u - ((amp l * v : ℚ) : ℝ)| ≤ 1 / 2 ^ 60 := by
    intro u v h
    rw [Rat.cast_mul, ← mul_sub, abs_mul, abs_of_nonneg h0]
    exact (mul_le_of_le_one_left (abs_nonneg _) (by linarith)).trans h
  exact ⟨key _ _ hc, key _ _ hs⟩

/-- The reference value of a sample has components of magnitude below 1. -/
theorem reference_lt_one (l : Level) (offset : ℤ) (rate k : ℕ) (hr : 0 < rate) :
    |(reference l offset rate k).1| < 1 ∧ |(reference l offset rate k).2| < 1 := by
  obtain ⟨hc, hs⟩ := reference_error l offset rate k hr
  have hc1 := Real.abs_cos_le_one (2 * Real.pi * (offset * k / rate))
  have hs1 := Real.abs_sin_le_one (2 * Real.pi * (offset * k / rate))
  obtain ⟨h0, hh, h1⟩ := amp_bounds l
  have key : ∀ u : ℝ, ∀ v : ℚ, |u| ≤ 1 → |(amp l : ℝ) * u - v| ≤ 1 / 2 ^ 60 → |v| < 1 := by
    intro u v hu h
    have hau : |(amp l : ℝ) * u| ≤ aHigh := by
      rw [abs_mul, abs_of_nonneg h0]
      exact (mul_le_of_le_one_right h0 hu).trans hh
    have : |(v : ℝ)| < 1 := by
      rw [abs_le] at hau h
      rw [abs_lt]
      constructor <;> linarith
    exact_mod_cast this
  exact ⟨key _ _ hc1 hc, key _ _ hs1 hs⟩

/-! ### The binary32 format -/

/-- `divNearestEven` is within a half of the quotient, and next to its floor. -/
theorem divNearestEven_bounds (a b : ℕ) (hb : 0 < b) :
    2 * a ≤ 2 * (divNearestEven a b * b) + b ∧ 2 * (divNearestEven a b * b) ≤ 2 * a + b ∧
      a / b ≤ divNearestEven a b ∧ divNearestEven a b ≤ a / b + 1 := by
  have hdm := Nat.div_add_mod' a b
  have hm := Nat.mod_lt a hb
  have h2 := Nat.mod_lt (a / b) (by decide : 0 < 2)
  unfold divNearestEven
  generalize a / b = d at *
  generalize a % b = r at *
  have hd : (d + 1) * b = d * b + b := by ring
  split_ifs
  · refine ⟨by omega, by omega, by omega, by omega⟩
  · refine ⟨by omega, by omega, by omega, by omega⟩
  · rcases (by omega : d % 2 = 0 ∨ d % 2 = 1) with h | h
    · rw [h, Nat.add_zero]
      exact ⟨by omega, by omega, by omega, by omega⟩
    · rw [h, hd]
      exact ⟨by omega, by omega, by omega, by omega⟩

/-- The fields of a word below `2^31` with a sign put to it. -/
theorem f32_fields (m : ℕ) (neg : Bool) (hm : m < 2 ^ 31) :
    f32Exp (BitVec.ofNat 32 m ||| f32Zero neg) = m / 2 ^ 23 ∧
      f32Frac (BitVec.ofNat 32 m ||| f32Zero neg) = m % 2 ^ 23 ∧
      (BitVec.ofNat 32 m ||| f32Zero neg).getLsbD 31 = neg := by
  have he : (BitVec.ofNat 32 m ||| f32Zero neg).extractLsb' 23 8 = (BitVec.ofNat 32 m).extractLsb' 23 8 := by
    cases neg
    · simp [f32Zero]
    · simp only [f32Zero]
      ext i hi
      simp
      interval_cases i <;> simp
  have hf : (BitVec.ofNat 32 m ||| f32Zero neg).extractLsb' 0 23 = (BitVec.ofNat 32 m).extractLsb' 0 23 := by
    cases neg
    · simp [f32Zero]
    · simp only [f32Zero]
      ext i hi
      simp
      interval_cases i <;> simp
  have h31 : m.testBit 31 = false := Nat.testBit_lt_two_pow hm
  refine ⟨?_, ?_, ?_⟩
  · rw [f32Exp, he, BitVec.extractLsb'_toNat, BitVec.toNat_ofNat, Nat.shiftRight_eq_div_pow]
    omega
  · rw [f32Frac, hf, BitVec.extractLsb'_toNat, BitVec.toNat_ofNat]
    simp only [Nat.shiftRight_zero]
    omega
  · rw [BitVec.getLsbD_or, BitVec.getLsbD_ofNat, h31]
    cases neg <;> rfl

/-- A rounded significand `q` at exponent `e`, put together as `rn32` does, has the magnitude
`q · 2^e`. -/
theorem f32Mag_of_parts (q e : ℕ) (neg : Bool) (he : 1 ≤ e) (he' : e ≤ 126) (hq : q ≤ 2 ^ 24)
    (hn : e = 1 ∨ 2 ^ 23 ≤ q) :
    f32Mag (BitVec.ofNat 32 ((e - 1) * 2 ^ 23 + q) ||| f32Zero neg) = q * 2 ^ e ∧
      f32Finite (BitVec.ofNat 32 ((e - 1) * 2 ^ 23 + q) ||| f32Zero neg) = true ∧
      (BitVec.ofNat 32 ((e - 1) * 2 ^ 23 + q) ||| f32Zero neg).getLsbD 31 = neg := by
  obtain ⟨h1, h2, h3⟩ := f32_fields ((e - 1) * 2 ^ 23 + q) neg (by omega)
  refine ⟨?_, ?_, h3⟩
  · rw [f32Mag, h1, h2]
    rcases (by omega : q < 2 ^ 23 ∨ (2 ^ 23 ≤ q ∧ q < 2 ^ 24) ∨ q = 2 ^ 24) with hlt | ⟨hge, hlt⟩ | h24
    · obtain rfl : e = 1 := by omega
      rw [if_pos (by omega)]
      omega
    · rw [show ((e - 1) * 2 ^ 23 + q) / 2 ^ 23 = e by omega,
        show ((e - 1) * 2 ^ 23 + q) % 2 ^ 23 = q - 2 ^ 23 by omega, if_neg (by omega),
        Nat.add_sub_cancel' hge]
    · have h5 : ((e - 1) * 2 ^ 23 + q) / 2 ^ 23 = e + 1 := by omega
      have h6 : ((e - 1) * 2 ^ 23 + q) % 2 ^ 23 = 0 := by omega
      have h7 : q * 2 ^ e = (2 ^ 23 + 0) * 2 ^ (e + 1) := by
        rw [pow_succ 2 e]
        generalize 2 ^ e = z
        have h8 : q * z = 2 ^ 24 * z := by simp only [h24]
        omega
      rw [h5, h6, if_neg (by omega), h7]
  · have : ((e - 1) * 2 ^ 23 + q) / 2 ^ 23 ≤ 254 := by omega
    simp only [f32Finite, h1, bne_iff_ne, ne_eq]
    omega

/-- `RN32` of a value of magnitude below 1 is finite and within `2^-25` of it. -/
theorem rn32_error (x : ℚ) (hx : |x| < 1) :
    f32Finite (rn32 x) = true ∧ |f32Val (rn32 x) - x| ≤ 1 / 2 ^ 25 := by
  have hden : 0 < x.den := x.den_pos
  have hlt : x.num.natAbs < x.den := by
    have : |x| = (x.num.natAbs : ℚ) / x.den := by
      conv_lhs => rw [← Rat.num_div_den x, abs_div, Nat.abs_cast]
      rw [Nat.cast_natAbs]
      norm_cast
    rw [this, div_lt_one (by exact_mod_cast hden)] at hx
    exact_mod_cast hx
  set a := x.num.natAbs * 2 ^ 150 with ha
  set f := a / x.den with hf
  have hfl : f < 2 ^ 150 := by
    rw [hf, Nat.div_lt_iff_lt_mul hden, ha, mul_comm]
    exact mul_lt_mul_of_pos_left hlt (by positivity)
  set e := max (Nat.log2 f - 23) 1 with he
  have hlog : f < 2 ^ (Nat.log2 f + 1) := by
    rcases Nat.eq_zero_or_pos f with h0 | hpos
    · rw [h0]; positivity
    · exact (Nat.log2_lt hpos.ne').mp (Nat.lt_succ_self _)
  have hL : Nat.log2 f ≤ 149 := by
    rcases Nat.eq_zero_or_pos f with h0 | hpos
    · rw [h0]; decide
    · have := (Nat.log2_lt hpos.ne' (k := 150)).mpr hfl
      omega
  have he1 : 1 ≤ e := le_max_right _ _
  have he2 : e ≤ 126 := by omega
  have hb : 0 < x.den * 2 ^ e := by positivity
  obtain ⟨hlo, hhi, hfl1, hfl2⟩ := divNearestEven_bounds a (x.den * 2 ^ e) hb
  have hdd : a / (x.den * 2 ^ e) = f / 2 ^ e := by rw [hf, Nat.div_div_eq_div_mul]
  rw [hdd] at hfl1 hfl2
  set q := divNearestEven a (x.den * 2 ^ e) with hq
  have hfe : f / 2 ^ e < 2 ^ 24 := by
    rw [Nat.div_lt_iff_lt_mul (by positivity), ← pow_add]
    exact hlog.trans_le (Nat.pow_le_pow_right (by decide) (by omega))
  have hnorm : e = 1 ∨ 2 ^ 23 ≤ q := by
    rcases (by omega : e = 1 ∨ (Nat.log2 f = e + 23)) with h | h
    · exact Or.inl h
    · right
      have hf0 : f ≠ 0 := by
        rintro h0
        rw [h0] at h
        simp at h
      have h2 : 2 ^ (e + 23) ≤ f := by rw [← h]; exact Nat.log2_self_le hf0
      refine le_trans ?_ hfl1
      rw [Nat.le_div_iff_mul_le (by positivity), ← pow_add, add_comm]
      exact h2
  obtain ⟨hm, hfin, hsg⟩ := f32Mag_of_parts q e (decide (x < 0)) he1 he2 (by omega) hnorm
  have hrn : rn32 x = BitVec.ofNat 32 ((e - 1) * 2 ^ 23 + q) ||| f32Zero (decide (x < 0)) := rfl
  rw [hrn]
  refine ⟨hfin, ?_⟩
  rw [f32Val, hm, hsg]
  have hxv : (x < 0 → x = -((x.num.natAbs : ℚ) / x.den)) ∧ (¬x < 0 → x = (x.num.natAbs : ℚ) / x.den) := by
    have hc : ((x.num.natAbs : ℚ)) = |(x.num : ℚ)| := by rw [Nat.cast_natAbs]; norm_cast
    rw [hc]
    refine ⟨fun h => ?_, fun h => ?_⟩
    · rw [abs_of_neg (by exact_mod_cast Rat.num_neg.mpr h), neg_div, neg_neg, Rat.num_div_den]
    · rw [abs_of_nonneg (by exact_mod_cast Rat.num_nonneg.mpr (not_lt.mp h)), Rat.num_div_den]
  have hdenQ : (0 : ℚ) < x.den := by exact_mod_cast hden
  have hpe : (2 : ℚ) ^ e ≤ 2 ^ 126 := pow_le_pow_right₀ (by norm_num) he2
  have hbound : |((q * 2 ^ e : ℕ) : ℚ) / 2 ^ 150 - (x.num.natAbs : ℚ) / x.den| ≤ 1 / 2 ^ 25 := by
    have hloQ : 2 * ((x.num.natAbs : ℚ) * 2 ^ 150) ≤ 2 * (q * (x.den * 2 ^ e)) + x.den * 2 ^ e := by
      exact_mod_cast hlo
    have hhiQ : 2 * ((q : ℚ) * (x.den * 2 ^ e)) ≤ 2 * (x.num.natAbs * 2 ^ 150) + x.den * 2 ^ e := by
      exact_mod_cast hhi
    have hdiff : ((q * 2 ^ e : ℕ) : ℚ) / 2 ^ 150 - (x.num.natAbs : ℚ) / x.den
        = (q * (x.den * 2 ^ e) - x.num.natAbs * 2 ^ 150) / (x.den * 2 ^ 150) := by
      push_cast; field_simp
    rw [hdiff, abs_div, abs_of_pos (by positivity : (0 : ℚ) < x.den * 2 ^ 150), div_le_iff₀ (by positivity), abs_le]
    have hde : (x.den : ℚ) * 2 ^ e ≤ x.den * 2 ^ 126 := mul_le_mul_of_nonneg_left hpe hdenQ.le
    have h126 : (1 : ℚ) / 2 ^ 25 * (x.den * 2 ^ 150) = x.den * 2 ^ 126 / 2 := by ring
    rw [h126]
    constructor <;> linarith
  generalize (x.num.natAbs : ℚ) / x.den = v at hbound hxv
  by_cases h : x < 0
  · rw [if_pos (by simpa using h)]
    conv_lhs => rw [hxv.1 h, neg_div, neg_sub_neg, abs_sub_comm]
    exact hbound
  · rw [if_neg (by simpa using h)]
    conv_lhs => rw [hxv.2 h]
    exact hbound

/-! ### The stored sample -/

/-- P3 and P4 at `2^-24` for the correctly rounded value of a rational `x` that is within `2^-60` of `amp · y`. -/
theorem componentOk_rn32 {x : ℚ} {y : ℝ} {l : Level} (hx : |x| < 1) (hxy : |(amp l : ℝ) * y - (x : ℝ)| ≤ 1 / 2 ^ 60)
    (hy : |y| ≤ 1) : ComponentOk ((1 / 2 ^ 24 : ℚ) : ℝ) (rn32 x) ((amp l : ℝ) * y) := by
  obtain ⟨hf, he⟩ := rn32_error x hx
  have he' : |(f32Val (rn32 x) : ℝ) - (x : ℝ)| ≤ 1 / 2 ^ 25 := by
    have hc := (Rat.cast_le (K := ℝ)).mpr he
    rwa [Rat.cast_abs, Rat.cast_sub, Rat.cast_div, Rat.cast_pow, Rat.cast_one, Rat.cast_ofNat] at hc
  have hnear : |(f32Val (rn32 x) : ℝ) - (amp l : ℝ) * y| ≤ ((1 / 2 ^ 24 : ℚ) : ℝ) := by
    rw [abs_le] at *
    push_cast
    constructor <;> linarith
  obtain ⟨h0, hh, -⟩ := amp_bounds l
  have hay : |(amp l : ℝ) * y| ≤ aHigh := by
    rw [abs_mul, abs_of_nonneg h0]
    exact (mul_le_of_le_one_right h0 hy).trans hh
  refine ⟨hf, hnear, ?_⟩
  rw [abs_le] at *
  constructor <;> linarith

/-- The reference value at amplitude 0 is 0, and rounds to a zero. -/
theorem reference_zero {l : Level} (h : amp l = 0) (offset : ℤ) (rate k : ℕ) :
    (⟨rn32 (reference l offset rate k).1, rn32 (reference l offset rate k).2⟩ : C32).isZero := by
  have h0 : rn32 0 = f32Zero false := by decide +kernel
  simp only [reference, h, zero_mul, h0]
  exact ⟨_, _, rfl⟩

/-- Every quantiser meets P3 and P4 at its own tolerance, the reference model among them. -/
theorem quantiserSample_ok {offset : ℤ} {rate : ℕ} (q : Quantiser offset rate) (hr : 0 < rate) (l : Level) (k : ℕ) :
    SampleOk (quantiserTol q) l (quantiserSample q l k) offset rate k := by
  cases q with
  | reference =>
    obtain ⟨h1, h2⟩ := reference_lt_one l offset rate k hr
    obtain ⟨hc, hs⟩ := reference_error l offset rate k hr
    exact ⟨componentOk_rn32 h1 hc (Real.abs_cos_le_one _), componentOk_rn32 h2 hs (Real.abs_sin_le_one _)⟩
  | any tol sample zero ok => exact ok hr l k

/-- Every sample meets P3 and P4 at MOD_TOL, whatever the free value is. -/
theorem mixSample_ok (offset : ℤ) (rate k : ℕ) (l : Level) (hr : 0 < rate) :
    SampleOk (modTol offset rate) l (mixSample offset rate k l) offset rate k :=
  quantiserSample_ok _ hr l k

/-- A sample at amplitude 0 is a pair of zeros, each of either sign (P2). -/
theorem mixSample_zero (offset : ℤ) (rate k : ℕ) {l : Level} (h : amp l = 0) : (mixSample offset rate k l).isZero := by
  unfold mixSample
  cases Config.quantiser offset rate with
  | reference => exact reference_zero h _ _ _
  | any tol sample zero ok => exact zero l k h

/-- A LOW sample is a pair of zeros (P2, A_LOW = 0). -/
theorem mixSample_low (offset : ℤ) (rate k : ℕ) : (mixSample offset rate k .low).isZero :=
  mixSample_zero offset rate k (l := .low) rfl

/-- P3 and P4 hold of a zero pair at amplitude 0 wherever the tolerance is not negative: at LOW they ask for
nothing beyond P2. -/
theorem sampleOk_of_isZero {tol : ℝ} {l : Level} {c : C32} (offset : ℤ) (rate k : ℕ) (ht : 0 ≤ tol) (h : amp l = 0)
    (hc : c.isZero) : SampleOk tol l c offset rate k := by
  have hz : ∀ a, f32Finite (f32Zero a) = true ∧ f32Val (f32Zero a) = 0 := by decide +kernel
  have ha : (0 : ℝ) ≤ aHigh := (amp_bounds .high).1
  obtain ⟨a, b, rfl⟩ := hc
  constructor <;> exact ⟨(hz _).1, by simp [(hz _).2, h, ht], by simpa [(hz _).2] using add_nonneg ha ht⟩

/-- Nothing but P2 to P4 is assumed: every tolerance with stored samples whose HIGH ones meet P3 and P4 and whose
LOW ones are zeros is a quantiser. -/
theorem quantiser_complete {offset : ℤ} {rate : ℕ} (tol : ℝ) (sample : Level → ℕ → C32)
    (hz : ∀ k, (sample .low k).isZero)
    (h : 0 < rate → ∀ k, SampleOk tol .high (sample .high k) offset rate k) :
    ∃ q : Quantiser offset rate, quantiserTol q = tol ∧ quantiserSample q = sample := by
  refine ⟨.any tol sample (fun l k hl => ?_) (fun hr l k => ?_), rfl, rfl⟩
  · cases l with
    | low => exact hz k
    | high => exact absurd hl (by norm_num [amp, aHigh])
  · cases l with
    | low => exact sampleOk_of_isZero offset rate k ((abs_nonneg _).trans (h hr k).1.2.1) rfl (hz k)
    | high => exact h hr k

@[simp] theorem modulateSeq_length (offset : ℤ) (rate : ℕ) (f : List Level) :
    (modulateSeq offset rate f).length = f.length := by simp [modulateSeq]

/-- Sample `k` of a modulated frame depends on the level at `k`, on `k`, on the offset and on the rate
alone (R56, P1). -/
theorem modulateSeq_getElem (offset : ℤ) (rate : ℕ) (f : List Level) (k : ℕ) (h : k < f.length) :
    (modulateSeq offset rate f)[k]? = some (mixSample offset rate k f[k]) := by
  simp [modulateSeq, h]

end Sys2Proof.Machine
end

