-- ==== Sys2Proof/Laws/Memory.lean ====
section
/-! SUPPORT. The canonical form of the three buffers (each length register holds its sequence's length):
every operation that writes a buffer keeps it, and construction has it. -/

namespace Sys2Proof.Machine

/-- The canonical form, field by field. -/
theorem memory_wf_iff (s : State) : Memory.wf s = true ↔
    s.frameLen.toNat = s.frame.length ∧ s.txLen.toNat = s.txBuf.length ∧ s.stopLen.toNat = s.stopBuf.length := by
  simp [Memory.wf, and_assoc]

/-- The largest `N` with the CLOCK_PERIOD of R6 (20_memory R55). -/
theorem maxUnit_eq : maxUnit = 2147483 := rfl

theorem construct_wf (c : Construction) : Memory.wf (State.construct c) = true := rfl

theorem reset_wf : Memory.wf State.reset = true := construct_wf _

theorem storeFrame_wf (f : List Level) (s : State) (hf : f.length < 2 ^ 32) (h : Memory.wf s = true) :
    Memory.wf (storeFrame f s) = true := by
  rw [memory_wf_iff] at *
  exact ⟨lenWord_toNat hf, h.2⟩

theorem encodeFrame_wf (t : Token) (s : State) (hn : s.n.toNat ≤ maxUnit) (h : Memory.wf s = true) :
    Memory.wf (encodeFrame t s) = true := by
  have hl := encodeSeq_length_le s.n.toNat t
  exact storeFrame_wf _ _ (by rw [maxUnit_eq] at hn; omega) h

theorem tileFrame_wf (s : State) (hl : tileFactor * s.frame.length < 2 ^ 32) (h : Memory.wf s = true) :
    Memory.wf (tileFrame s) = true :=
  storeFrame_wf _ _ (by simpa using hl) h

theorem modulateInto_wf (dst : BufSel) (s : State) (h : Memory.wf s = true) :
    Memory.wf (modulateInto dst s) = true := by
  rw [memory_wf_iff] at *
  cases dst <;> simp [h]

theorem buildTx_wf (t : Token) (s : State) (hn : s.n.toNat ≤ maxUnit) (h : Memory.wf s = true) :
    Memory.wf (buildTx t s) = true := by
  have he := encodeFrame_wf t s hn h
  have hl := encodeSeq_length_le s.n.toNat t
  unfold buildTx
  split_ifs
  · refine modulateInto_wf _ _ (tileFrame_wf _ ?_ he)
    simp only [encodeFrame_frame, tileFactor]
    rw [maxUnit_eq] at hn
    omega
  · exact modulateInto_wf _ _ he

theorem wroteOnly_wf {s t : State} (hw : WroteOnly s t) (h : Memory.wf s = true) : Memory.wf t = true := by
  rw [memory_wf_iff] at *
  rw [hw]
  exact h

end Sys2Proof.Machine
end

