-- ==== Sys2Proof/Laws/PerInstr.lean ====
section
/-! SUPPORT. Statements made for each instruction: encoding and decoding agree (30_encoding R75, R77). -/

namespace Sys2Proof.Laws.RoundTrip

/-- An instruction of the host's command stream has one command word, which decodes to it; an internal
operation has none. -/
def Statement (i : Instr) : Prop :=
  (i.wellFormed = true → ∃ cw, encode i = some cw ∧ decodeWord cw = .ok i) ∧
    (i.wellFormed = false → encode i = none)

theorem start : Statement .start := ⟨fun _ => ⟨_, rfl, rfl⟩, fun h => (nomatch h)⟩

theorem pressN : Statement .pressN := ⟨fun _ => ⟨_, rfl, rfl⟩, fun h => (nomatch h)⟩

theorem pressS : Statement .pressS := ⟨fun _ => ⟨_, rfl, rfl⟩, fun h => (nomatch h)⟩

theorem pressE : Statement .pressE := ⟨fun _ => ⟨_, rfl, rfl⟩, fun h => (nomatch h)⟩

theorem pressW : Statement .pressW := ⟨fun _ => ⟨_, rfl, rfl⟩, fun h => (nomatch h)⟩

theorem pressNE : Statement .pressNE := ⟨fun _ => ⟨_, rfl, rfl⟩, fun h => (nomatch h)⟩

theorem pressNW : Statement .pressNW := ⟨fun _ => ⟨_, rfl, rfl⟩, fun h => (nomatch h)⟩

theorem pressSE : Statement .pressSE := ⟨fun _ => ⟨_, rfl, rfl⟩, fun h => (nomatch h)⟩

theorem pressSW : Statement .pressSW := ⟨fun _ => ⟨_, rfl, rfl⟩, fun h => (nomatch h)⟩

theorem releaseN : Statement .releaseN := ⟨fun _ => ⟨_, rfl, rfl⟩, fun h => (nomatch h)⟩

theorem releaseS : Statement .releaseS := ⟨fun _ => ⟨_, rfl, rfl⟩, fun h => (nomatch h)⟩

theorem releaseE : Statement .releaseE := ⟨fun _ => ⟨_, rfl, rfl⟩, fun h => (nomatch h)⟩

theorem releaseW : Statement .releaseW := ⟨fun _ => ⟨_, rfl, rfl⟩, fun h => (nomatch h)⟩

theorem releaseNE : Statement .releaseNE := ⟨fun _ => ⟨_, rfl, rfl⟩, fun h => (nomatch h)⟩

theorem releaseNW : Statement .releaseNW := ⟨fun _ => ⟨_, rfl, rfl⟩, fun h => (nomatch h)⟩

theorem releaseSE : Statement .releaseSE := ⟨fun _ => ⟨_, rfl, rfl⟩, fun h => (nomatch h)⟩

theorem releaseSW : Statement .releaseSW := ⟨fun _ => ⟨_, rfl, rfl⟩, fun h => (nomatch h)⟩

theorem endSession : Statement .endSession := ⟨fun _ => ⟨_, rfl, rfl⟩, fun h => (nomatch h)⟩

theorem tick : Statement .tick := ⟨fun h => (nomatch h), fun _ => rfl⟩

theorem classify (input : ClassifyInput) : Statement (.classify input) := ⟨fun h => (nomatch h), fun _ => rfl⟩

theorem encodeN : Statement .encodeN := ⟨fun h => (nomatch h), fun _ => rfl⟩

theorem encodeS : Statement .encodeS := ⟨fun h => (nomatch h), fun _ => rfl⟩

theorem encodeE : Statement .encodeE := ⟨fun h => (nomatch h), fun _ => rfl⟩

theorem encodeW : Statement .encodeW := ⟨fun h => (nomatch h), fun _ => rfl⟩

theorem encodeNE : Statement .encodeNE := ⟨fun h => (nomatch h), fun _ => rfl⟩

theorem encodeNW : Statement .encodeNW := ⟨fun h => (nomatch h), fun _ => rfl⟩

theorem encodeSE : Statement .encodeSE := ⟨fun h => (nomatch h), fun _ => rfl⟩

theorem encodeSW : Statement .encodeSW := ⟨fun h => (nomatch h), fun _ => rfl⟩

theorem encodeStop : Statement .encodeStop := ⟨fun h => (nomatch h), fun _ => rfl⟩

theorem encodeIdle : Statement .encodeIdle := ⟨fun h => (nomatch h), fun _ => rfl⟩

theorem tile : Statement .tile := ⟨fun h => (nomatch h), fun _ => rfl⟩

theorem modulate (dst : BufSel) : Statement (.modulate dst) := ⟨fun h => (nomatch h), fun _ => rfl⟩

theorem write (src : BufSel) : Statement (.write src) := ⟨fun h => (nomatch h), fun _ => rfl⟩

end Sys2Proof.Laws.RoundTrip
end

