-- ==== Sys2Proof/Laws/Writer.lean ====
section
/-! SUPPORT. The WRITE loop along a sequence of accepting answers, in one equation: what it sent, where it
stands, what is left to do. -/

namespace Sys2Proof.Machine

/-- An accepting answer, as numbers. -/
theorem answerAccepts_iff (r : BitVec 32) (m : Nat) (hm : m < 2 ^ 31) :
    answerAccepts r m = true ↔ 1 ≤ r.toNat ∧ r.toNat ≤ m := by
  simp only [answerAccepts, Bool.and_eq_true, decide_eq_true_eq, BitVec.toInt_eq_toNat_cond]
  have := r.isLt
  split <;> omega

theorem answerAccepts_toNat {r : BitVec 32} {m : Nat} (h : answerAccepts r m = true) :
    1 ≤ r.toNat ∧ r.toNat ≤ m := by
  simp only [answerAccepts, Bool.and_eq_true, decide_eq_true_eq, BitVec.toInt_eq_toNat_cond] at h
  have := r.isLt
  split at h <;> omega

/-- Accepting answers never leave more samples than there were. -/
theorem accepting_le {rs : List (BitVec 32)} {l l' : Nat} (h : Accepting rs l l') : l' ≤ l := by
  induction rs generalizing l with
  | nil => exact h ▸ le_rfl
  | cons r rs ih => exact (ih h.2).trans (Nat.sub_le _ _)

/-- Each accepting answer takes at least one sample (R209). -/
theorem accepting_length {rs : List (BitVec 32)} {l l' : Nat} (h : Accepting rs l l') : rs.length + l' ≤ l := by
  induction rs generalizing l with
  | nil => simpa using h ▸ le_rfl
  | cons r rs ih =>
    have := answerAccepts_toNat h.1
    have := ih h.2
    simp only [List.length_cons]
    omega

/-- The loop on accepting answers `rs` that leave `l'` of the `l` remaining samples: it comes to the state
in which the prefix is on the air and the calls are recorded, with the other rounds still to run. -/
theorem writeLoop_accepting (b : List C32) (rs rest : List (BitVec 32)) (l' : Nat) :
    ∀ (fuel l : Nat) (s : State), s.radioHangAt = none → bufSamples s.wrSrc s = b → s.wrLen.toNat = b.length →
      s.wrOff.toNat + l = b.length → s.radioAnswers = rs ++ rest → Accepting rs l l' → l ≤ fuel →
      writeLoop fuel s = writeLoop (fuel - rs.length) { s with
        air := s.air ++ (b.drop s.wrOff.toNat).take (l - l'), wrOff := BitVec.ofNat 32 (b.length - l')
        radioLog := s.radioLog ++ expectedCalls (b.drop s.wrOff.toNat) rs, radioAnswers := rest } := by
  induction rs with
  | nil =>
    intro fuel l s _ _ _ hoff hans hacc _
    obtain rfl : l = l' := hacc
    have h : BitVec.ofNat 32 (b.length - l) = s.wrOff := by
      rw [← hoff, Nat.add_sub_cancel]
      exact BitVec.ofNat_toNat _ _ |>.trans (by simp)
    have h' : rest = s.radioAnswers := by simpa using hans.symm
    simp [h, h', expectedCalls]
  | cons r rs ih =>
    intro fuel l s hh hb hlen hoff hans ⟨hr, hacc⟩ hf
    have hr' := answerAccepts_toNat hr
    obtain ⟨fuel, rfl⟩ : ∃ k, fuel = k + 1 := ⟨fuel - 1, by omega⟩
    have hlt : s.wrOff.toNat < s.wrLen.toNat := by omega
    have hrem : remaining s = l := by unfold remaining; omega
    have hna : nextAnswer s = r := by unfold nextAnswer; rw [hans]; rfl
    have hsl : offeredSlice s = b.drop s.wrOff.toNat := by
      unfold offeredSlice; rw [hb, hlen, List.take_length]
    have htk : takeAnswer s = { s with radioAnswers := rs ++ rest } := by
      unfold takeAnswer; rw [hans]; rfl
    have hl32 := s.wrLen.isLt
    have hoff' : (s.wrOff + r).toNat = s.wrOff.toNat + r.toNat := by
      rw [BitVec.toNat_add, Nat.mod_eq_of_lt (by omega)]
    conv_lhs => unfold writeLoop
    rw [if_pos hlt, if_pos (radioReturns_alive hh), hna, hrem, if_pos hr]
    have hst : acceptAnswer r (offer s) = { s with
        air := s.air ++ (b.drop s.wrOff.toNat).take r.toNat, wrOff := s.wrOff + r
        radioLog := s.radioLog ++ [.write (b.drop s.wrOff.toNat) (lenWord l) r], radioAnswers := rs ++ rest } := by
      have ho : offer s = { s with
          radioLog := s.radioLog ++ [.write (b.drop s.wrOff.toNat) (lenWord l) r], radioAnswers := rs ++ rest } := by
        unfold offer; rw [htk, hsl, hrem, hna]
      have hs2 : offeredSlice (offer s) = b.drop s.wrOff.toNat := by rw [← hsl]; rw [ho]; rfl
      unfold acceptAnswer
      rw [hs2, ho]
    have key := ih fuel (l - r.toNat) { s with
        air := s.air ++ (b.drop s.wrOff.toNat).take r.toNat, wrOff := s.wrOff + r
        radioLog := s.radioLog ++ [.write (b.drop s.wrOff.toNat) (lenWord l) r], radioAnswers := rs ++ rest }
      hh hb hlen (by simp only [hoff']; omega) rfl hacc (by omega)
    rw [hst, key]
    have hle := accepting_le hacc
    have hlb : (b.drop s.wrOff.toNat).length = l := by simp; omega
    simp only [hoff', List.append_assoc, expectedCalls, hlb, List.drop_drop, List.cons_append, List.nil_append,
      List.length_cons, Nat.add_sub_add_right]
    have hsplit : (b.drop s.wrOff.toNat).take r.toNat ++ (b.drop (s.wrOff.toNat + r.toNat)).take (l - r.toNat - l') =
        (b.drop s.wrOff.toNat).take (l - l') := by
      rw [← List.drop_drop, ← List.take_add]
      congr 1
      omega
    rw [hsplit]

end Sys2Proof.Machine
end

