-- ==== Sys2Proof/Tests/Slice0.lean ====
section
/-! SUPPORT. Small tests, their expected results taken from the spec (30_encoding R75 and the vectors of
95_test_vectors Part B), and for every obligation with hypotheses a witness that meets them all. -/

namespace Sys2Proof.Tests

open Machine

/-! ### Helpers -/

/-- What a field reads after an operation that answers a next state. -/
def after {α : Type} (o : Result) (f : State → α) : Option α :=
  match o with
  | .next s => some (f s)
  | .fault _ => none
  | .refused _ => none

/-- A pair of positive zeros. -/
def z : C32 := { re := 0, im := 0 }

/-- A sample that tells its place in a buffer. -/
def mark (k : Nat) : C32 := { re := BitVec.ofNat 32 k, im := 0 }

/-- A session in IDLE at `N = 1` (Part C), with small buffers of ten and five marked samples. -/
def on1 : State :=
  { State.reset with
    phase := .on, n := 1, fOffset := 500, tmrArmed := true, tmrDelay := 15000
    txBuf := (List.range 10).map mark, txLen := 10
    stopBuf := (List.range 5).map mark, stopLen := 5 }

/-- The same session in MOVING, forward. -/
def moving1 : State := { on1 with sch := .moving, held := 0b0001#4, curTok := .n }

/-- A frame of given levels. -/
def bits (s : List Nat) : List Level := s.map fun b => if b = 0 then .low else .high

/-- What START makes of reset (42_scheduler R162). -/
def started : State :=
  beginSession { deriveRegs (clearFaults State.reset) with
    radioLog := [.configure 2000 1000 [], .openTransmitStream, .activateStream] }

/-! ### Well-formedness: each check refuses an ill-formed term (30_encoding R77) -/

theorem test_wf_refuses_timer_event : Instr.tick.illFormed = some .timerEvent ∧ Instr.tick.wellFormed = false := by
  decide

theorem test_wf_refuses_datapath_operation :
    (Instr.write .tx).illFormed = some .datapathOperation ∧ (Instr.write .tx).wellFormed = false ∧
      Instr.encodeStop.illFormed = some .datapathOperation := by decide

theorem test_wf_accepts_command_words :
    Instr.start.wellFormed = true ∧ Instr.pressSW.wellFormed = true ∧ Instr.endSession.wellFormed = true := by decide

/-! ### Decoding: the words of R75, bit by bit, and the classes of R76 -/

theorem test_decode_start : decodeWord 0b0001_0000#8 = .ok .start := rfl
theorem test_decode_pressN : decodeWord 0b0010_0000#8 = .ok .pressN := rfl
theorem test_decode_pressS : decodeWord 0b0010_0001#8 = .ok .pressS := rfl
theorem test_decode_pressE : decodeWord 0b0010_0010#8 = .ok .pressE := rfl
theorem test_decode_pressW : decodeWord 0b0010_0011#8 = .ok .pressW := rfl
theorem test_decode_pressNE : decodeWord 0b0010_0100#8 = .ok .pressNE := rfl
theorem test_decode_pressNW : decodeWord 0b0010_0101#8 = .ok .pressNW := rfl
theorem test_decode_pressSE : decodeWord 0b0010_0110#8 = .ok .pressSE := rfl
theorem test_decode_pressSW : decodeWord 0b0010_0111#8 = .ok .pressSW := rfl
theorem test_decode_releaseN : decodeWord 0b0011_0000#8 = .ok .releaseN := rfl
theorem test_decode_releaseS : decodeWord 0b0011_0001#8 = .ok .releaseS := rfl
theorem test_decode_releaseE : decodeWord 0b0011_0010#8 = .ok .releaseE := rfl
theorem test_decode_releaseW : decodeWord 0b0011_0011#8 = .ok .releaseW := rfl
theorem test_decode_releaseNE : decodeWord 0b0011_0100#8 = .ok .releaseNE := rfl
theorem test_decode_releaseNW : decodeWord 0b0011_0101#8 = .ok .releaseNW := rfl
theorem test_decode_releaseSE : decodeWord 0b0011_0110#8 = .ok .releaseSE := rfl
theorem test_decode_releaseSW : decodeWord 0b0011_0111#8 = .ok .releaseSW := rfl
theorem test_decode_end : decodeWord 0b0100_0000#8 = .ok .endSession := rfl

/-- R76, every class, at its boundary words. -/
theorem test_decode_rejects :
    [0x00, 0x0F, 0x50, 0xFF].map decodeWord = List.replicate 4 (.error .reservedOp) ∧
      [0x11, 0x1F, 0x41].map decodeWord = List.replicate 3 (.error .tokNotZero) ∧
      [0x28, 0x29, 0x2F, 0x38, 0x3F].map decodeWord = List.replicate 5 (.error .tokNotDirectional) :=
  ⟨rfl, rfl, rfl⟩

/-- The opcode table's numbering; program P5's words up to the illegal one. -/
theorem test_decode_streams :
    decodeTableWord 8 0x25 = some .pressNW ∧ decodeTableWord 8 0x28 = none ∧
      decodeAll [0x10, 0x28, 0x20] = ([.start], [0x28, 0x20]) ∧ encodeAll [.start, .releaseE] = [0x10, 0x32] :=
  ⟨rfl, rfl, rfl, rfl⟩

/-- A delivered word is the next step's instruction (log 20). -/
theorem test_step_runs_fetched_word :
    after (step (State.reset.withFetchWord 8 0x10)) (fun s => (s.phase, s.evq)) = some (.on, []) ∧
      after (step (on1.withFetchWord 8 0x23)) (fun s => (s.curTok, s.evq)) = some (.w, []) := by decide

/-! ### CLASSIFY (B5) -/

theorem test_classify_mask_contradictory :
    [0b0011#4, 0b1100#4, 0b1111#4, 0b0101#4, 0b0000#4].map classifyMask =
      [some .n, some .e, some .ne, some .ne, none] := rfl

/-- "n e", "xo", "no", "west", "nx", "X". -/
theorem test_classify_string :
    [[0x6E, 0x20, 0x65], [0x78, 0x6F], [0x6E, 0x6F], [0x77, 0x65, 0x73, 0x74], [0x6E, 0x78], [0x58]].map
      classifyString = [some .ne, some .stop, some .n, some .se, some .n, some .stop] := rfl

/-- "q": InvalidCommand with `f_info = 0` and no value. -/
theorem test_classify_invalid :
    after (exec (.classify (.raw [0x71])) { on1 with fInfo := 7, classifyOut := some .n })
      (fun s => (s.classifyOut, s.fInvalid, s.fCode, s.fInfo)) = some (none, true, 2, 0) := rfl

/-! ### ENCODE and TILE (B2, B3, B4, B6) -/

theorem test_encodeS_frame :
    after (exec .encodeS on1) (·.frame) = some (bits
      [1, 1, 1, 0, 1, 1, 1, 0, 1, 1, 1, 0, 1, 1, 1, 0, 1, 0, 1, 0, 1, 0, 1, 0, 1, 0, 1, 0, 1, 0, 1, 0, 1, 0, 1, 0]) :=
  rfl

/-- Lengths and HIGH samples of the eight directional frames at `N = 1`. -/
theorem test_encode_directional_counts :
    [exec .encodeN on1, exec .encodeS on1, exec .encodeE on1, exec .encodeW on1, exec .encodeNE on1,
      exec .encodeNW on1, exec .encodeSE on1, exec .encodeSW on1].map
        (fun o => after o fun s => (s.frameLen.toNat, s.frame.count .high)) =
      [some (96, 52), some (36, 22), some (144, 76), some (132, 70), some (108, 58), some (120, 64), some (84, 46),
        some (72, 40)] := by decide +kernel

theorem test_encodeStop_samples :
    after (exec .encodeStop on1) (fun s => (s.frameLen.toNat, s.frame.count .high,
      [0, 3, 16, 17, 23, 24, 359].map fun i => s.frame[i]?)) =
      some (360, 240, (bits [1, 0, 1, 0, 0, 1, 0]).map some) := by decide +kernel

theorem test_encodeIdle_frame :
    after (exec .encodeIdle on1) (·.frame) = some (bits [0, 0, 0, 0, 0, 0, 0, 0, 0, 0]) := rfl

/-- ENCODE.S at `N = 2`: `11111100` four times, then `1100` ten times. -/
theorem test_encode_scales :
    after (exec .encodeS { on1 with n := 2 }) (fun s => (s.frame.take 8, (s.frame.drop 32).take 4, s.frame.length)) =
      some (bits [1, 1, 1, 1, 1, 1, 0, 0], bits [1, 1, 0, 0], 72) := by decide +kernel

theorem test_tile_frame :
    after (exec .tile { on1 with frame := encodeSeq 1 .s, frameLen := 36 })
      (fun s => (s.frameLen.toNat, [36, 35, 143].map fun i => s.frame[i]?)) =
      some (144, (bits [1, 0, 0]).map some) := by decide +kernel

/-! ### MODULATE (B7) -/

/-- The correctly rounded reference at `F_OFFSET = SAMPLE_RATE / 8`, samples 0 to 3. -/
theorem test_reference_rounded :
    ([0, 1, 2, 3].map fun k => rn32 (reference .high 1000000 8000000 k).1).take 2 = [0x3F733333, 0x3F2BF7E7] ∧
      rn32 (reference .high 1000000 8000000 3).1 = 0xBF2BF7E7 ∧
      rn32 (reference .high 1000000 8000000 2).2 = 0x3F733333 := by decide +kernel

/-- A negative offset turns the phasor clockwise: `F_OFFSET = −2,000,000` at 8,000,000. -/
theorem test_phase_negative_offset :
    [0, 1, 2, 3].map (phaseNum (-2000000) 8000000) = [0, 6000000, 4000000, 2000000] := by decide

/-- The length is kept, and a LOW sample is a pair of zeros. -/
theorem test_modulate_low :
    after (exec (.modulate .stop) { on1 with frame := [.low, .low], frameLen := 2 })
      (fun s => (s.stopLen, s.stopBuf.length)) = some (2, 2) ∧
      ∀ c ∈ modulateSeq 500 2000 [.low], c.isZero := ⟨rfl, by simpa [modulateSeq] using mixSample_low 500 2000 0⟩

/-! ### WRITE (B9) -/

/-- `L = 10`, answers 4, 1, 5: three calls, all of the buffer. -/
theorem test_write_chunks :
    after (exec (.write .tx) { on1 with radioAnswers := [4, 1, 5, 9] })
      (fun s => (s.wrRes, s.wrOff, s.air, s.radioLog.length, s.radioAnswers)) =
      some (.ok, 10, (List.range 10).map mark, 3, [9]) := by decide

/-- `L = 10`, answers 4, −1 and 4, 7: the prefix of four, StreamWriteFailure with the answer. -/
theorem test_write_fails :
    after (exec (.write .tx) { on1 with radioAnswers := [4, -1] })
      (fun s => (s.wrRes, s.wrOff, s.air, s.fWrite, s.fCode, s.fInfo)) =
      some (.fail, 4, (List.range 4).map mark, true, 3, -1) ∧
      after (exec (.write .tx) { on1 with radioAnswers := [4, 7] })
        (fun s => (s.wrRes, s.wrOff, s.fInfo)) = some (.fail, 4, 7) := ⟨rfl, rfl⟩

/-! ### START, END and dispatch (B10, B11) -/

theorem test_start_on :
    after (exec .start State.reset) (fun s => (s.phase, s.n, s.fOffset, s.sch)) = some (.on, 1, 500, .idle) ∧
      after (exec .start State.reset) (fun s => (s.txLen, s.stopLen, s.tmrArmed, s.tmrDelay)) =
        some (10, 360, true, 15000) := by decide +kernel

theorem test_start_configuration_error :
    after (exec .start { State.reset with sampleRate := 44100, fWrite := true })
      (fun s => (s.phase, s.fConfig, s.fWrite, s.fCode, s.fInfo, s.radioLog)) =
      some (.off, true, false, 1, 100, []) ∧
      after (exec .start { State.reset with sampleRate := 1999 }) (·.fInfo) = some 1999 := ⟨rfl, rfl⟩

theorem test_dispatch_illegal :
    after (dispatch 0x39 on1) (fun s => (s.fInvalid, s.fCode, s.fInfo, s.tmrArmed)) = some (true, 2, 0x39, true) ∧
      dispatch 0xFF State.reset = .next State.reset ∧ dispatch 0x10 on1 = .next on1 := ⟨rfl, rfl, rfl⟩

theorem test_end_closes :
    after (exec .endSession moving1) (fun s => (s.phase, s.tmrArmed, s.radioLog, s.air)) =
      some (.off, false, [.deactivateStream, .closeStream], []) := rfl

/-! ### PRESS, RELEASE and TICK (B12) -/

/-- S with the letter n held, NW with s held, SW from IDLE. -/
theorem test_press_letters :
    after (exec .pressS moving1) (fun s => (s.held, s.curTok, s.txLen)) = some (0b0011#4, .n, 384) ∧
      after (exec .pressNW { moving1 with held := 0b0010#4, curTok := .s }) (fun s => (s.held, s.curTok, s.txLen)) =
        some (0b1011#4, .nw, 480) ∧
      after (exec .pressSW on1) (fun s => (s.sch, s.held, s.curTok, s.txLen)) =
        some (.moving, 0b1010#4, .sw, 288) := by decide +kernel

/-- RELEASE W of a forward motion: the STOP buffer in two calls, then IDLE. -/
theorem test_release_sends_stop :
    after (exec .releaseW { moving1 with radioAnswers := [2, 3] })
      (fun s => (s.sch, s.held, s.curTok, s.txLen, s.tmrArmed, s.tmrDelay, s.air)) =
      some (.idle, 0b0000#4, .idle, 10, true, 15000, (List.range 5).map mark) ∧
      exec .releaseW on1 = .next on1 := ⟨rfl, rfl⟩

theorem test_tick_sends_and_rearms :
    after (exec .tick { moving1 with radioAnswers := [10] })
      (fun s => (s.tmrArmed, s.tmrDelay, s.sch, s.air)) = some (true, 2000, .moving, (List.range 10).map mark) ∧
      after (exec .tick { moving1 with radioAnswers := [3, 0] })
        (fun s => (s.tmrArmed, s.fWrite, s.air)) = some (false, true, (List.range 3).map mark) := by decide

theorem test_turns_order :
    after (step { on1 with evq := [0x40], turns := [.command], radioAnswers := [10] }) (·.phase) = some .off ∧
      after (step { on1 with evq := [0x40], turns := [.tick], radioAnswers := [10] })
        (fun s => (s.phase, s.evq, s.air.length)) = some (.on, [0x40], 10) := by decide

/-! ### Witnesses: for every obligation with hypotheses, a state and operands that meet them all -/

/-- CommandStreamsRoundTrip, both parts. -/
theorem witness_command_streams :
    (∀ i ∈ [Instr.start, .pressN, .endSession], i.wellFormed = true) ∧
      decodeAll [0x10, 0x27, 0x30, 0x40] = ([.start, .pressSW, .releaseN, .endSession], []) := ⟨by decide, rfl⟩

/-- DispatchFollowsPhase: both phases, and words at the ends of every clause. -/
theorem witness_dispatch :
    State.reset.phase = .off ∧ on1.phase = .on ∧
      (∃ p ∈ pressInstrs, (0x20 : Byte).toNat = 0x20 + p.2.code.toNat) ∧
      (∃ p ∈ pressInstrs, (0x27 : Byte).toNat = 0x20 + p.2.code.toNat) ∧
      (∃ p ∈ releaseInstrs, (0x30 : Byte).toNat = 0x30 + p.2.code.toNat) ∧
      (∃ p ∈ releaseInstrs, (0x37 : Byte).toNat = 0x30 + p.2.code.toNat) ∧
      legalWord 0x28 = false ∧ legalWord 0x38 = false ∧ legalWord 0x1F = false ∧ legalWord 0x41 = false := by decide

/-- IllegalWordRaisesInvalidCommand: each class, at its ends. -/
theorem witness_illegal_words :
    on1.phase = .on ∧ (∀ cw ∈ ([0x00, 0x0F] : List Byte), cw.toNat / 16 = 0) ∧
      (∀ cw ∈ ([0x50, 0xFF] : List Byte), 5 ≤ cw.toNat / 16) ∧
      (∀ cw ∈ ([0x11, 0x1F, 0x41, 0x4F] : List Byte),
        (cw.toNat / 16 = 1 ∨ cw.toNat / 16 = 4) ∧ cw.toNat % 16 ≠ 0) ∧
      (∀ cw ∈ ([0x28, 0x2F, 0x38, 0x3F] : List Byte),
        (cw.toNat / 16 = 2 ∨ cw.toNat / 16 = 3) ∧ 8 ≤ cw.toNat % 16) := by decide

/-- DroppedWordsChangeNothing, both parts. -/
theorem witness_dropped_words : on1.phase = .on ∧ State.reset.phase = .off ∧ (Instr.pressN, Token.n) ∈ pressInstrs ∧
    (Instr.releaseSW, Token.sw) ∈ releaseInstrs := by decide

/-- StepRunsTheDecodedInstruction and TickAndCommandInEitherOrder, every clause. -/
theorem witness_step_choices :
    (tickEnabled { State.reset with evq := [0x10] } = false ∧ decodeWord 0x10 = .ok .start) ∧
      (tickEnabled { on1 with evq := [0x20], turns := [.command] } = true ∧ decodeWord 0x20 = .ok .pressN) ∧
      tickEnabled { on1 with evq := [0x20], turns := [.tick] } = true ∧
      (tickEnabled { on1 with evq := [0x20] } = true ∧ on1.turns = []) ∧
      (tickEnabled on1 = true ∧ on1.evq = []) ∧ (tickEnabled State.reset = false ∧ State.reset.evq = []) :=
  ⟨⟨rfl, rfl⟩, ⟨rfl, rfl⟩, rfl, ⟨rfl, rfl⟩, ⟨rfl, rfl⟩, ⟨rfl, rfl⟩⟩

/-- CommandQueueIsFirstInFirstOut, StepKeepsFaultRecord and NoTransmissionOutsideSession: reset waits, and
takes START. -/
theorem witness_reset_steps :
    State.reset.phase = .off ∧ step State.reset = .next State.reset ∧ FaultRecordInv State.reset ∧
      step { State.reset with evq := [0x10] } = .next started := by
  refine ⟨rfl, rfl, ?_, rfl⟩
  unfold FaultRecordInv
  decide

/-- StartRunsItsSteps and StartRefusesFractionalRate: the ends of both clauses (B10). -/
theorem witness_start :
    State.reset.phase = .off ∧ radioAlive State.reset ∧
      (2000 ≤ (2000#32).toNat ∧ (2000#32).toNat % 2000 = 0) ∧
      (2000 ≤ (4294966000#32).toNat ∧ (4294966000#32).toNat % 2000 = 0) ∧
      (0#32).toNat < 2000 ∧ (1999#32).toNat < 2000 ∧ (44100#32).toNat % 2000 ≠ 0 := by
  refine ⟨rfl, rfl, ?_⟩
  simp

/-- EndClosesTheSession and PressRebuildsAndArms (also at the largest `N`), PressesComposeBeforeTick (with a
TICK between the presses that ends OK). -/
theorem witness_session :
    on1.phase = .on ∧ radioAlive on1 ∧ on1.held = 0 ∧ on1.n.toNat ≤ maxUnit ∧
      ({ on1 with n := 2147483 } : State).n.toNat ≤ maxUnit ∧ (Instr.pressSW, Token.sw) ∈ pressInstrs := by
  refine ⟨rfl, rfl, rfl, by decide, Nat.le_refl 2147483, by decide⟩

/-- PressesComposeBeforeTick: the TICK between the presses. -/
theorem witness_tick_between :
    (after (exec .tick (pressHandler .n { on1 with radioAnswers := [384] })) (·.wrRes)) = some .ok := by
  decide +kernel

/-- ReleaseOutsideMovingDoesNothing: IDLE, and STOPPING. -/
theorem witness_release_outside : on1.phase = .on ∧ on1.sch ≠ .moving ∧
    ({ on1 with sch := .stopping } : State).sch ≠ .moving ∧ (Instr.releaseN, Token.n) ∈ releaseInstrs := by decide

/-- Answers 4 and 1 leave five of ten samples; a last 5 leaves none; 10 at once leaves none. -/
theorem witness_accepting :
    Accepting [4, 1] 10 5 ∧ Accepting [4, 1, 5] 10 0 ∧ Accepting [10] 10 0 ∧ Accepting [] 10 10 ∧ Accepting [] 0 0 ∧
      Accepting [5] 5 0 ∧ Accepting [1, 1, 1, 1, 1] 5 0 ∧ Accepting [2] 5 3 := by
  refine ⟨⟨by decide, by decide, rfl⟩, ⟨by decide, by decide, by decide, rfl⟩, ⟨by decide, rfl⟩, rfl, rfl,
    ⟨by decide, rfl⟩, ⟨by decide, by decide, by decide, by decide, by decide, rfl⟩, ⟨by decide, rfl⟩⟩

/-- ReleaseSendsStopOnceAndIdles: a RELEASE whose STOP write is taken, and one whose write fails. -/
theorem witness_release :
    moving1.phase = .on ∧ moving1.sch = .moving ∧ moving1.wr = .idle ∧ radioAlive moving1 ∧
      moving1.n.toNat ≤ maxUnit ∧ moving1.stopLen.toNat = moving1.stopBuf.length ∧ moving1.stopBuf.length = 5 ∧
      ({ moving1 with radioAnswers := [5, 9] } : State).radioAnswers = [5] ++ [9] ∧
      after (exec .releaseN { moving1 with radioAnswers := [2, 0] }) (·.wrRes) = some .fail :=
  ⟨rfl, rfl, rfl, rfl, by decide, rfl, rfl, rfl, rfl⟩

/-- TickSendsBufferAndRearms and TickFirstAddsOneTransmission: a TICK that is taken, one that fails, and a PRESS
before and after it. -/
theorem witness_tick :
    tickEnabled on1 = true ∧ on1.wr = .idle ∧ radioAlive on1 ∧ on1.txLen.toNat = on1.txBuf.length ∧
      on1.txBuf.length = 10 ∧ ({ on1 with radioAnswers := [4, 1, 5, 9] } : State).radioAnswers = [4, 1, 5] ++ [9] ∧
      after (exec .tick { on1 with radioAnswers := [0] }) (·.wrRes) = some .fail ∧
      ∃ u v t, exec .tick { on1 with radioAnswers := [10] } = .next u ∧ u.wrRes = .ok ∧ exec .pressN u = .next v ∧
        exec .pressN { on1 with radioAnswers := [10] } = .next t :=
  ⟨rfl, rfl, rfl, rfl, rfl, rfl, rfl, _, _, _, rfl, rfl, rfl, rfl⟩

/-- RefusedWriteHaltsRetransmission: an answer of 0 or less, or of more than is left; then a PRESS, and a
RELEASE, that arm the timer again, and a START. -/
theorem witness_refused_write :
    ([0, -1, 6, 0x80000000].map fun r => answerAccepts r 5) = [false, false, false, false] ∧
      ({ moving1 with radioAnswers := [4, 1, 0, 7] } : State).radioAnswers = [4, 1] ++ 0 :: [7] ∧
      moving1.tmrArmed = true ∧ State.reset.tmrArmed = false ∧
      after (exec .pressN { on1 with tmrArmed := false }) (·.tmrArmed) = some true ∧
      after (exec .releaseN { moving1 with tmrArmed := false, radioAnswers := [5] }) (·.tmrArmed) = some true ∧
      after (exec .start State.reset) (·.tmrArmed) = some true := by decide +kernel

/-- StopsHaveNoStep, every clause. -/
theorem witness_stops :
    tickEnabled State.reset = false ∧ ({ on1 with wr := .busy } : State).wr = .busy ∧
      tickEnabled { on1 with wr := .busy } = true ∧ on1.txLen ≠ 0 ∧ bufLen .stop on1 ≠ 0 ∧
      ({ on1 with radioHangAt := some 0 } : State).radioHangAt = some on1.radioLog.length ∧
      rateValid State.reset.sampleRate.toNat 2000 = true :=
  ⟨rfl, rfl, rfl, by decide, by decide, rfl, rfl⟩

/-- ClassifyStringFollowsLetters: the mask of "wEz", and the empty mask with `x`, with `o`, with neither. -/
theorem witness_classify_string :
    (holdsLetter 0x77 0x57 [0x77, 0x45, 0x7A] ∧ holdsLetter 0x65 0x45 [0x77, 0x45, 0x7A] ∧
      ¬holdsLetter 0x6E 0x4E [0x77, 0x45, 0x7A] ∧ ¬holdsLetter 0x73 0x53 [0x77, 0x45, 0x7A] ∧
      classifyMask 0b1100#4 = some .e) ∧
      classifyMask 0b0000#4 = none ∧ holdsLetter 0x78 0x58 [0x58, 0x6F] ∧
      (¬holdsLetter 0x78 0x58 [0x6F] ∧ holdsLetter 0x6F 0x4F [0x6F]) ∧ ¬holdsLetter 0x6F 0x4F [0x71] := by
  unfold holdsLetter
  decide

/-- ClassifyIgnoresOrderAndMisreadsWords: "ne" and "en". -/
theorem witness_classify_order : ([0x6E, 0x65] : List Byte).Perm [0x65, 0x6E] := by decide

/-- The ENCODE statements: `N = 1` and the largest `N`; the first and the last sample of the longest and the
shortest frame; the reserved codes' ends. -/
theorem witness_encode :
    on1.n.toNat ≤ maxUnit ∧ 1 ≤ on1.n.toNat ∧ (2147483 : BitVec 32).toNat ≤ maxUnit ∧
      (tokenCount .e = some 64 ∧ 143 < 16 * 1 + 64 * (2 * 1)) ∧ (tokenCount .s = some 10 ∧ 35 < 16 * 1 + 10 * (2 * 1)) ∧
      (10 ≤ (10 : BitVec 4).toNat ∧ 10 ≤ (15 : BitVec 4).toNat) ∧
      (isDirectional .n = true ∧ isDirectional .sw = true ∧ Token.n ≠ .sw) := by decide

/-- FrameRunsAreBounded: the last index of each of its ranges, for ENCODE.S at `N = 1`. -/
theorem witness_frame_runs :
    32 + 3 * 1 < (encodeSeq 1 .s).length ∧ 34 + 1 < (encodeSeq 1 .s).length ∧
      107 + (encodeSeq 1 .s).length < 4 * (encodeSeq 1 .s).length ∧ Token.s ≠ .idle := by decide

/-- TileRepeatsFrameFourTimes, ModulateKeepsLengthAndSilence and OversizedFramesStop: a frame that just fits,
the longest frame there is, and one that does not fit. -/
theorem witness_capacity :
    4 * (encodeSeq 1 .e).length ≤ 576 * on1.n.toNat ∧ (encodeSeq 1 .stop).length ≤ bufCapUnits .stop * on1.n.toNat ∧
      576 * on1.n.toNat < 4 * (List.replicate 145 Level.low).length ∧
      576 * on1.n.toNat < (List.replicate 577 Level.low).length ∧
      360 * on1.n.toNat < (List.replicate 361 Level.low).length := by decide +kernel

/-- ModulatedHighSamplesAreAccurate, and the clauses of ModulateKeepsLengthAndSilence on a sample: a frame
of one HIGH and one LOW sample, and a second state with the same level at 0. -/
theorem witness_modulate :
    0 < on1.sampleRate.toNat ∧
      (∃ t c, exec (.modulate .tx) { on1 with frame := [.high, .low], frameLen := 2 } = .next t ∧
        (bufSamples .tx t)[0]? = some c ∧ ([.high, .low] : List Level)[0]? = some .high) ∧
      (∃ t c, exec (.modulate .stop) { on1 with frame := [.high, .low], frameLen := 2 } = .next t ∧
        (bufSamples .stop t)[1]? = some c ∧ ([.high, .low] : List Level)[1]? = some .low) ∧
      (∃ t, exec (.modulate .stop) { moving1 with frame := [.high], frameLen := 1 } = .next t) :=
  ⟨by decide, ⟨_, _, rfl, rfl, rfl⟩, ⟨_, _, rfl, rfl, rfl⟩, ⟨_, rfl⟩⟩

/-- The WRITE statements: an idle writer, a buffer with its length, answers that take it, that refuse it, and
an empty buffer; the same length in the other buffer. -/
theorem witness_write :
    on1.wr = .idle ∧ radioAlive on1 ∧ (bufLen .tx on1).toNat = (bufSamples .tx on1).length ∧
      (bufLen .stop on1).toNat = (bufSamples .stop on1).length ∧
      ((0 : BitVec 32).toInt ≤ 0 ∧ ((5 : Nat) : Int) < (6 : BitVec 32).toInt ∧ (0x80000000 : BitVec 32).toInt ≤ 0) ∧
      (bufLen .tx { on1 with txLen := 0 }).toNat = 0 ∧
      bufLen .stop { on1 with stopLen := 10 } = bufLen .tx on1 ∧
      (∃ t, exec (.write .tx) { on1 with radioAnswers := [10] } = .next t ∧ t.wrRes = .ok) ∧
      (∃ t, exec (.write .tx) { on1 with radioAnswers := [0] } = .next t ∧ t.wrRes = .fail) :=
  ⟨rfl, rfl, rfl, rfl, by decide, rfl, rfl, ⟨_, rfl, rfl⟩, ⟨_, rfl, rfl⟩⟩

/-- AirGrowsByAcceptedPrefix, ConfigurationNeverChanges, FaultFlagsAreSticky and BuffersAreReadOnlyOnceBuilt:
instructions of every clause that answer a next state, with a flag set. -/
theorem witness_frames :
    (∃ t, exec .pressN { on1 with fWrite := true } = .next t ∧ t.phase = .on) ∧
      (∃ t, exec .start { on1 with fConfig := true } = .next t) ∧
      (∃ t, exec .endSession { on1 with fInvalid := true } = .next t) ∧
      (∃ t, exec .encodeS on1 = .next t) ∧ (∃ t, exec .tick { on1 with radioAnswers := [10] } = .next t) ∧
      (Instr.encodeS ≠ .start ∧ Instr.encodeS ≠ .tick ∧ Instr.encodeS ≠ .endSession) :=
  ⟨⟨_, rfl, rfl⟩, ⟨_, rfl⟩, ⟨_, rfl⟩, ⟨_, rfl⟩, ⟨_, rfl⟩, by decide⟩

theorem started_stopBuf : started.stopBuf = stopBuffer started := by
  unfold started
  rw [beginSession_spec]
  simp only [stopBuffer, modulated, encodeSeq]

/-- StepKeepsSessionInvariants, StepKeepsMemoryForm and IdleTransmitsOnlySilence: the session that START opens
meets the invariants, is in IDLE, has its buffers in form, and steps. -/
theorem witness_session_invariants :
    started.phase = .on ∧ started.sch = .idle ∧ CoreInv started ∧ Memory.wf started = true ∧
      after (step (started.withFetchWord 8 0x20)) (·.sch) = some .moving := by
  refine ⟨rfl, rfl, fun _ => ⟨by decide +kernel, rfl, by decide +kernel, by decide +kernel, by decide +kernel,
    fun _ => rfl, fun _ => ⟨rfl, rfl⟩, by decide +kernel, fun h => ?_, fun h => ?_, fun _ => rfl, rfl,
    ⟨started_stopBuf, by decide +kernel⟩⟩, by decide +kernel, by decide +kernel⟩
  · cases h
  · cases h

end Sys2Proof.Tests
end

section
/-! The air and the writer (20_memory R59): what one WRITE puts on the air, and that no instruction but START,
TICK, RELEASE and WRITE touches it. -/

namespace Sys2Proof.Machine

/-! ### The air across the rounds of a WRITE -/

/-- The state at the head of a round of WRITE on the buffer `b`: the length register is the buffer's length, and
the offset stands inside the buffer or at its end (43_writer R202 to R204). -/
structure Writing (b : List C32) (s : State) : Prop where
  samples : bufSamples s.wrSrc s = b
  length : s.wrLen.toNat = b.length
  offset_le : s.wrOff.toNat ≤ b.length

/-- A WRITE of `b` that went on from `s` and ended in `t`: the air has grown by the samples between the two
offsets, and the result is OK exactly where none is left (R59). -/
structure SentSlice (b : List C32) (s t : State) : Prop where
  offset_mono : s.wrOff.toNat ≤ t.wrOff.toNat
  offset_le : t.wrOff.toNat ≤ b.length
  air : t.air = s.air ++ (b.drop s.wrOff.toNat).take (t.wrOff.toNat - s.wrOff.toNat)
  ok_iff : t.wrRes = .ok ↔ t.wrOff.toNat = b.length

theorem Writing.remaining_eq {b : List C32} {s : State} (h : Writing b s) :
    remaining s = b.length - s.wrOff.toNat := by
  rw [remaining, h.length]

/-- What the radio is offered is the rest of the buffer. -/
theorem Writing.offeredSlice_offer {b : List C32} {s : State} (h : Writing b s) :
    offeredSlice (offer s) = b.drop s.wrOff.toNat := by
  have hb : bufSamples (offer s).wrSrc (offer s) = b := h.samples
  rw [offeredSlice, hb, offer_wrLen, offer_wrOff, h.length, List.take_length]

/-- An accepting answer does not wrap the offset. -/
theorem Writing.accept_offset {b : List C32} {s : State} (h : Writing b s) {r : BitVec 32}
    (hr : answerAccepts r (remaining s) = true) : (s.wrOff + r).toNat = s.wrOff.toNat + r.toNat := by
  have hle := (answerAccepts_toNat hr).2
  have hlt := s.wrLen.isLt
  rw [h.remaining_eq] at hle
  rw [h.length] at hlt
  have hoff := h.offset_le
  rw [BitVec.toNat_add, Nat.mod_eq_of_lt (by omega)]

theorem Writing.accept {b : List C32} {s : State} (h : Writing b s) {r : BitVec 32}
    (hr : answerAccepts r (remaining s) = true) : Writing b (acceptAnswer r (offer s)) where
  samples := h.samples
  length := h.length
  offset_le := by
    have hle := (answerAccepts_toNat hr).2
    have hoff := h.offset_le
    rw [h.remaining_eq] at hle
    rw [acceptAnswer_wrOff, offer_wrOff, h.accept_offset hr]
    omega

/-- An accepted round and the slice sent after it make one slice. -/
theorem SentSlice.of_accept {b : List C32} {s t : State} {r : BitVec 32} (hs : Writing b s)
    (hr : answerAccepts r (remaining s) = true) (h : SentSlice b (acceptAnswer r (offer s)) t) :
    SentSlice b s t := by
  have hacc := hs.accept_offset hr
  obtain ⟨hmono, hle, hair, hok⟩ := h
  simp only [acceptAnswer_wrOff, offer_wrOff, acceptAnswer_air, offer_air, hs.offeredSlice_offer, hacc] at hmono hair
  refine ⟨by omega, hle, ?_, hok⟩
  have hk : t.wrOff.toNat - s.wrOff.toNat = r.toNat + (t.wrOff.toNat - (s.wrOff.toNat + r.toNat)) := by omega
  rw [hair, hk, List.take_add, List.drop_drop, List.append_assoc]

/-- A WRITE that ends where it stands has sent nothing more. -/
theorem SentSlice.of_stop {b : List C32} {s t : State} (hs : Writing b s) (hoff : t.wrOff = s.wrOff)
    (hair : t.air = s.air) (hok : t.wrRes = .ok ↔ s.wrOff.toNat = b.length) : SentSlice b s t := by
  refine ⟨?_, ?_, ?_, ?_⟩ <;> simp [hoff, hair, hok, hs.offset_le]

/-- Every end of the loop: the rounds before it sent the slice up to its offset. The fuel suffices, so the loop
never runs out of it with samples left (R209). -/
theorem writeLoop_sentSlice {b : List C32} {fuel : Nat} {s t : State} (hs : Writing b s)
    (hfuel : b.length - s.wrOff.toNat ≤ fuel) (h : writeLoop fuel s = .next t) : SentSlice b s t := by
  induction fuel generalizing s with
  | zero =>
    obtain rfl := Host.Outcome.next.inj h
    have := hs.offset_le
    exact .of_stop hs rfl rfl (iff_of_true rfl (by omega))
  | succ fuel ih =>
    unfold writeLoop at h
    have hlen := hs.length
    have hle := hs.offset_le
    split_ifs at h with hlt hret hacc
    · have hpos := (answerAccepts_toNat hacc).1
      refine .of_accept hs hacc (ih (hs.accept hacc) ?_ h)
      rw [acceptAnswer_wrOff, offer_wrOff, hs.accept_offset hacc]
      omega
    · obtain rfl := Host.Outcome.next.inj h
      exact .of_stop hs rfl rfl (iff_of_false (by simp) (by omega))
    · obtain rfl := Host.Outcome.next.inj h
      exact .of_stop hs rfl rfl (iff_of_true rfl (by omega))

/-- A WRITE that begins on a buffer with its length is at the head of its first round (R202). -/
theorem writing_beginWrite {src : BufSel} {s : State} (hlen : (bufLen src s).toNat = (bufSamples src s).length) :
    Writing (bufSamples src s) (beginWrite src s) where
  samples := by cases src <;> rfl
  length := hlen
  offset_le := Nat.zero_le _

theorem writeOp_sentSlice {src : BufSel} {s t : State} (hlen : (bufLen src s).toNat = (bufSamples src s).length)
    (h : writeOp src s = .next t) : SentSlice (bufSamples src s) (beginWrite src s) t := by
  unfold writeOp at h
  split at h
  · cases h
  · exact writeLoop_sentSlice (writing_beginWrite hlen) (by rw [hlen]; exact Nat.sub_le _ _) h

/-! ### The instructions that leave the air alone -/

theorem mem_releaseInstrs_of_releaseOf {p : Token} {i : Instr} (h : releaseOf p = some i) :
    (i, p) ∈ releaseInstrs := by
  cases p <;> cases h <;> decide

theorem modulateInto_air (dst : BufSel) (s : State) : (modulateInto dst s).air = s.air := by
  cases dst <;> rfl

theorem pressHandler_air {p : Token} (hp : isDirectional p = true) (s : State) :
    (pressHandler p s).air = s.air := by
  obtain ⟨d, -, -, h⟩ := pressHandler_spec p hp s
  rw [h]

theorem exec_air_of_not_sending {i : Instr} {s t : State} (h : exec i s = .next t) (hstart : i ≠ .start)
    (htick : i ≠ .tick) (hwrite : ∀ src, i ≠ .write src) (hrelease : ∀ p ∈ releaseInstrs, i ≠ p.1) :
    t.air = s.air := by
  cases exec_next h with
  | unchanged _ h => rw [h]
  | configError hi => exact absurd hi hstart
  | started hi => exact absurd hi hstart
  | pressed p _ _ hp h => rw [h, pressHandler_air hp]
  | released p hi => exact absurd rfl (hrelease _ (mem_releaseInstrs_of_releaseOf hi))
  | ended _ _ h => rw [h]; rfl
  | ticked hi => exact absurd hi htick
  | classified _ _ _ h => rcases h with rfl | rfl <;> rfl
  | encoded _ _ _ h => rw [h, encodeFrame_air]
  | tiled _ h => rw [h, tileFrame_air]
  | mixed b _ h => rw [h, modulateInto_air]
  | wrote b hi => exact absurd hi (hwrite b)

/-- Settles O42: the loop's rounds send consecutive slices from offset 0, and by the inversion of `exec` no
other instruction but START, TICK and RELEASE reaches the air. -/
theorem airGrowsByAcceptedPrefix : Obligations.AirGrowsByAcceptedPrefix := by
  refine ⟨fun src s t hlen h => ?_, fun i s t h hstart htick hwrite hrelease =>
    exec_air_of_not_sending h hstart htick hwrite hrelease⟩
  obtain ⟨-, hle, hair, hok⟩ := writeOp_sentSlice hlen h
  exact ⟨by simpa using hair, hle, hok⟩

end Sys2Proof.Machine
end

section
/-! The encodings (30_encoding): the command words of R75 and the closed form of a directional frame (R79). -/

namespace Sys2Proof.Laws.RoundTrip

/-- The round trip of each instruction, as one statement about all of them (R75, R77). -/
theorem statement_all : ∀ i : Instr, Statement i
  | .start => start | .endSession => endSession | .tick => tick
  | .pressN => pressN | .pressS => pressS | .pressE => pressE | .pressW => pressW
  | .pressNE => pressNE | .pressNW => pressNW | .pressSE => pressSE | .pressSW => pressSW
  | .releaseN => releaseN | .releaseS => releaseS | .releaseE => releaseE | .releaseW => releaseW
  | .releaseNE => releaseNE | .releaseNW => releaseNW | .releaseSE => releaseSE | .releaseSW => releaseSW
  | .encodeN => encodeN | .encodeS => encodeS | .encodeE => encodeE | .encodeW => encodeW
  | .encodeNE => encodeNE | .encodeNW => encodeNW | .encodeSE => encodeSE | .encodeSW => encodeSW
  | .encodeStop => encodeStop | .encodeIdle => encodeIdle
  | .classify input => classify input | .tile => tile | .modulate dst => modulate dst | .write src => write src

end Sys2Proof.Laws.RoundTrip

namespace Sys2Proof.Machine

/-! ### The command word -/

/-- The decoder inverts the encoder. -/
theorem decodeWord_of_encode {i : Instr} {cw : Byte} (h : encode i = some cw) : decodeWord cw = .ok i := by
  obtain ⟨hcommand, hinternal⟩ := Laws.RoundTrip.statement_all i
  cases hwf : i.wellFormed with
  | true =>
    obtain ⟨cw', hencode, hdecode⟩ := hcommand hwf
    obtain rfl : cw' = cw := Option.some.inj (hencode.symm.trans h)
    exact hdecode
  | false => exact absurd (h.symm.trans (hinternal hwf)) (Option.some_ne_none cw)

/-- Settles O2: the eighteen words are what their commands encode to, and the decoder inverts the encoder. -/
theorem commandWordsDecodeAndEncode : Obligations.CommandWordsDecodeAndEncode := by
  intro p hp
  have hencode : encode p.2 = some p.1 := by
    revert p
    decide
  exact ⟨decodeWord_of_encode hencode, hencode⟩

/-! ### The samples of a directional frame -/

/-- A tiled sequence is periodic: sample `i` is the sample of the tile at `i` modulo its length. -/
theorem tileSeq_getElem? {α : Type} (s : List α) {m i : Nat} (h : i < m * s.length) :
    (tileSeq s m)[i]? = s[i % s.length]? := by
  induction m generalizing i with
  | zero => simp at h
  | succ m ih =>
    have hcons : tileSeq s (m + 1) = s ++ tileSeq s m := by simp [tileSeq, List.replicate_succ]
    rw [hcons]
    by_cases hi : i < s.length
    · rw [List.getElem?_append_left hi, Nat.mod_eq_of_lt hi]
    · have hle : s.length ≤ i := by omega
      rw [Nat.succ_mul] at h
      rw [List.getElem?_append_right hle, ih (by omega), ← Nat.mod_eq_sub_mod hle]

/-- A pulse: `high` HIGH samples, then `low` LOW ones. -/
theorem pulse_getElem? {high low j : Nat} (h : j < high + low) :
    (List.replicate high Level.high ++ List.replicate low Level.low)[j]? =
      some (if j < high then .high else .low) := by
  split_ifs with hj
  · rw [List.getElem?_append_left (by simpa using hj), List.getElem?_replicate_of_lt hj]
  · rw [List.getElem?_append_right (by simpa using hj), List.length_replicate,
      List.getElem?_replicate_of_lt (by omega)]

theorem longBit_eq (u : Nat) : longBit u = List.replicate (3 * u) .high ++ List.replicate u .low := by
  simp only [longBit, longHigh, longLow, Nat.one_mul]

theorem shortBit_eq (u : Nat) : shortBit u = List.replicate u .high ++ List.replicate u .low := by
  simp only [shortBit, shortHigh, shortLow, Nat.one_mul]

/-- A `long` bit is HIGH for its first `3 u` samples (R104). -/
theorem longBit_getElem? {u j : Nat} (h : j < 4 * u) :
    (longBit u)[j]? = some (if j < 3 * u then .high else .low) := by
  rw [longBit_eq, pulse_getElem? (by omega)]

/-- A `short` bit is HIGH for its first `u` samples (R105). -/
theorem shortBit_getElem? {u j : Nat} (h : j < 2 * u) :
    (shortBit u)[j]? = some (if j < u then .high else .low) := by
  rw [shortBit_eq, pulse_getElem? (by omega)]

/-- The preamble of a directional frame: four `long` bits (R106). -/
theorem dirFrame_getElem?_preamble {u i : Nat} (c : Nat) (h : i < 16 * u) :
    (dirFrame u c)[i]? = some (if i % (4 * u) < 3 * u then .high else .low) := by
  have hi : i < preLong * (longBit u).length := by simp only [preLong, longBit_length]; omega
  rw [dirFrame, List.getElem?_append_left (by rwa [tileSeq_length]), tileSeq_getElem? _ hi, longBit_length,
    longBit_getElem? (Nat.mod_lt _ (by omega))]

/-- The address of a directional frame: `c` `short` bits after the preamble (R106). -/
theorem dirFrame_getElem?_address {u c i : Nat} (hle : 16 * u ≤ i) (h : i < 16 * u + c * (2 * u)) :
    (dirFrame u c)[i]? = some (if (i - 16 * u) % (2 * u) < u then .high else .low) := by
  have hpre : (tileSeq (longBit u) preLong).length = 16 * u := by
    simp only [tileSeq_length, preLong, longBit_length]; omega
  have hi : i - 16 * u < c * (shortBit u).length := by rw [shortBit_length]; omega
  have hu : 0 < u := Nat.pos_of_ne_zero (by rintro rfl; simp at h)
  rw [dirFrame, List.getElem?_append_right (by rwa [hpre]), hpre, tileSeq_getElem? _ hi, shortBit_length,
    shortBit_getElem? (Nat.mod_lt _ (by omega))]

/-- ENCODE of a directional token is the frame of its address (R107 to R114). -/
theorem encodeSeq_of_tokenCount {t : Token} {c : Nat} (h : tokenCount t = some c) (u : Nat) :
    encodeSeq u t = dirFrame u c := by
  cases t <;> cases h <;> rfl

/-- Settles O27: the frame is its preamble and its address, each a tiling of one pulse. -/
theorem directionalFrameClosedForm : Obligations.DirectionalFrameClosedForm := by
  intro t c u i ht hi
  rw [encodeSeq_of_tokenCount ht]
  refine ⟨dirFrame_length u c, ?_⟩
  by_cases hpre : i < 16 * u
  · rw [if_pos hpre, dirFrame_getElem?_preamble c hpre]
  · rw [if_neg hpre, dirFrame_getElem?_address (not_lt.mp hpre) hi]

end Sys2Proof.Machine
end

section
/-! CLASSIFY (40_encoder R101, R102): the letter flags of a string, and what `exec` answers. -/

namespace Sys2Proof.Machine

/-! ### The letters of a string -/

theorem hasLetter_iff {lower upper : Byte} {str : List Byte} :
    hasLetter lower upper str = true ↔ holdsLetter lower upper str := by
  simp only [hasLetter, holdsLetter, List.any_eq_true, Bool.or_eq_true, beq_iff_eq]

/-- A letter flag has the value of any bit that says whether the string holds the letter. -/
theorem hasLetter_eq {lower upper : Byte} {str : List Byte} {b : Bool}
    (h : b = true ↔ holdsLetter lower upper str) : hasLetter lower upper str = b :=
  Bool.eq_iff_iff.mpr (hasLetter_iff.trans h.symm)

theorem bitVec4_eq_of_bits (m : BitVec 4) :
    BitVec.ofBool (m.getLsbD 3) ++ BitVec.ofBool (m.getLsbD 2) ++ BitVec.ofBool (m.getLsbD 1)
      ++ BitVec.ofBool (m.getLsbD 0) = m := by
  revert m
  decide

/-- The held mask of a string is the one whose bits are the flags of `n`, `s`, `e` and `w` (R78, R102). -/
theorem maskOfString_eq {str : List Byte} {m : BitVec 4} (hn : m.getLsbD 0 = true ↔ holdsLetter 0x6E 0x4E str)
    (hs : m.getLsbD 1 = true ↔ holdsLetter 0x73 0x53 str) (he : m.getLsbD 2 = true ↔ holdsLetter 0x65 0x45 str)
    (hw : m.getLsbD 3 = true ↔ holdsLetter 0x77 0x57 str) : maskOfString str = m := by
  rw [maskOfString, hasLetter_eq hn, hasLetter_eq hs, hasLetter_eq he, hasLetter_eq hw]
  exact bitVec4_eq_of_bits m

/-! ### The chain of R102 -/

theorem classifyString_of_mask {str : List Byte} {d : Token} (h : classifyMask (maskOfString str) = some d) :
    classifyString str = some d := by
  simp only [classifyString, h]

theorem classifyString_of_mask_none {str : List Byte} (h : classifyMask (maskOfString str) = none) :
    classifyString str = if hasLetter 0x78 0x58 str then some .stop
      else if hasLetter 0x6F 0x4F str then some .idle else none := by
  simp only [classifyString, h]

/-! ### The instruction -/

theorem exec_classify_mask (m : BitVec 4) (s : State) :
    exec (.classify (.mask m)) s = .next { s with classifyOut := classifyMask m } := rfl

theorem exec_classify_raw (str : List Byte) (s : State) :
    exec (.classify (.raw str)) s = .next (classifyStringOp str s) := rfl

theorem exec_classify_raw_of_some {str : List Byte} {d : Token} (h : classifyString str = some d) (s : State) :
    exec (.classify (.raw str)) s = .next { s with classifyOut := some d } := by
  rw [exec_classify_raw, classifyStringOp, h]

theorem exec_classify_raw_of_none {str : List Byte} (h : classifyString str = none) (s : State) :
    exec (.classify (.raw str)) s =
      .next { s with classifyOut := none, fInvalid := true, fCode := 2, fInfo := 0 } := by
  rw [exec_classify_raw, classifyStringOp, h]
  rfl

/-- Settles O23: the mask of the statement is the string's own, and R102's chain goes through it, `x`, `o` and
the fault in turn. -/
theorem classifyStringFollowsLetters : Obligations.ClassifyStringFollowsLetters := by
  intro str s m hn hs he hw
  rw [← maskOfString_eq hn hs he hw]
  refine ⟨fun d hd => exec_classify_raw_of_some (classifyString_of_mask hd) s, fun hm => ?_⟩
  have hchain := classifyString_of_mask_none hm
  refine ⟨fun hx => exec_classify_raw_of_some ?_ s, fun hx ho => exec_classify_raw_of_some ?_ s,
    fun hx ho => exec_classify_raw_of_none ?_ s⟩
  · rw [hchain, if_pos (hasLetter_iff.mpr hx)]
  · rw [hchain, if_neg (mt hasLetter_iff.mp hx), if_pos (hasLetter_iff.mpr ho)]
  · rw [hchain, if_neg (mt hasLetter_iff.mp hx), if_neg (mt hasLetter_iff.mp ho)]

/-- Settles O22: the table is `classifyMask` on the sixteen masks. -/
theorem classifyMaskFollowsTable : Obligations.ClassifyMaskFollowsTable := by
  intro s p hp
  have hrow : classifyMask p.1 = p.2 := by
    revert p
    decide
  rw [exec_classify_mask, hrow]

end Sys2Proof.Machine
end

section
/-! The frames of the encoder (40_encoder R104 to R106): how many samples of a level a sequence holds, how often
it rises, and how it ends. -/

namespace Sys2Proof.Machine

/-! ### Counts of a level -/

theorem tileSeq_succ {α : Type} (f : List α) (m : Nat) : tileSeq f (m + 1) = f ++ tileSeq f m := by
  simp only [tileSeq, List.replicate_succ, List.flatten_cons]

@[simp] theorem tileSeq_count {α : Type} [BEq α] (a : α) (f : List α) (m : Nat) :
    (tileSeq f m).count a = m * f.count a := by
  simp only [tileSeq, List.count_flatten, List.map_replicate, List.sum_replicate, smul_eq_mul]

@[simp] theorem longBit_count_high (u : Nat) : (longBit u).count .high = 3 * u := by
  simp [longBit_eq, List.count_replicate]

@[simp] theorem longBit_count_low (u : Nat) : (longBit u).count .low = u := by
  simp [longBit_eq, List.count_replicate]

@[simp] theorem shortBit_count_high (u : Nat) : (shortBit u).count .high = u := by
  simp [shortBit_eq, List.count_replicate]

@[simp] theorem shortBit_count_low (u : Nat) : (shortBit u).count .low = u := by
  simp [shortBit_eq, List.count_replicate]

@[simp] theorem dirFrame_count_high (u c : Nat) : (dirFrame u c).count .high = (12 + c) * u := by
  simp only [dirFrame, preLong, List.count_append, tileSeq_count, longBit_count_high, shortBit_count_high]
  ring

@[simp] theorem dirFrame_count_low (u c : Nat) : (dirFrame u c).count .low = (4 + c) * u := by
  simp only [dirFrame, preLong, List.count_append, tileSeq_count, longBit_count_low, shortBit_count_low]
  ring

/-! ### Rising edges -/

/-- `f`, after LOW, has `e` rising edges and leaves the level LOW for whatever follows it. -/
def RisesThenLow (e : Nat) (f : List Level) : Prop :=
  ∀ g, risingEdges .low (f ++ g) = e + risingEdges .low g

theorem RisesThenLow.risingEdges_eq {e : Nat} {f : List Level} (h : RisesThenLow e f) : risingEdges .low f = e := by
  simpa [risingEdges] using h []

theorem RisesThenLow.append {e e' : Nat} {f f' : List Level} (h : RisesThenLow e f) (h' : RisesThenLow e' f') :
    RisesThenLow (e + e') (f ++ f') := by
  intro g
  rw [List.append_assoc, h, h', Nat.add_assoc]

theorem RisesThenLow.tile {e : Nat} {f : List Level} (h : RisesThenLow e f) (m : Nat) :
    RisesThenLow (m * e) (tileSeq f m) := by
  induction m with
  | zero => intro g; simp [tileSeq]
  | succ m ih =>
    rw [tileSeq_succ, Nat.succ_mul, Nat.add_comm]
    exact h.append ih

/-- A run at the level it begins from has no edge. -/
theorem risingEdges_replicate (l : Level) (k : Nat) (g : List Level) :
    risingEdges l (List.replicate k l ++ g) = risingEdges l g := by
  induction k with
  | zero => rfl
  | succ k ih => cases l <;> exact ih

/-- A pulse rises once. -/
theorem risesThenLow_pulse {high low : Nat} (hh : 0 < high) (hl : 0 < low) :
    RisesThenLow 1 (List.replicate high .high ++ List.replicate low .low) := by
  intro g
  obtain ⟨high, rfl⟩ := Nat.exists_eq_add_one.mpr hh
  obtain ⟨low, rfl⟩ := Nat.exists_eq_add_one.mpr hl
  calc risingEdges .low (List.replicate (high + 1) .high ++ List.replicate (low + 1) .low ++ g)
      = 1 + risingEdges .high (List.replicate high .high ++ (List.replicate (low + 1) .low ++ g)) := by
        rw [List.append_assoc]; rfl
    _ = 1 + risingEdges .high (List.replicate (low + 1) .low ++ g) := by rw [risingEdges_replicate]
    _ = 1 + risingEdges .low (List.replicate low .low ++ g) := rfl
    _ = 1 + risingEdges .low g := by rw [risingEdges_replicate]

theorem risesThenLow_longBit {u : Nat} (hu : 1 ≤ u) : RisesThenLow 1 (longBit u) := by
  rw [longBit_eq]
  exact risesThenLow_pulse (by omega) hu

theorem risesThenLow_shortBit {u : Nat} (hu : 1 ≤ u) : RisesThenLow 1 (shortBit u) := by
  rw [shortBit_eq]
  exact risesThenLow_pulse hu hu

/-- A directional frame rises once in each of its bits (R106). -/
theorem risesThenLow_dirFrame {u : Nat} (c : Nat) (hu : 1 ≤ u) : RisesThenLow (4 + c) (dirFrame u c) := by
  have h := ((risesThenLow_longBit hu).tile preLong).append ((risesThenLow_shortBit hu).tile c)
  rwa [Nat.mul_one, Nat.mul_one] at h

/-! ### The end of a frame -/

theorem suffix_tileSeq {α : Type} (f : List α) {m : Nat} (hm : 0 < m) : f <:+ tileSeq f m := by
  obtain ⟨m, rfl⟩ := Nat.exists_eq_add_one.mpr hm
  refine ⟨tileSeq f m, ?_⟩
  simp only [tileSeq, List.replicate_succ', List.flatten_append, List.flatten_singleton]

theorem low_suffix_longBit (u : Nat) : List.replicate u .low <:+ longBit u := by
  rw [longBit_eq]
  exact List.suffix_append _ _

theorem low_suffix_shortBit (u : Nat) : List.replicate u .low <:+ shortBit u := by
  rw [shortBit_eq]
  exact List.suffix_append _ _

/-- A directional frame ends LOW, with its last `short` bit, or its last `long` bit where it has no other
(R106). -/
theorem low_suffix_dirFrame (u c : Nat) : List.replicate u .low <:+ dirFrame u c := by
  rcases Nat.eq_zero_or_pos c with rfl | hc
  · have hnil : dirFrame u 0 = tileSeq (longBit u) preLong := List.append_nil _
    rw [hnil]
    exact (low_suffix_longBit u).trans (suffix_tileSeq _ (by decide))
  · exact ((low_suffix_shortBit u).trans (suffix_tileSeq _ hc)).trans (List.suffix_append _ _)

theorem dirFrame_drop (u c : Nat) :
    (dirFrame u c).drop ((dirFrame u c).length - u) = List.replicate u .low := by
  simpa using (List.suffix_iff_eq_drop.mp (low_suffix_dirFrame u c)).symm

/-- Settles O26: the counts, the edges and the end of a frame follow from those of its pulses. -/
theorem directionalFrameShape : Obligations.DirectionalFrameShape := by
  intro u c hu
  refine ⟨longBit_eq u, longBit_length u, shortBit_eq u, shortBit_length u, rfl, ?_, dirFrame_count_high u c,
    dirFrame_count_low u c, (risesThenLow_dirFrame c hu).risingEdges_eq, dirFrame_drop u c⟩
  rw [dirFrame_length]
  ring

end Sys2Proof.Machine
end

section
/-! The ENCODE operations (40_encoder R107 to R117): each is `encodeFrame` of its token, which writes FRAME with
its length register and nothing else. -/

namespace Sys2Proof.Machine

/-! ### What `encodeFrame` writes -/

/-- `FRAME <- ENCODE(tok)` writes FRAME and its length register (R100). -/
theorem encodeFrame_frame_only (d : Token) (s : State) :
    encodeFrame d s = { s with frame := (encodeFrame d s).frame, frameLen := (encodeFrame d s).frameLen } := rfl

/-- The length register holds a frame's length, under R55's bound on `N`. -/
theorem encodeFrame_frameLen_toNat (d : Token) {s : State} (hn : s.n.toNat ≤ maxUnit) :
    (encodeFrame d s).frameLen.toNat = (encodeSeq s.n.toNat d).length := by
  have hle := encodeSeq_length_le s.n.toNat d
  rw [maxUnit_eq] at hn
  rw [encodeFrame_frameLen, lenWord_toNat (by omega)]

/-! ### The directional tokens -/

/-- Each row of the table is the ENCODE of one token, with that token's count and length (R107 to R114). -/
theorem encodeInstrs_spec {p : Instr × Nat × Nat} (hp : p ∈ encodeInstrs) :
    ∃ d, tokenCount d = some p.2.1 ∧ p.2.2 = 16 + 2 * p.2.1 ∧ ∀ s, exec p.1 s = .next (encodeFrame d s) := by
  revert p
  simp only [encodeInstrs, List.forall_mem_cons, true_and]
  exact ⟨⟨.n, rfl, fun _ => rfl⟩, ⟨.s, rfl, fun _ => rfl⟩, ⟨.e, rfl, fun _ => rfl⟩, ⟨.w, rfl, fun _ => rfl⟩,
    ⟨.ne, rfl, fun _ => rfl⟩, ⟨.nw, rfl, fun _ => rfl⟩, ⟨.se, rfl, fun _ => rfl⟩, ⟨.sw, rfl, fun _ => rfl⟩,
    List.forall_mem_nil _⟩

/-- Settles O25: each operation stores the frame of its token's count. -/
theorem encodeDirectionalFrames : Obligations.EncodeDirectionalFrames := by
  intro p hp s hn
  obtain ⟨d, hcount, hunits, hexec⟩ := encodeInstrs_spec hp
  have hseq := encodeSeq_of_tokenCount hcount s.n.toNat
  have hlen : (dirFrame s.n.toNat p.2.1).length = p.2.2 * s.n.toNat := by
    rw [dirFrame_length, hunits]
    ring
  refine ⟨_, hexec s, ?_, ?_, ?_, encodeFrame_frame_only d s⟩
  · rw [encodeFrame_frame, hseq]
  · rw [encodeFrame_frame, hseq, hlen]
  · rw [encodeFrame_frameLen_toNat d hn, hseq, hlen]

/-! ### STOP -/

theorem exec_encodeStop (s : State) : exec .encodeStop s = .next (encodeFrame .stop s) := rfl

/-- ENCODE(STOP) is fifteen copies of a directional frame of count 4 (R115). -/
theorem encodeSeq_stop (u : Nat) : encodeSeq u .stop = tileSeq (dirFrame u 4) 15 := rfl

/-- The closed form of the STOP frame (30_encoding R80). -/
theorem tileSeq_dirFrame_four_getElem? {u i : Nat} (hi : i < 360 * u) :
    (tileSeq (dirFrame u 4) 15)[i]? = some
      (if i % (24 * u) < 16 * u then (if i % (24 * u) % (4 * u) < 3 * u then .high else .low)
      else if (i % (24 * u) - 16 * u) % (2 * u) < u then .high else .low) := by
  have hlen : (dirFrame u 4).length = 24 * u := by rw [dirFrame_length]; omega
  have hmod : i % (24 * u) < 24 * u := Nat.mod_lt _ (by omega)
  rw [tileSeq_getElem? _ (by rw [hlen]; omega), hlen]
  by_cases hpre : i % (24 * u) < 16 * u
  · rw [if_pos hpre, dirFrame_getElem?_preamble 4 hpre]
  · rw [if_neg hpre, dirFrame_getElem?_address (not_lt.mp hpre) (by omega)]

/-- Settles O28: counts, edges and closed form are those of a directional frame of count 4, fifteen times. -/
theorem encodeStopFrame : Obligations.EncodeStopFrame := by
  intro s hn hu
  have hlen : (encodeSeq s.n.toNat .stop).length = 360 * s.n.toNat := stopFrame_length _
  refine ⟨_, exec_encodeStop s, hlen, (encodeFrame_frameLen_toNat .stop hn).trans hlen, rfl, rfl, ?_, ?_, ?_,
    fun i hi => ?_, encodeFrame_frame_only .stop s⟩ <;> rw [encodeFrame_frame, encodeSeq_stop]
  · rw [tileSeq_count, dirFrame_count_high]
    omega
  · rw [tileSeq_count, dirFrame_count_low]
    omega
  · exact ((risesThenLow_dirFrame 4 hu).tile 15).risingEdges_eq
  · exact tileSeq_dirFrame_four_getElem? hi

/-! ### IDLE -/

theorem exec_encodeIdle (s : State) : exec .encodeIdle s = .next (encodeFrame .idle s) := rfl

/-- Settles O29: the IDLE frame is ten units of LOW. -/
theorem encodeIdleFrame : Obligations.EncodeIdleFrame := by
  intro s hn
  have hlen : (encodeSeq s.n.toNat .idle).length = 10 * s.n.toNat := idleFrame_length _
  exact ⟨_, exec_encodeIdle s, rfl, (encodeFrame_frameLen_toNat .idle hn).trans hlen, encodeFrame_frame_only .idle s⟩

/-! ### Reserved codes -/

theorem tokenOfCode_reserved {c : BitVec 4} (hc : 10 ≤ c.toNat) : Token.ofCode c = none := by
  revert c
  decide

theorem encodeCode_of_none {c : BitVec 4} (h : Token.ofCode c = none) (s : State) :
    encodeCode c s = raise .invalidCommand (c.zeroExtend 32) s := by
  rw [encodeCode, h]

/-- Settles O30: a reserved code names no token, so ENCODE raises. -/
theorem encodeReservedCodeRaises : Obligations.EncodeReservedCodeRaises := by
  intro c s hc
  rw [encodeCode_of_none (tokenOfCode_reserved hc)]
  rfl

end Sys2Proof.Machine
end

section
/-! The modulator's operations run by themselves (41_modulator): TILE (R141). -/

namespace Sys2Proof.Machine

/-! ### TILE -/

/-- TILE of a frame whose four copies fit the capacity of FRAME answers the tiled frame. -/
theorem exec_tile_of_fits {s : State} (h : 4 * s.frame.length ≤ 576 * s.n.toNat) :
    exec .tile s = .next (tileFrame s) :=
  if_pos h

/-- `FRAME <- tile(FRAME, 4)` writes FRAME and its length register. -/
theorem tileFrame_frame_only (s : State) :
    tileFrame s = { s with frame := (tileFrame s).frame, frameLen := (tileFrame s).frameLen } := rfl

theorem tileFrame_frame_length (s : State) : (tileFrame s).frame.length = 4 * s.frame.length := by
  rw [tileFrame_frame, tileSeq_length, tileFactor]

/-- The length register holds the tiled frame's length where that length is below `2^32`. -/
theorem tileFrame_frameLen_toNat {s : State} (h : 4 * s.frame.length < 2 ^ 32) :
    (tileFrame s).frameLen.toNat = 4 * s.frame.length := by
  rw [tileFrame_frameLen, tileSeq_length, tileFactor, lenWord_toNat h]

/-- Settles O33: TILE stores the tiling of FRAME, whose samples are periodic; the bound on `N` keeps its length
below `2^32` (R55). -/
theorem tileRepeatsFrameFourTimes : Obligations.TileRepeatsFrameFourTimes := by
  intro s hfits hn
  rw [maxUnit_eq] at hn
  exact ⟨tileFrame s, exec_tile_of_fits hfits, tileFrame_frame_length s, tileFrame_frameLen_toNat (by omega),
    fun i hi => tileSeq_getElem? s.frame hi, tileFrame_frame_only s⟩

end Sys2Proof.Machine
end

section
/-! The dispatch of a command word (42_scheduler R161): which words the decoder reads as which instruction, and
what a session's phase makes of them. -/

namespace Sys2Proof.Machine

/-! ### What the decoder reads -/

theorem mkWord_toNat (op tok : BitVec 4) : (mkWord op tok).toNat = 16 * op.toNat + tok.toNat := by
  rw [mkWord, BitVec.toNat_append, ← Nat.shiftLeft_add_eq_or_of_lt tok.isLt, Nat.shiftLeft_eq, Nat.mul_comm]

/-- A command word is its two fields (R74). -/
theorem mkWord_fields (cw : Byte) : mkWord (cwOp cw) (cwTok cw) = cw := by
  apply BitVec.eq_of_toNat_eq
  have hlt := cw.isLt
  rw [mkWord_toNat]
  simp only [cwOp, cwTok, BitVec.extractLsb'_toNat, Nat.shiftRight_eq_div_pow]
  omega

/-- A code names a token exactly where it is the token's code (R71). -/
theorem code_of_tokenOfCode {c : BitVec 4} {p : Token} (h : Token.ofCode c = some p) : p.code = c := by
  revert c
  cases p <;> decide

/-- The inversion of the decoder: the words of the opcode map (R75) and no others are read. -/
inductive Decodes : Byte → Instr → Prop where
  | start : Decodes 0x10 .start
  | press {p : Token} {i : Instr} (h : pressOf p = some i) : Decodes (mkWord 2 p.code) i
  | release {p : Token} {i : Instr} (h : releaseOf p = some i) : Decodes (mkWord 3 p.code) i
  | endSession : Decodes 0x40 .endSession

theorem decodePlain_eq_ok {tok : BitVec 4} {i j : Instr} (h : decodePlain tok i = .ok j) : tok = 0 ∧ j = i := by
  unfold decodePlain at h
  split_ifs at h with htok
  exact ⟨htok, (Except.ok.inj h).symm⟩

theorem decodeTok_eq_ok {tok : BitVec 4} {of : Token → Option Instr} {i : Instr} (h : decodeTok tok of = .ok i) :
    ∃ p : Token, p.code = tok ∧ of p = some i := by
  unfold decodeTok at h
  split at h
  next j hj =>
    obtain ⟨p, hp, hof⟩ := Option.bind_eq_some_iff.mp hj
    exact ⟨p, code_of_tokenOfCode hp, hof.trans (congrArg some (Except.ok.inj h))⟩
  next => cases h

theorem decodes_of_decodeWord {cw : Byte} {i : Instr} (h : decodeWord cw = .ok i) : Decodes cw i := by
  have hcw := mkWord_fields cw
  have hop {k : Nat} (hk : (cwOp cw).toNat = k) : cwOp cw = BitVec.ofNat 4 k := by simp [← hk]
  unfold decodeWord at h
  split at h
  next hk =>
    obtain ⟨htok, rfl⟩ := decodePlain_eq_ok h
    rw [← hcw, hop hk, htok]
    exact .start
  next hk =>
    obtain ⟨p, htok, hp⟩ := decodeTok_eq_ok h
    rw [← hcw, hop hk, ← htok]
    exact .press hp
  next hk =>
    obtain ⟨p, htok, hp⟩ := decodeTok_eq_ok h
    rw [← hcw, hop hk, ← htok]
    exact .release hp
  next hk =>
    obtain ⟨htok, rfl⟩ := decodePlain_eq_ok h
    rw [← hcw, hop hk, htok]
    exact .endSession
  next => cases h

/-- What the decoder reads is a legal word (R75). -/
theorem legalWord_of_decodes {cw : Byte} {i : Instr} (h : Decodes cw i) : legalWord cw = true := by
  cases h with
  | start => rfl
  | @press p _ hp => cases p <;> cases hp <;> rfl
  | @release p _ hp => cases p <;> cases hp <;> rfl
  | endSession => rfl

/-! ### The instructions of the command words -/

theorem exec_of_pressOf {p : Token} {i : Instr} (h : pressOf p = some i) (s : State) : exec i s = press p s := by
  cases p <;> cases h <;> rfl

theorem exec_of_releaseOf {p : Token} {i : Instr} (h : releaseOf p = some i) (s : State) :
    exec i s = release p s := by
  cases p <;> cases h <;> rfl

theorem pressOf_of_mem {p : Instr × Token} (hp : p ∈ pressInstrs) : pressOf p.2 = some p.1 := by
  revert p
  decide

theorem releaseOf_of_mem {p : Instr × Token} (hp : p ∈ releaseInstrs) : releaseOf p.2 = some p.1 := by
  revert p
  decide

theorem encode_of_pressOf {p : Token} {i : Instr} (h : pressOf p = some i) :
    encode i = some (mkWord 2 p.code) := by
  cases p <;> cases h <;> rfl

theorem encode_of_releaseOf {p : Token} {i : Instr} (h : releaseOf p = some i) :
    encode i = some (mkWord 3 p.code) := by
  cases p <;> cases h <;> rfl

/-- Outside a session a handler's word is dropped (R161). -/
theorem inSession_of_off {s : State} (h : s.phase = .off) (handler : State → Result) :
    inSession s handler = .next s := by
  rw [inSession, h]

/-- In a session a handler's word runs it (R161). -/
theorem inSession_of_on {s : State} (h : s.phase = .on) (handler : State → Result) :
    inSession s handler = handler s := by
  rw [inSession, h]

theorem exec_start_of_on {s : State} (h : s.phase = .on) : exec .start s = .next s := by
  show execStart s = _
  rw [execStart, h]

/-- Outside a session every command word but START's is dropped (R161). -/
theorem exec_of_decodes_off {cw : Byte} {i : Instr} (hi : Decodes cw i) (hcw : cw ≠ 0x10) {s : State}
    (h : s.phase = .off) : exec i s = .next s := by
  cases hi with
  | start => exact absurd rfl hcw
  | press hp => exact (exec_of_pressOf hp s).trans (inSession_of_off h _)
  | release hp => exact (exec_of_releaseOf hp s).trans (inSession_of_off h _)
  | endSession => exact inSession_of_off h _

/-! ### The dispatch -/

theorem dispatch_of_ok {cw : Byte} {i : Instr} (h : decodeWord cw = .ok i) (s : State) :
    dispatch cw s = exec i s := by
  rw [dispatch, h]

theorem dispatch_of_error {cw : Byte} {r : Reject} (h : decodeWord cw = .error r) (s : State) :
    dispatch cw s = .next (illegalWord cw s) := by
  rw [dispatch, h]

theorem dispatch_of_encode {cw : Byte} {i : Instr} (h : encode i = some cw) (s : State) :
    dispatch cw s = exec i s :=
  dispatch_of_ok (decodeWord_of_encode h) s

theorem dispatch_of_illegal {cw : Byte} (h : legalWord cw = false) (s : State) :
    dispatch cw s = .next (illegalWord cw s) := by
  cases hd : decodeWord cw with
  | ok i => simp [legalWord_of_decodes (decodes_of_decodeWord hd)] at h
  | error r => exact dispatch_of_error hd s

theorem dispatch_of_off {cw : Byte} (hcw : cw ≠ 0x10) {s : State} (h : s.phase = .off) :
    dispatch cw s = .next s := by
  cases hd : decodeWord cw with
  | ok i => rw [dispatch_of_ok hd, exec_of_decodes_off (decodes_of_decodeWord hd) hcw h]
  | error r => rw [dispatch_of_error hd, illegalWord, h]

/-- Settles O4: the decoder inverts the encoder, reads no illegal word, and each handler looks at the phase. -/
theorem dispatchFollowsPhase : Obligations.DispatchFollowsPhase := by
  intro cw s
  have hword {op : BitVec 4} {p : Token} (h : cw.toNat = 16 * op.toNat + p.code.toNat) : mkWord op p.code = cw :=
    BitVec.eq_of_toNat_eq ((mkWord_toNat op p.code).trans h.symm)
  refine ⟨fun hoff => ⟨?_, fun hcw => dispatch_of_off hcw hoff⟩,
    fun hon => ⟨?_, fun p hp hcw => ?_, fun p hp hcw => ?_, ?_, fun hill => ?_⟩⟩
  · rintro rfl
    exact dispatch_of_encode rfl s
  · rintro rfl
    exact (dispatch_of_encode rfl s).trans (exec_start_of_on hon)
  · exact dispatch_of_encode ((encode_of_pressOf (pressOf_of_mem hp)).trans (congrArg some (hword hcw))) s
  · exact dispatch_of_encode ((encode_of_releaseOf (releaseOf_of_mem hp)).trans (congrArg some (hword hcw))) s
  · rintro rfl
    exact dispatch_of_encode rfl s
  · rw [dispatch_of_illegal hill, illegalWord, hon]

end Sys2Proof.Machine
end

section
/-! A WRITE as the handlers use it: the whole of it where the radio takes the buffer, and what it may have
changed where it ends at all (43_writer R200 to R206). -/

namespace Sys2Proof.Machine

/-- A round with no sample left ends the WRITE (R203, R205). -/
theorem writeLoop_of_sent {s : State} (h : s.wrLen.toNat ≤ s.wrOff.toNat) (fuel : Nat) :
    writeLoop fuel s = .next (finishWrite s) := by
  cases fuel with
  | zero => rfl
  | succ fuel => rw [writeLoop, if_neg (Nat.not_lt.mpr h)]

theorem writeOp_of_idle {s : State} (h : s.wr = .idle) (src : BufSel) :
    writeOp src s = writeLoop (bufLen src s).toNat (beginWrite src s) := by
  rw [writeOp, h]

/-- Where the radio takes the whole buffer in answers `rs`: one update, with the calls recorded and the fault
record untouched (R204, R205). -/
theorem writeOp_of_accepting {src : BufSel} {s : State} {rs rest : List (BitVec 32)} (hidle : s.wr = .idle)
    (halive : s.radioHangAt = none) (hlen : (bufLen src s).toNat = (bufSamples src s).length)
    (hans : s.radioAnswers = rs ++ rest) (hacc : Accepting rs (bufSamples src s).length 0) :
    writeOp src s = .next { s with
      wrSrc := src, wrLen := bufLen src s, wrOff := bufLen src s, wrRes := .ok
      air := s.air ++ bufSamples src s, radioLog := s.radioLog ++ expectedCalls (bufSamples src s) rs
      radioAnswers := rest } := by
  have hbegin := writing_beginWrite hlen
  have hoff : BitVec.ofNat 32 ((bufSamples src s).length - 0) = bufLen src s := by
    rw [Nat.sub_zero, ← hlen, BitVec.ofNat_toNat, BitVec.setWidth_eq]
  have hrounds := writeLoop_accepting _ rs rest 0 (bufLen src s).toNat _ (beginWrite src s) halive hbegin.samples
    hbegin.length (Nat.zero_add _) hans hacc hlen.ge
  rw [writeOp_of_idle hidle, hrounds, hoff, writeLoop_of_sent (Nat.le_refl (bufLen src s).toNat)]
  simp [finishWrite, beginWrite, hidle]

theorem writeLoop_wrSrc {fuel : Nat} {s t : State} (h : writeLoop fuel s = .next t) : t.wrSrc = s.wrSrc := by
  induction fuel generalizing s with
  | zero => rw [← Host.Outcome.next.inj h, finishWrite_wrSrc]
  | succ fuel ih =>
    unfold writeLoop at h
    split_ifs at h
    · rw [ih h, acceptAnswer_wrSrc, offer_wrSrc]
    · rw [← Host.Outcome.next.inj h, failWrite_wrSrc, offer_wrSrc]
    · rw [← Host.Outcome.next.inj h, finishWrite_wrSrc]

/-- A WRITE that ends has been a WRITE of its buffer (R202). -/
theorem writeOp_wrSrc {src : BufSel} {s t : State} (h : writeOp src s = .next t) : t.wrSrc = src := by
  unfold writeOp at h
  split at h
  · cases h
  · rw [writeLoop_wrSrc h, beginWrite_wrSrc]

end Sys2Proof.Machine
end

section
/-! TICK (42_scheduler R174): the write of the current buffer and the re-arming. -/

namespace Sys2Proof.Machine

theorem tickEnabled_iff {s : State} : tickEnabled s = true ↔ s.phase = .on ∧ s.tmrArmed = true := by
  simp only [tickEnabled, Bool.and_eq_true, beq_iff_eq]

/-- TICK steps 1 to 3, where the write of step 2 ends (R174). -/
theorem exec_tick_of_writeOp {s u : State} (he : tickEnabled s = true) (h : writeOp .tx (cancel s) = .next u) :
    exec .tick s = .next (tickEnd u) := by
  show execTick s = _
  rw [execTick, if_pos he, h, andThen_next]

/-- What a TICK that ends may have changed: what its write may change, and the timer. -/
def TickedOnly (s t : State) : Prop :=
  t = { s with
    wr := t.wr, wrSrc := t.wrSrc, wrLen := t.wrLen, wrOff := t.wrOff, wrRes := t.wrRes, air := t.air
    radioLog := t.radioLog, radioAnswers := t.radioAnswers, draws := t.draws
    fWrite := t.fWrite, fCode := t.fCode, fInfo := t.fInfo, tmrArmed := t.tmrArmed, tmrDelay := t.tmrDelay }

theorem tickedOnly_of_wroteOnly {s u : State} (h : WroteOnly (cancel s) u) : TickedOnly s (tickEnd u) := by
  rw [tickEnd_spec, TickedOnly]
  unfold WroteOnly at h
  rw [h]
  rfl

theorem tickedOnly_of_exec {s t : State} (h : exec .tick s = .next t) : TickedOnly s t := by
  obtain ⟨-, u, hu, rfl⟩ := execTick_next h
  obtain ⟨-, hw, -, -⟩ := writeOp_next hu
  exact tickedOnly_of_wroteOnly hw

/-- Step 3: armed with T_TICK after a write that ended OK, left disarmed after one that failed (R174). -/
theorem tickEnd_timer {s u : State} (hw : WroteOnly (cancel s) u) (hr : WroteResult (cancel s) u) :
    ((tickEnd u).wrRes = .ok → (tickEnd u).tmrArmed = true ∧ (tickEnd u).tmrDelay = s.tTick) ∧
      ((tickEnd u).wrRes = .fail → (tickEnd u).tmrArmed = false ∧ (tickEnd u).fWrite = true) := by
  have harmed : u.tmrArmed = false := by rw [hw]; rfl
  have htick : u.tTick = s.tTick := by rw [hw]; rfl
  rw [tickEnd_spec]
  rcases hr with ⟨hok, -⟩ | ⟨hfail, hflag, -⟩
  · simp [hok, htick]
  · simp [hfail, harmed, hflag]

/-- A TICK whose write ended OK has put the whole of TXBUF on the air (R59, R174). -/
theorem exec_tick_air_of_ok {s t : State} (hlen : s.txLen.toNat = s.txBuf.length) (h : exec .tick s = .next t)
    (hok : t.wrRes = .ok) : t.air = s.air ++ s.txBuf := by
  obtain ⟨-, u, hu, rfl⟩ := execTick_next h
  rw [tickEnd_spec] at hok ⊢
  obtain ⟨-, -, hair, hokIff⟩ := writeOp_sentSlice (src := .tx) (s := cancel s) hlen hu
  rw [hokIff.mp hok] at hair
  simpa [bufSamples] using hair

/-- Settles O18: the write of TXBUF by its own rules, then the timer by its result. -/
theorem tickSendsBufferAndRearms : Obligations.TickSendsBufferAndRearms := by
  refine fun s => ⟨tickEnabled_iff, fun he => ⟨fun rs rest hidle halive hlen hans hacc => ?_, fun t ht => ?_⟩⟩
  · obtain ⟨-, harmed⟩ := tickEnabled_iff.mp he
    have hwrite := writeOp_of_accepting (src := .tx) (s := cancel s) hidle halive hlen hans hacc
    refine ⟨_, exec_tick_of_writeOp he hwrite, ?_⟩
    rw [tickEnd_spec]
    refine ⟨rfl, rfl, rfl, rfl, rfl, ?_⟩
    simp [bufLen, bufSamples, harmed]
  · have honly := tickedOnly_of_exec ht
    obtain ⟨-, u, hu, rfl⟩ := execTick_next ht
    obtain ⟨-, hw, hr, -⟩ := writeOp_next hu
    have hsrc : (tickEnd u).wrSrc = .tx := by rw [tickEnd_spec, ← writeOp_wrSrc hu]
    have hphase : (tickEnd u).phase = .on := by rw [honly]; exact (tickEnabled_iff.mp he).1
    refine ⟨hsrc, ?_, ?_, ?_, ?_, ?_, ?_, ?_, ?_, ?_, hphase, tickEnd_timer hw hr⟩ <;> rw [honly]

end Sys2Proof.Machine
end

section
/-! RELEASE (42_scheduler R170): the STOP write, then the idle buffer and the timer. -/

namespace Sys2Proof.Machine

/-! ### The idle buffer -/

/-- Under R55's bound on `N` the length register holds the IDLE frame's length. -/
theorem idleFrame_lenWord_toNat {u : Nat} (hu : u ≤ maxUnit) : (lenWord (idleFrame u).length).toNat = 10 * u := by
  rw [maxUnit_eq] at hu
  rw [idleFrame_length, lenWord_toNat (by omega)]

/-- A frame that is all LOW is modulated to zero pairs (R146 P2). -/
theorem isZero_of_mem_modulateSeq_low {offset : Int} {rate k : Nat} {c : C32}
    (h : c ∈ modulateSeq offset rate (List.replicate k .low)) : c.isZero := by
  obtain ⟨i, hi, rfl⟩ := List.mem_mapIdx.mp h
  rw [List.getElem_replicate]
  exact mixSample_low offset rate i

/-! ### The handler -/

/-- RELEASE outside MOVING has no effect (R170 step 0, R171 a). -/
theorem release_of_not_moving {s : State} (hon : s.phase = .on) (h : s.sch ≠ .moving) (p : Token) :
    release p s = .next s := by
  rw [release, inSession_of_on hon, releaseHandler]
  cases hs : s.sch with
  | moving => exact absurd hs h
  | idle => rfl
  | stopping => rfl

/-- RELEASE in MOVING, where the write of step 3 ends (R170). -/
theorem release_of_writeOp {s u : State} (hon : s.phase = .on) (hmov : s.sch = .moving)
    (h : writeOp .stop { cancel s with sch := .stopping } = .next u) (p : Token) :
    release p s = .next (releaseEnd u) := by
  rw [release, inSession_of_on hon, releaseHandler, hmov]
  show andThen _ _ = _
  rw [h, andThen_next]

/-- Steps 4 and 5, whatever the write's result (R170, R229). -/
theorem releaseEnd_idle {s u : State} (hw : WroteOnly { cancel s with sch := .stopping } u)
    (hn : s.n.toNat ≤ maxUnit) :
    (releaseEnd u).txBuf = modulated s (List.replicate (10 * s.n.toNat) .low) ∧
      (releaseEnd u).txLen.toNat = 10 * s.n.toNat := by
  have hunit : u.n = s.n := by rw [hw]; rfl
  have hoffset : u.fOffset = s.fOffset := by rw [hw]; rfl
  have hrate : u.sampleRate = s.sampleRate := by rw [hw]; rfl
  rw [releaseEnd_spec]
  simp only [hunit, hoffset, hrate]
  exact ⟨rfl, idleFrame_lenWord_toNat hn⟩

/-- Step 6: armed with T_INIT after a write that ended OK, left disarmed after one that failed (R170, R229). -/
theorem releaseEnd_timer {s u : State} (hw : WroteOnly { cancel s with sch := .stopping } u)
    (hr : WroteResult { cancel s with sch := .stopping } u) :
    ((releaseEnd u).wrRes = .ok → (releaseEnd u).tmrArmed = true ∧ (releaseEnd u).tmrDelay = s.tInit) ∧
      ((releaseEnd u).wrRes = .fail → (releaseEnd u).tmrArmed = false ∧ (releaseEnd u).fWrite = true) := by
  have harmed : u.tmrArmed = false := by rw [hw]; rfl
  have hinit : u.tInit = s.tInit := by rw [hw]; rfl
  rw [releaseEnd_spec]
  rcases hr with ⟨hok, -⟩ | ⟨hfail, hflag, -⟩
  · simp [hok, hinit]
  · simp [hfail, harmed, hflag]

/-- Settles O17: the write of STOPBUF by its own rules, then steps 4 to 6 as one update. -/
theorem releaseSendsStopOnceAndIdles : Obligations.ReleaseSendsStopOnceAndIdles := by
  intro p hp s hon hn
  rw [exec_of_releaseOf (releaseOf_of_mem hp)]
  refine ⟨fun hs => release_of_not_moving hon hs p.2, fun hmov =>
    ⟨fun rs rest hidle halive hlen hans hacc => ?_, fun t ht => ?_⟩⟩
  · have hwrite := writeOp_of_accepting (src := .stop) (s := { cancel s with sch := .stopping }) hidle halive hlen
      hans hacc
    refine ⟨_, release_of_writeOp hon hmov hwrite p.2, ?_⟩
    rw [releaseEnd_spec]
    exact ⟨rfl, rfl, rfl, rfl, rfl, rfl, rfl, idleFrame_lenWord_toNat hn,
      fun c hc => isZero_of_mem_modulateSeq_low hc, hidle, rfl, rfl, rfl, rfl⟩
  · rcases release_next ht with ⟨hoff, -⟩ | ⟨-, hs, -⟩ | ⟨-, -, u, hu, rfl⟩
    · simp [hon] at hoff
    · exact absurd hmov hs
    · obtain ⟨-, hw, hr, -⟩ := writeOp_next hu
      obtain ⟨htx, hlen⟩ := releaseEnd_idle hw hn
      have hsrc : (releaseEnd u).wrSrc = .stop := by rw [releaseEnd_spec, ← writeOp_wrSrc hu]
      refine ⟨?_, ?_, ?_, hsrc, htx, hlen, releaseEnd_timer hw hr⟩ <;> rw [releaseEnd_spec]

end Sys2Proof.Machine
end

section
/-! PRESS before and after a TICK (42_scheduler R168): a PRESS builds from `held`, N, F_OFFSET and SAMPLE_RATE
alone, none of which a TICK writes. -/

namespace Sys2Proof.Machine

/-! ### The moving buffer -/

/-- The length register holds a tiled frame's length, under R55's bound on `N`. -/
theorem tiledFrame_lenWord_toNat (d : Token) {u : Nat} (hu : u ≤ maxUnit) :
    (lenWord (tileSeq (encodeSeq u d) tileFactor).length).toNat = 4 * (encodeSeq u d).length := by
  have hle := encodeSeq_length_le u d
  rw [maxUnit_eq] at hu
  rw [tileSeq_length, tileFactor, lenWord_toNat (by omega)]

theorem movingBuffer_length (s : State) (d : Token) :
    (movingBuffer s d).length = 4 * (encodeSeq s.n.toNat d).length := by
  rw [movingBuffer, modulated, modulateSeq_length, tileSeq_length, tileFactor]

/-! ### The handler -/

theorem exec_press_of_on {p : Token} {i : Instr} (hi : pressOf p = some i) {s : State} (hon : s.phase = .on) :
    exec i s = .next (pressHandler p s) := by
  rw [exec_of_pressOf hi, press_next, hon]

/-- What a PRESS does where the class `d` of the new mask is known (R166). -/
theorem pressHandler_of_classify {p d : Token} (hp : isDirectional p = true) {s : State}
    (hd : classifyMask (s.held ||| letters p) = some d) :
    (pressHandler p s).held = s.held ||| letters p ∧ (pressHandler p s).curTok = d ∧
      (pressHandler p s).txBuf = movingBuffer s d ∧
      (pressHandler p s).txLen = lenWord (tileSeq (encodeSeq s.n.toNat d) tileFactor).length ∧
      (pressHandler p s).sch = .moving ∧ (pressHandler p s).tmrArmed = true := by
  obtain ⟨d', hd', -, heq⟩ := pressHandler_spec p hp s
  obtain rfl : d' = d := Option.some.inj (hd'.symm.trans hd)
  rw [heq]
  exact ⟨rfl, rfl, rfl, rfl, rfl, rfl⟩

/-- What a PRESS leaves unchanged (R166). -/
theorem pressHandler_keeps {p : Token} (hp : isDirectional p = true) (s : State) :
    (pressHandler p s).phase = s.phase ∧ (pressHandler p s).n = s.n ∧ (pressHandler p s).air = s.air ∧
      (pressHandler p s).radioLog = s.radioLog := by
  obtain ⟨d, -, -, heq⟩ := pressHandler_spec p hp s
  rw [heq]
  exact ⟨rfl, rfl, rfl, rfl⟩

/-- A TICK writes nothing that a PRESS builds from (R168). -/
theorem TickedOnly.movingBuffer_eq {s t : State} (h : TickedOnly s t) (d : Token) :
    movingBuffer t d = movingBuffer s d := by
  rw [h]
  rfl

/-- Settles O15: the first PRESS leaves `0001`, so the second classifies `0101`, with or without the TICK. -/
theorem pressesComposeBeforeTick : Obligations.PressesComposeBeforeTick := by
  intro s hon hheld hn
  have hclass1 : classifyMask (s.held ||| letters .n) = some .n := by rw [hheld]; rfl
  obtain ⟨hheld1, -, htx1, hlen1, -, -⟩ := pressHandler_of_classify (p := .n) rfl hclass1
  obtain ⟨hon1, hn1, hair1, hlog1⟩ := pressHandler_keeps (p := .n) rfl s
  set t1 := pressHandler .n s
  rw [hheld] at hheld1
  have hclass2 : classifyMask (t1.held ||| letters .e) = some .ne := by rw [hheld1]; rfl
  obtain ⟨hheld2, htok2, htx2, hlen2, hsch2, harmed2⟩ := pressHandler_of_classify (p := .e) rfl hclass2
  obtain ⟨-, -, hair2, hlog2⟩ := pressHandler_keeps (p := .e) rfl t1
  refine ⟨t1, pressHandler .e t1, exec_press_of_on rfl hon, exec_press_of_on rfl (hon1.trans hon), ?_, htok2, ?_,
    harmed2, hsch2, hair2.trans hair1, hlog2.trans hlog1, fun u1 hu1 => ?_⟩
  · rw [hheld2, hheld1]
    rfl
  · rw [hlen2, hn1, tiledFrame_lenWord_toNat _ hn, encodeSeq_of_tokenCount rfl, dirFrame_length]
    omega
  · have honly := tickedOnly_of_exec hu1
    have honU : u1.phase = .on := by rw [honly]; exact hon1.trans hon
    have hheldU : u1.held = t1.held := by rw [honly]
    obtain ⟨-, htokU, htxU, -, hschU, -⟩ := pressHandler_of_classify (p := .e) rfl (hheldU ▸ hclass2)
    obtain ⟨-, -, hairU, -⟩ := pressHandler_keeps (p := .e) rfl u1
    refine ⟨pressHandler .e u1, exec_press_of_on rfl honU, hschU, htokU, ?_, fun hok => ?_⟩
    · rw [htxU, htx2, honly.movingBuffer_eq]
    · have hlen : t1.txLen.toNat = t1.txBuf.length := by
        rw [hlen1, htx1, tiledFrame_lenWord_toNat _ hn, movingBuffer_length]
      rw [hairU, exec_tick_air_of_ok hlen hu1 hok, hair1]

end Sys2Proof.Machine
end

section
/-! WRITE run by itself (43_writer R203 to R211): the whole of it, where the radio takes the buffer and where it
refuses an answer, its bound on calls, and its independence of the samples. -/

namespace Sys2Proof.Machine

theorem exec_write (src : BufSel) (s : State) : exec (.write src) s = writeOp src s := rfl

/-! ### Every answer in range -/

/-- Settles O38: the WRITE of a taken buffer is one update, and each of its calls takes at least one sample. -/
theorem writeSendsEverySampleOnce : Obligations.WriteSendsEverySampleOnce := by
  intro src s rs rest hidle halive hlen hans hacc
  have hcalls : 1 ≤ (bufSamples src s).length → 1 ≤ rs.length := by
    intro hne
    cases rs with
    | nil => exact absurd (show (bufSamples src s).length = 0 from hacc) (by omega)
    | cons r rs => simp
  exact ⟨_, writeOp_of_accepting hidle halive hlen hans hacc, rfl, hidle, rfl, rfl, rfl, rfl, rfl,
    fun hne => ⟨hcalls hne, accepting_length hacc⟩, rfl⟩

/-! ### An answer out of range -/

theorem answerAccepts_eq_false_iff {r : BitVec 32} {l : Nat} :
    answerAccepts r l = false ↔ r.toInt ≤ 0 ∨ (l : Int) < r.toInt := by
  simp only [answerAccepts, Bool.and_eq_false_iff, decide_eq_false_iff_not]
  omega

theorem nextAnswer_of_cons {s : State} {r : BitVec 32} {rest : List (BitVec 32)} (h : s.radioAnswers = r :: rest) :
    nextAnswer s = r := by
  rw [nextAnswer, h]

/-- Where the answer is scripted, the call consumes it and draws none (R87). -/
theorem takeAnswer_of_cons {s : State} {r : BitVec 32} {rest : List (BitVec 32)} (h : s.radioAnswers = r :: rest) :
    takeAnswer s = { s with radioAnswers := rest } := by
  simp [takeAnswer, h]

/-- A round whose answer is out of range ends the WRITE: the call is recorded, and nothing is sent (R206, R208). -/
theorem writeLoop_of_refused {b : List C32} {s : State} {r : BitVec 32} {rest : List (BitVec 32)}
    (hs : Writing b s) (halive : s.radioHangAt = none) (hans : s.radioAnswers = r :: rest)
    (hl : s.wrOff.toNat < b.length) (hr : answerAccepts r (b.length - s.wrOff.toNat) = false) (fuel : Nat) :
    writeLoop (fuel + 1) s = .next { s with
      wr := .idle, wrRes := .fail, radioAnswers := rest
      radioLog := s.radioLog ++ [.write (b.drop s.wrOff.toNat) (lenWord (b.length - s.wrOff.toNat)) r]
      fWrite := true, fCode := 3, fInfo := r } := by
  have hslice : offeredSlice s = b.drop s.wrOff.toNat := hs.offeredSlice_offer
  have hoffer : offer s = { s with
      radioAnswers := rest
      radioLog := s.radioLog ++ [.write (b.drop s.wrOff.toNat) (lenWord (b.length - s.wrOff.toNat)) r] } := by
    rw [offer, takeAnswer_of_cons hans, nextAnswer_of_cons hans, hslice, hs.remaining_eq]
  rw [writeLoop, if_pos (hs.length ▸ hl), if_pos (radioReturns_alive halive), nextAnswer_of_cons hans,
    hs.remaining_eq, hr, hoffer]
  rfl

/-- The call after accepting answers offers the samples they left (R204). -/
theorem expectedCalls_append_singleton {b : List C32} {rs : List (BitVec 32)} {l : Nat}
    (h : Accepting rs b.length l) (r : BitVec 32) :
    expectedCalls b (rs ++ [r]) = expectedCalls b rs ++ [.write (b.drop (b.length - l)) (lenWord l) r] := by
  induction rs generalizing b with
  | nil =>
    obtain rfl : b.length = l := h
    simp [expectedCalls]
  | cons a rs ih =>
    obtain ⟨ha, hrs⟩ := h
    have htaken := (answerAccepts_toNat ha).2
    have hle := accepting_le hrs
    rw [← List.length_drop] at hrs
    have hdrop : a.toNat + (b.length - a.toNat - l) = b.length - l := by omega
    simp [expectedCalls, ih hrs, hdrop]

/-- The offset register holds the count accepted before the failing call. -/
theorem acceptedOffset_toNat {src : BufSel} {s : State} (hlen : (bufLen src s).toNat = (bufSamples src s).length)
    (l : Nat) : (BitVec.ofNat 32 ((bufSamples src s).length - l)).toNat = (bufSamples src s).length - l := by
  have hlt := (bufLen src s).isLt
  rw [BitVec.toNat_ofNat, Nat.mod_eq_of_lt (by omega)]

/-- Where the first answer out of range is `r`, with `l` samples left: one update, with the accepted samples on
the air and StreamWriteFailure recorded (R206, R208, R228). -/
theorem writeOp_of_refused {src : BufSel} {s : State} {rs rest : List (BitVec 32)} {r : BitVec 32} {l : Nat}
    (hidle : s.wr = .idle) (halive : s.radioHangAt = none) (hlen : (bufLen src s).toNat = (bufSamples src s).length)
    (hans : s.radioAnswers = rs ++ r :: rest) (hacc : Accepting rs (bufSamples src s).length l) (hl : 0 < l)
    (hr : answerAccepts r l = false) :
    writeOp src s = .next { s with
      wrSrc := src, wrLen := bufLen src s, wrOff := BitVec.ofNat 32 ((bufSamples src s).length - l), wrRes := .fail
      air := s.air ++ (bufSamples src s).take ((bufSamples src s).length - l)
      radioLog := s.radioLog ++ expectedCalls (bufSamples src s) (rs ++ [r]), radioAnswers := rest
      fWrite := true, fCode := 3, fInfo := r } := by
  have hbegin := writing_beginWrite hlen
  have hrounds := writeLoop_accepting _ rs (r :: rest) l (bufLen src s).toNat _ (beginWrite src s) halive
    hbegin.samples hbegin.length (Nat.zero_add _) hans hacc hlen.ge
  have hcalls := accepting_length hacc
  obtain ⟨fuel, hfuel⟩ : ∃ fuel, (bufLen src s).toNat - rs.length = fuel + 1 :=
    Nat.exists_eq_add_one.mpr (by omega)
  have hoff := acceptedOffset_toNat hlen l
  have hleft : (bufSamples src s).length - ((bufSamples src s).length - l) = l := by omega
  rw [writeOp_of_idle hidle, hrounds, hfuel, writeLoop_of_refused (b := bufSamples src s) (r := r) (rest := rest)]
  · simp [hoff, hleft, expectedCalls_append_singleton hacc, hidle, beginWrite]
  · exact ⟨hbegin.samples, hlen, hoff.trans_le (Nat.sub_le _ _)⟩
  · exact halive
  · rfl
  · rw [hoff]; omega
  · rwa [hoff, hleft]

/-- Settles O39: the WRITE of a refused buffer is one update. -/
theorem writeFailsOnRefusedAnswer : Obligations.WriteFailsOnRefusedAnswer := by
  intro src s rs rest r l hidle halive hlen hans hacc hl hr
  exact ⟨_, writeOp_of_refused hidle halive hlen hans hacc hl (answerAccepts_eq_false_iff.mpr hr), rfl, hidle,
    acceptedOffset_toNat hlen l, rfl, rfl, rfl, rfl, rfl, rfl, rfl⟩

/-! ### The bound on calls -/

/-- Every round records at most one call, a write primitive call (R207). -/
theorem writeLoop_calls {fuel : Nat} {s t : State} (h : writeLoop fuel s = .next t) :
    ∃ calls, t.radioLog = s.radioLog ++ calls ∧ writeCalls calls = calls.length ∧ calls.length ≤ fuel := by
  induction fuel generalizing s with
  | zero =>
    obtain rfl := Host.Outcome.next.inj h
    exact ⟨[], by simp, rfl, le_rfl⟩
  | succ fuel ih =>
    unfold writeLoop at h
    split_ifs at h
    · obtain ⟨calls, hlog, hwrites, hle⟩ := ih h
      rw [acceptAnswer_radioLog, offer_radioLog, List.append_assoc] at hlog
      exact ⟨_, hlog, congrArg Nat.succ hwrites, Nat.succ_le_succ hle⟩
    · obtain rfl := Host.Outcome.next.inj h
      exact ⟨_, rfl, rfl, Nat.succ_le_succ fuel.zero_le⟩
    · obtain rfl := Host.Outcome.next.inj h
      exact ⟨[], by simp, rfl, Nat.zero_le _⟩

/-- Settles O40: as many rounds as the length register says, each with at most one call, and no round on
length 0. -/
theorem writeTerminates : Obligations.WriteTerminates := by
  intro src s hidle halive
  obtain ⟨t, ht⟩ := writeLoop_alive (bufLen src s).toNat (s := beginWrite src s) halive
  obtain ⟨hw, -, hwr⟩ := writeLoop_next ht
  obtain ⟨calls, hlog, hwrites, hle⟩ := writeLoop_calls ht
  refine ⟨t, calls, (writeOp_of_idle hidle src).trans ht, hwr, hlog, hwrites, hle, fun hzero => ?_, ?_, ?_, ?_⟩
  · rw [hzero] at ht
    obtain rfl := Host.Outcome.next.inj ht
    exact ⟨rfl, rfl, rfl⟩
  all_goals rw [hw]; rfl

/-! ### Two runs of WRITE -/

/-- Two states that agree on all that decides the course of a WRITE: not on the buffers, nor on what of them was
sent (R211). -/
structure SameCourse (s s' : State) : Prop where
  wr : s'.wr = s.wr
  wrLen : s'.wrLen = s.wrLen
  wrOff : s'.wrOff = s.wrOff
  wrRes : s'.wrRes = s.wrRes
  faults : faultStatus s' = faultStatus s
  answers : s'.radioAnswers = s.radioAnswers
  draws : s'.draws = s.draws
  hangAt : s'.radioHangAt = s.radioHangAt
  calls : s'.radioLog.length = s.radioLog.length

section
variable {s s' : State} (h : SameCourse s s')
include h

theorem SameCourse.nextAnswer_eq : nextAnswer s' = nextAnswer s := by
  rw [nextAnswer, nextAnswer, h.answers, h.draws]

theorem SameCourse.remaining_eq : remaining s' = remaining s := by
  rw [remaining, remaining, h.wrLen, h.wrOff]

theorem SameCourse.radioReturns_eq : radioReturns s' = radioReturns s := by
  rw [radioReturns, radioReturns, h.hangAt, h.calls]

theorem SameCourse.beginWrite {src src' : BufSel} (hlen : bufLen src' s' = bufLen src s) :
    SameCourse (beginWrite src s) (beginWrite src' s') where
  __ := h
  wr := rfl
  wrLen := hlen
  wrOff := rfl

theorem SameCourse.offer : SameCourse (offer s) (offer s') where
  __ := h
  answers := congrArg List.tail h.answers
  draws := by rw [offer_draws, offer_draws, h.answers, h.draws]
  calls := by simp [h.calls]

theorem SameCourse.acceptAnswer (r : BitVec 32) : SameCourse (acceptAnswer r s) (acceptAnswer r s') where
  __ := h
  wrOff := congrArg (· + r) h.wrOff

theorem SameCourse.finishWrite : SameCourse (finishWrite s) (finishWrite s') where
  __ := h
  wr := rfl
  wrRes := rfl

theorem SameCourse.failWrite (r : BitVec 32) : SameCourse (failWrite r s) (failWrite r s') where
  __ := h
  wr := rfl
  wrRes := rfl
  faults := by
    have hfaults := h.faults
    simp only [faultStatus, Status.mk.injEq] at hfaults
    obtain ⟨hconfig, hinvalid, -, -, -⟩ := hfaults
    simp [faultStatus, hconfig, hinvalid]

theorem SameCourse.writeLoop {fuel : Nat} {t : State} (ht : writeLoop fuel s = .next t) :
    ∃ t', writeLoop fuel s' = .next t' ∧ SameCourse t t' := by
  induction fuel generalizing s s' with
  | zero =>
    obtain rfl := Host.Outcome.next.inj ht
    exact ⟨_, rfl, h.finishWrite⟩
  | succ fuel ih =>
    unfold Machine.writeLoop at ht ⊢
    rw [h.wrLen, h.wrOff, h.radioReturns_eq, h.nextAnswer_eq, h.remaining_eq]
    split_ifs at ht ⊢
    · exact ih (h.offer.acceptAnswer _) ht
    · obtain rfl := Host.Outcome.next.inj ht
      exact ⟨_, rfl, h.offer.failWrite _⟩
    · obtain rfl := Host.Outcome.next.inj ht
      exact ⟨_, rfl, h.finishWrite⟩

/-- R211, for the whole operation, from either buffer. -/
theorem SameCourse.writeOp {src src' : BufSel} (hlen : bufLen src' s' = bufLen src s) {t : State}
    (ht : writeOp src s = .next t) : ∃ t', writeOp src' s' = .next t' ∧ SameCourse t t' := by
  have hidle := (writeOp_next ht).1
  rw [writeOp_of_idle hidle] at ht
  rw [writeOp_of_idle (h.wr.trans hidle), hlen]
  exact (h.beginWrite hlen).writeLoop ht

end

/-- Settles O41: the two runs take the same course, each on its own buffer. -/
theorem writeIgnoresSampleValues : Obligations.WriteIgnoresSampleValues := by
  intro src src' s t tx stop txLen stopLen s' hlen ht
  have hsame : SameCourse s s' := ⟨rfl, rfl, rfl, rfl, rfl, rfl, rfl, rfl, rfl⟩
  obtain ⟨t', ht', hwr, hwrLen, hwrOff, hwrRes, hfaults, hanswers, hdraws, -, hcalls⟩ := hsame.writeOp hlen ht
  exact ⟨t', ht', hwr, writeOp_wrSrc ht', writeOp_wrSrc ht, hwrLen, hwrOff, hwrRes, hfaults, hanswers, hdraws, hcalls⟩

end Sys2Proof.Machine
end

section
/-! Exceptions (60_exceptions): the illegal word of R226, the refused START of R225, and the timer after a refused
write (R229). -/

namespace Sys2Proof.Machine

/-! ### The illegal word -/

/-- The classes of R76, by the fields of R74, hold no word of R75. -/
theorem legalWord_of_illegal_fields {cw : Byte}
    (h : cw.toNat / 16 = 0 ∨ 5 ≤ cw.toNat / 16 ∨
      ((cw.toNat / 16 = 1 ∨ cw.toNat / 16 = 4) ∧ cw.toNat % 16 ≠ 0) ∨
      ((cw.toNat / 16 = 2 ∨ cw.toNat / 16 = 3) ∧ 8 ≤ cw.toNat % 16)) :
    legalWord cw = false := by
  have hstart : cw ≠ 0x10 := by rintro rfl; exact absurd h (by decide)
  have hend : cw ≠ 0x40 := by rintro rfl; exact absurd h (by decide)
  simp only [legalWord, beq_false_of_ne hstart, beq_false_of_ne hend, Bool.or_eq_false_iff, Bool.and_eq_false_iff,
    decide_eq_false_iff_not, true_and]
  omega

theorem illegalWord_of_on {s : State} (h : s.phase = .on) (cw : Byte) :
    illegalWord cw s = raise .invalidCommand (cw.zeroExtend 32) s := by
  rw [illegalWord, h]

/-- Settles O5: no word of these classes is legal, and `raise` writes its flag and the record alone. -/
theorem illegalWordRaisesInvalidCommand : Obligations.IllegalWordRaisesInvalidCommand := by
  intro cw s hfields hon
  rw [dispatch_of_illegal (legalWord_of_illegal_fields hfields), illegalWord_of_on hon]
  rfl

/-! ### The refused START -/

theorem rateValid_eq_false_iff {rate clock : Nat} :
    rateValid rate clock = false ↔ rate < clock ∨ rate % clock ≠ 0 := by
  simp only [rateValid, Bool.and_eq_false_iff, decide_eq_false_iff_not, Nat.not_le, beq_eq_false_iff_ne]

theorem exec_start_of_off {s : State} (h : s.phase = .off) : exec .start s = startHandler s := by
  show execStart s = _
  rw [execStart, h]

/-- START outside a session at a rate that its check refuses: the fault record alone, cleared and then written
(R162, R225). -/
theorem exec_start_of_rate_invalid {s : State} (hoff : s.phase = .off)
    (h : rateValid s.sampleRate.toNat clockHz = false) :
    exec .start s = .next { s with
      fConfig := true, fInvalid := false, fWrite := false, fCode := 1
      fInfo := s.sampleRate % BitVec.ofNat 32 clockHz } := by
  rw [exec_start_of_off hoff, startHandler, h]
  rfl

/-- Settles O12: the refused START's record depends on the sample rate alone, which it keeps. -/
theorem startRefusesFractionalRate : Obligations.StartRefusesFractionalRate := by
  intro s hoff hrate
  have hinvalid := rateValid_eq_false_iff.mpr hrate
  exact ⟨_, exec_start_of_rate_invalid hoff hinvalid, hoff, BitVec.toNat_umod, rfl,
    exec_start_of_rate_invalid hoff hinvalid⟩

/-! ### The refused write -/

/-- A disarmed timer enables no TICK (R174). -/
theorem tickEnabled_of_disarmed {s : State} (h : s.tmrArmed = false) : tickEnabled s = false := by
  rw [tickEnabled, h, Bool.and_false]

theorem tickEnd_of_fail {u : State} (h : u.wrRes = .fail) : tickEnd u = u := by
  rw [tickEnd, h]

/-- RELEASE steps 4 and 5 alone, after a failed STOP write (R229). -/
theorem releaseEnd_of_fail {u : State} (h : u.wrRes = .fail) :
    releaseEnd u = { buildTx .idle { u with held := 0, curTok := .idle } with sch := .idle } := by
  rw [releaseEnd, h]

theorem mem_pressInstrs_of_pressOf {p : Token} {i : Instr} (h : pressOf p = some i) : (i, p) ∈ pressInstrs := by
  cases p <;> cases h <;> decide

theorem modulateInto_tmrArmed (dst : BufSel) (s : State) : (modulateInto dst s).tmrArmed = s.tmrArmed := by
  cases dst <;> rfl

/-- The ways to arm a disarmed timer: by the inversion of `exec`, every other end leaves it as it was or disarms
it (R229). -/
theorem exec_arms {i : Instr} {s t : State} (h : exec i s = .next t) (hs : s.tmrArmed = false)
    (ht : t.tmrArmed = true) :
    (i = .start ∧ s.phase = .off) ∨ (s.phase = .on ∧ ∃ p ∈ pressInstrs, i = p.1) ∨
      (s.phase = .on ∧ s.sch = .moving ∧ ∃ p ∈ releaseInstrs, i = p.1) := by
  have hchanged : t.tmrArmed ≠ s.tmrArmed := by simp [hs, ht]
  cases exec_next h with
  | started hi hoff => exact .inl ⟨hi, hoff⟩
  | pressed p hi hon => exact .inr (.inl ⟨hon, _, mem_pressInstrs_of_pressOf hi, rfl⟩)
  | released p hi hon hmov => exact .inr (.inr ⟨hon, hmov, _, mem_releaseInstrs_of_releaseOf hi, rfl⟩)
  | ticked _ he => exact absurd (tickEnabled_iff.mp he).2 (by simp [hs])
  | ended _ _ h => exact absurd ht (by rw [h]; exact Bool.false_ne_true)
  | unchanged _ h => exact absurd (by rw [h]) hchanged
  | configError _ _ _ h => exact absurd (by rw [h]; rfl) hchanged
  | classified _ _ _ h => exact absurd (by rcases h with rfl | rfl <;> rfl) hchanged
  | encoded _ _ _ h => exact absurd (by rw [h, encodeFrame_tmrArmed]) hchanged
  | tiled _ h => exact absurd (by rw [h, tileFrame_tmrArmed]) hchanged
  | mixed b _ h => exact absurd (by rw [h, modulateInto_tmrArmed]) hchanged
  | wrote _ _ hw =>
    obtain ⟨-, honly, -, -⟩ := writeOp_next hw
    exact absurd (by rw [honly]) hchanged

/-- Settles O19: the refused write as one update, after the cancel and before a step that does not arm; then the
ways to arm. -/
theorem refusedWriteHaltsRetransmission : Obligations.RefusedWriteHaltsRetransmission := by
  refine ⟨fun s rs rest r l hon hidle halive hn hans hl hr =>
    ⟨fun harmed hlen hacc => ?_, fun hmov hlen hacc p hp => ?_⟩, fun i s t h hs ht => exec_arms h hs ht⟩
  · have hwrite := writeOp_of_refused (src := .tx) (s := cancel s) hidle halive hlen hans hacc hl hr
    refine ⟨_, exec_tick_of_writeOp (tickEnabled_iff.mpr ⟨hon, harmed⟩) hwrite, ?_⟩
    rw [tickEnd_of_fail rfl]
    exact ⟨rfl, acceptedOffset_toNat (src := .tx) hlen l, tickEnabled_of_disarmed rfl, rfl⟩
  · have hwrite := writeOp_of_refused (src := .stop) (s := { cancel s with sch := .stopping }) hidle halive hlen
      hans hacc hl hr
    rw [exec_of_releaseOf (releaseOf_of_mem hp)]
    refine ⟨_, release_of_writeOp hon hmov hwrite p.2, ?_⟩
    rw [releaseEnd_of_fail rfl]
    exact ⟨rfl, acceptedOffset_toNat (src := .stop) hlen l, tickEnabled_of_disarmed rfl, rfl,
      idleFrame_lenWord_toNat hn, rfl⟩

end Sys2Proof.Machine
end

section
/-! Host programs as streams of command words (30_encoding R70, R75, R83): the encoder and the decoder on whole
lists. -/

namespace Sys2Proof.Machine

/-- The encoder inverts the decoder. -/
theorem encode_of_decodeWord {cw : Byte} {i : Instr} (h : decodeWord cw = .ok i) : encode i = some cw := by
  cases decodes_of_decodeWord h with
  | start => rfl
  | press hp => exact encode_of_pressOf hp
  | release hp => exact encode_of_releaseOf hp
  | endSession => rfl

theorem encodeAll_cons {i : Instr} {cw : Byte} (h : encode i = some cw) (is : List Instr) :
    encodeAll (i :: is) = cw :: encodeAll is := by
  rw [encodeAll, h]

theorem decodeAll_cons_of_ok {cw : Byte} {i : Instr} (h : decodeWord cw = .ok i) (ws : List Byte) :
    decodeAll (cw :: ws) = (i :: (decodeAll ws).1, (decodeAll ws).2) := by
  rw [decodeAll, h]

theorem decodeAll_cons_of_error {cw : Byte} {r : Reject} (h : decodeWord cw = .error r) (ws : List Byte) :
    decodeAll (cw :: ws) = ([], cw :: ws) := by
  rw [decodeAll, h]

theorem decodeAll_encodeAll {is : List Instr} (h : ∀ i ∈ is, i.wellFormed = true) :
    decodeAll (encodeAll is) = (is, []) := by
  induction is with
  | nil => rfl
  | cons i is ih =>
    obtain ⟨hi, his⟩ := List.forall_mem_cons.mp h
    obtain ⟨cw, hencode, hdecode⟩ := (Laws.RoundTrip.statement_all i).1 hi
    rw [encodeAll_cons hencode, decodeAll_cons_of_ok hdecode, ih his]

/-- What was read encodes to the words it was read from; the rest of the stream is what was not read. -/
theorem encodeAll_decodeAll (ws : List Byte) : encodeAll (decodeAll ws).1 ++ (decodeAll ws).2 = ws := by
  induction ws with
  | nil => rfl
  | cons cw ws ih =>
    cases hd : decodeWord cw with
    | ok i => rw [decodeAll_cons_of_ok hd, encodeAll_cons (encode_of_decodeWord hd), List.cons_append, ih]
    | error r => rw [decodeAll_cons_of_error hd, encodeAll, List.nil_append]

/-- The decoder reads one command from each word. -/
theorem decodeAll_length (ws : List Byte) : (decodeAll ws).1.length + (decodeAll ws).2.length = ws.length := by
  induction ws with
  | nil => rfl
  | cons cw ws ih =>
    cases hd : decodeWord cw with
    | ok i => rw [decodeAll_cons_of_ok hd, List.length_cons, List.length_cons, Nat.succ_add, ih]
    | error r => rw [decodeAll_cons_of_error hd, List.length_nil, Nat.zero_add]

theorem decodeAll_wellFormed (ws : List Byte) : ∀ i ∈ (decodeAll ws).1, i.wellFormed = true := by
  induction ws with
  | nil => exact List.forall_mem_nil _
  | cons cw ws ih =>
    cases hd : decodeWord cw with
    | ok i =>
      rw [decodeAll_cons_of_ok hd]
      exact List.forall_mem_cons.mpr ⟨decodeWord_wellFormed hd, ih⟩
    | error r =>
      rw [decodeAll_cons_of_error hd]
      exact List.forall_mem_nil _

/-- Settles O3, by induction on the commands and on the words: each step is the round trip of one word. -/
theorem commandStreamsRoundTrip : Obligations.CommandStreamsRoundTrip := by
  refine ⟨fun is h => decodeAll_encodeAll h, fun ws is h => ?_⟩
  have hwords := encodeAll_decodeAll ws
  have hlength := decodeAll_length ws
  have hwf := decodeAll_wellFormed ws
  rw [h] at hwords hlength hwf
  exact ⟨(List.append_nil _).symm.trans hwords, hlength, hwf⟩

end Sys2Proof.Machine
end

section
/-! What a step can do (10_state R42, 20_memory R64, 60_exceptions R233 to R236), said once for the statements about
steps: the event is taken, then a handler ends, an illegal word is met, or the core waits. -/

namespace Sys2Proof.Machine

/-! ### The event taken -/

/-- `s'` is `s` with an event taken from it: a command word gone from the head of `evq`, or none. -/
structure Fetched (s s' : State) : Prop where
  only : s' = { s with evq := s'.evq, turns := s'.turns, draws := s'.draws }
  queue : s'.evq = s.evq ∨ ∃ cw, s.evq = cw :: s'.evq

/-- What the core does with the event. -/
inductive Handled (s t : State) : Prop where
  | waited (h : t = s)
  | illegal (cw : Byte) (h : t = illegalWord cw s)
  | ran (i : Instr) (hi : i.wellFormed = true ∨ i = .tick) (h : exec i s = .next t)

/-- The inversion of `step`. -/
theorem step_handled {s t : State} (h : step s = .next t) : ∃ s', Fetched s s' ∧ Handled s' t := by
  rcases step_next h with rfl | ⟨-, h | h⟩ | ⟨cw, rest, s', hq, hs', h⟩
  · exact ⟨t, ⟨rfl, .inl rfl⟩, .waited rfl⟩
  · exact ⟨s, ⟨rfl, .inl rfl⟩, .ran _ (.inr rfl) h⟩
  · exact ⟨takeTurn s, ⟨rfl, .inl rfl⟩, .ran _ (.inr rfl) h⟩
  · have hfetch : Fetched s s' := by rcases hs' with rfl | rfl <;> exact ⟨rfl, .inr ⟨cw, hq⟩⟩
    rcases h with ⟨i, hi, h⟩ | ⟨e, -, h⟩
    · exact ⟨s', hfetch, .ran i (.inl (decodeWord_wellFormed hi)) h⟩
    · exact ⟨s', hfetch, .illegal cw h⟩

/-! ### The handler -/

/-- How the handler of an event can end: the cases of `ExecNext` that an event reaches, and the illegal word. -/
inductive HandlerEnd (s t : State) : Prop where
  | unchanged (h : t = s)
  | illegal (cw : Byte) (hon : s.phase = .on) (h : t = raise .invalidCommand (cw.zeroExtend 32) s)
  | configError (hoff : s.phase = .off)
      (h : t = raise .configurationError (s.sampleRate % BitVec.ofNat 32 clockHz) (clearFaults s))
  | started (hoff : s.phase = .off) (hr : rateValid s.sampleRate.toNat clockHz = true)
      (h : t = beginSession { deriveRegs (clearFaults s) with
        radioLog := s.radioLog ++
          [.configure s.sampleRate s.fCenter s.gain, .openTransmitStream, .activateStream] })
  | pressed (p : Token) (hon : s.phase = .on) (hp : isDirectional p = true) (h : t = pressHandler p s)
  | released (hon : s.phase = .on) (hmov : s.sch = .moving) (u : State)
      (hw : writeOp .stop { cancel s with sch := .stopping } = .next u) (h : t = releaseEnd u)
  | ended (hon : s.phase = .on)
      (h : t = forget { cancel s with
        radioLog := s.radioLog ++ [.deactivateStream] ++ [.closeStream], phase := .off })
  | ticked (he : tickEnabled s = true) (u : State) (hw : writeOp .tx (cancel s) = .next u) (h : t = tickEnd u)

theorem handlerEnd_of_exec {i : Instr} {s t : State} (hi : i.wellFormed = true ∨ i = .tick)
    (h : exec i s = .next t) : HandlerEnd s t := by
  have hcommand : i ≠ .tick → i.wellFormed = true := fun hne => hi.resolve_right hne
  cases exec_next h with
  | unchanged _ h => exact .unchanged h
  | configError _ hoff _ h => exact .configError hoff h
  | started _ hoff hr h => exact .started hoff hr h
  | pressed p _ hon hp h => exact .pressed p hon hp h
  | released _ _ hon hmov u hw h => exact .released hon hmov u hw h
  | ended _ hon h => exact .ended hon h
  | ticked _ he u hw h => exact .ticked he u hw h
  | encoded _ hwf hne => exact absurd (hcommand hne.1) (by simp [hwf])
  | classified _ hi => subst hi; exact absurd (hcommand (by simp)) Bool.false_ne_true
  | tiled hi => subst hi; exact absurd (hcommand (by simp)) Bool.false_ne_true
  | mixed _ hi => subst hi; exact absurd (hcommand (by simp)) Bool.false_ne_true
  | wrote _ hi => subst hi; exact absurd (hcommand (by simp)) Bool.false_ne_true

theorem handlerEnd_of_handled {s t : State} (h : Handled s t) : HandlerEnd s t := by
  cases h with
  | waited h => exact .unchanged h
  | ran i hi h => exact handlerEnd_of_exec hi h
  | illegal cw h =>
    rcases hp : s.phase with _ | _
    · exact .unchanged (by rw [h, illegalWord, hp])
    · exact .illegal cw hp (by rw [h, illegalWord_of_on hp])

/-- A step takes an event, and its handler ends. -/
theorem step_handlerEnd {s t : State} (h : step s = .next t) : ∃ s', Fetched s s' ∧ HandlerEnd s' t := by
  obtain ⟨s', hfetch, hhandled⟩ := step_handled h
  exact ⟨s', hfetch, handlerEnd_of_handled hhandled⟩

end Sys2Proof.Machine
end

section
/-! The session invariants (10_state R27): what establishes them, what keeps them, and that every handler does. -/

namespace Sys2Proof.Machine

/-! ### The derived registers -/

/-- A unit that a u32 sample rate gives is within R55's bound. -/
theorem unit_le_maxUnit {s t : State} (h : t.n.toNat = s.sampleRate.toNat / clockHz) : t.n.toNat ≤ maxUnit := by
  have hlt := s.sampleRate.isLt
  rw [h]
  exact Nat.div_le_div_right (by omega)

/-- START step 3 derives N as the natural quotient (R7). -/
theorem deriveRegs_n_toNat (s : State) : (deriveRegs s).n.toNat = s.sampleRate.toNat / clockHz :=
  BitVec.toNat_udiv

/-- F_OFFSET is the exact difference: 65 bits hold it (R7, R23). -/
theorem deriveRegs_fOffset_toInt (s : State) :
    (deriveRegs s).fOffset.toInt = (s.fRc.toNat : Int) - s.fCenter.toNat := by
  have hrc := s.fRc.isLt
  have hcenter := s.fCenter.isLt
  rw [deriveRegs_fOffset, BitVec.toInt_eq_toNat_cond, BitVec.toNat_sub, BitVec.zeroExtend,
    BitVec.toNat_setWidth_of_le (by omega), BitVec.toNat_setWidth_of_le (by omega)]
  split_ifs <;> omega

theorem stopFrame_lenWord_toNat {u : Nat} (hu : u ≤ maxUnit) :
    (lenWord (stopFrame u).length).toNat = stopCapUnits * u := by
  rw [maxUnit_eq] at hu
  rw [stopFrame_length, lenWord_toNat (by omega), stopCapUnits_eq]

/-! ### What the invariants speak of -/

/-- Every register that the session invariants speak of, but those of the timer, the writer and the fault record,
is the same. -/
def SameSession (s t : State) : Prop :=
  t = { s with
    tmrArmed := t.tmrArmed, tmrDelay := t.tmrDelay
    wr := t.wr, wrSrc := t.wrSrc, wrLen := t.wrLen, wrOff := t.wrOff, wrRes := t.wrRes
    fConfig := t.fConfig, fInvalid := t.fInvalid, fWrite := t.fWrite, fCode := t.fCode, fInfo := t.fInfo
    frame := t.frame, frameLen := t.frameLen, evq := t.evq, air := t.air
    radioLog := t.radioLog, radioAnswers := t.radioAnswers, turns := t.turns, draws := t.draws
    classifyOut := t.classifyOut }

theorem sessionInv_of_sameSession {s t : State} (h : SessionInv s) (hsame : SameSession s t)
    (htimer : t.fWrite = false → t.tmrArmed = true) (hwr : t.wr = .idle) : SessionInv t := by
  rw [hsame]
  exact { __ := h, timer := htimer, writer := hwr }

/-- The invariants in IDLE. -/
theorem sessionInv_of_idle {t : State} (hrate : rateValid t.sampleRate.toNat clockHz = true)
    (hunit : t.n.toNat = t.sampleRate.toNat / clockHz)
    (hoffset : t.fOffset.toInt = (t.fRc.toNat : Int) - t.fCenter.toNat)
    (hsch : t.sch = .idle) (htok : t.curTok = .idle) (hheld : t.held = 0)
    (htx : t.txBuf = idleBuffer t ∧ t.txLen.toNat = idleLen t.n.toNat)
    (htimer : t.fWrite = false → t.tmrArmed = true) (hwr : t.wr = .idle)
    (hstop : t.stopBuf = stopBuffer t ∧ t.stopLen.toNat = stopCapUnits * t.n.toNat) : SessionInv t where
  rate := hrate
  unit := hunit
  offset := hoffset
  notStopping := by simp [hsch]
  idleIff := iff_of_true hsch htok
  idleHeld := fun _ => hheld
  idleTx := fun _ => htx
  movingIff := iff_of_false (by simp [hsch]) (by rw [htok]; decide)
  movingHeld := fun hmov => by simp [hsch] at hmov
  movingTx := fun hmov => by simp [hsch] at hmov
  timer := htimer
  writer := hwr
  stop := hstop

/-! ### The handlers -/

theorem Fetched.sameSession {s s' : State} (h : Fetched s s') : SameSession s s' := by
  unfold SameSession
  rw [h.only]

theorem TickedOnly.sameSession {s t : State} (h : TickedOnly s t) : SameSession s t := by
  unfold SameSession
  unfold TickedOnly at h
  rw [h]

theorem coreInv_of_fetched {s s' : State} (hfetch : Fetched s s') (h : CoreInv s) : CoreInv s' := by
  intro hon
  have hsame := hfetch.only
  have hs : SessionInv s := h (by rw [hsame] at hon; exact hon)
  exact sessionInv_of_sameSession hs hfetch.sameSession (by rw [hsame]; exact hs.timer) (by rw [hsame]; exact hs.writer)

/-- START steps 1 to 9 establish the invariants from any state with a valid rate (R162). -/
theorem sessionInv_beginSession {s : State} (hr : rateValid s.sampleRate.toNat clockHz = true)
    (log : List RadioTx) :
    SessionInv (beginSession { deriveRegs (clearFaults s) with radioLog := log }) := by
  have hunit := deriveRegs_n_toNat (clearFaults s)
  have hn := unit_le_maxUnit hunit
  rw [beginSession_spec]
  exact sessionInv_of_idle hr hunit (deriveRegs_fOffset_toInt (clearFaults s)) rfl rfl rfl
    ⟨rfl, idleFrame_lenWord_toNat hn⟩ (fun _ => rfl) rfl ⟨rfl, stopFrame_lenWord_toNat hn⟩

theorem sessionInv_press {s : State} (h : SessionInv s) {p : Token} (hp : isDirectional p = true) :
    SessionInv (pressHandler p s) := by
  obtain ⟨d, hd, hdir, heq⟩ := pressHandler_spec p hp s
  have hlen := tiledFrame_lenWord_toNat d (unit_le_maxUnit h.unit)
  have hne : d ≠ .idle := by rintro rfl; exact absurd hdir (by decide)
  rw [heq]
  exact { __ := h
          notStopping := by simp
          idleIff := iff_of_false (by simp) hne
          idleHeld := fun hidle => by simp at hidle
          idleTx := fun hidle => by simp at hidle
          movingIff := iff_of_true rfl hdir
          movingHeld := fun _ => ⟨classifyMask_ne_zero hd, hd⟩
          movingTx := fun _ => ⟨rfl, hlen.trans (movingBuffer_length s d).symm⟩
          timer := fun _ => rfl }

/-- RELEASE steps 4 to 6 after the STOP write, whatever its result (R170, R229). -/
theorem sessionInv_release {s u : State} (h : SessionInv s)
    (hw : writeOp .stop { cancel s with sch := .stopping } = .next u) : SessionInv (releaseEnd u) := by
  obtain ⟨-, honly, hres, hidle⟩ := writeOp_next hw
  have hn := unit_le_maxUnit h.unit
  obtain ⟨htimerOk, htimerFail⟩ := releaseEnd_timer honly hres
  have htimer : (releaseEnd u).fWrite = false → (releaseEnd u).tmrArmed = true := by
    intro hflag
    cases hr : (releaseEnd u).wrRes with
    | ok => exact (htimerOk hr).1
    | fail => exact absurd (htimerFail hr).2 (by simp [hflag])
  have hlen : (releaseEnd u).txLen.toNat = idleLen s.n.toNat := (releaseEnd_idle honly hn).2
  rw [releaseEnd_spec] at htimer hlen ⊢
  refine sessionInv_of_idle ?_ ?_ ?_ rfl rfl rfl ⟨rfl, ?_⟩ htimer hidle ?_ <;> rw [honly]
  · exact h.rate
  · exact h.unit
  · exact h.offset
  · rw [honly] at hlen
    exact hlen
  · exact h.stop

theorem sessionInv_tick {s u : State} (h : SessionInv s) (hw : writeOp .tx (cancel s) = .next u) :
    SessionInv (tickEnd u) := by
  obtain ⟨-, honly, hres, hidle⟩ := writeOp_next hw
  obtain ⟨htimerOk, htimerFail⟩ := tickEnd_timer honly hres
  refine sessionInv_of_sameSession h (tickedOnly_of_wroteOnly honly).sameSession (fun hflag => ?_) ?_
  · cases hr : (tickEnd u).wrRes with
    | ok => exact (htimerOk hr).1
    | fail => exact absurd (htimerFail hr).2 (by simp [hflag])
  · rw [tickEnd_spec]
    exact hidle

/-- Every end of a handler keeps the invariants (R27). -/
theorem coreInv_of_handlerEnd {s t : State} (h : CoreInv s) (hend : HandlerEnd s t) : CoreInv t := by
  intro honT
  cases hend with
  | unchanged ht => exact ht ▸ h (ht ▸ honT)
  | illegal cw hon ht => exact ht ▸ sessionInv_of_sameSession (h hon) rfl (h hon).timer (h hon).writer
  | configError hoff ht => exact absurd honT (by simp [ht, hoff])
  | started hoff hr ht => exact ht ▸ sessionInv_beginSession hr _
  | pressed p hon hp ht => exact ht ▸ sessionInv_press (h hon) hp
  | released hon hmov u hw ht => exact ht ▸ sessionInv_release (h hon) hw
  | ended hon ht => exact absurd honT (by rw [ht]; simp [forget])
  | ticked he u hw ht => exact ht ▸ sessionInv_tick (h (tickEnabled_iff.mp he).1) hw

/-- Settles O48: taking an event touches no register of the invariants, and every handler's end keeps them. -/
theorem stepKeepsSessionInvariants : Obligations.StepKeepsSessionInvariants := by
  intro s t h hstep
  obtain ⟨s', hfetch, hend⟩ := step_handlerEnd hstep
  exact coreInv_of_handlerEnd (coreInv_of_fetched hfetch h) hend

end Sys2Proof.Machine
end

section
/-! The choice of the next event (60_exceptions R233 to R236), the queue of command words (10_state R42), and that no
step is refused (42_scheduler R174). -/

namespace Sys2Proof.Machine

/-! ### The next event -/

theorem step_of_nextEvent_none {s s' : State} (h : nextEvent s = (.none, s')) : step s = .next s' := by
  rw [step, h]

theorem step_of_nextEvent_tick {s s' : State} (h : nextEvent s = (.tick, s')) : step s = exec .tick s' := by
  rw [step, h]

theorem step_of_nextEvent_command {s s' : State} {cw : Byte} (h : nextEvent s = (.command cw, s')) :
    step s = dispatch cw s' := by
  rw [step, h]

section
variable {s : State} {cw : Byte} {rest : List Byte}

theorem nextEvent_empty (hq : s.evq = []) :
    nextEvent s = if tickEnabled s then (.tick, s) else (.none, s) := by
  rw [nextEvent, hq]

theorem nextEvent_command (he : tickEnabled s = false) (hq : s.evq = cw :: rest) :
    nextEvent s = (.command cw, { s with evq := rest }) := by
  rw [nextEvent, hq]
  simp [he]

/-- Where both are ready, the draw of the turn decides (R236). -/
theorem nextEvent_both (he : tickEnabled s = true) (hq : s.evq = cw :: rest) :
    nextEvent s =
      if tickGoesFirst s then (.tick, takeTurn s) else (.command cw, { takeTurn s with evq := rest }) := by
  rw [nextEvent, hq]
  simp [he]

theorem tickGoesFirst_of_cons {turn : Turn} {ts : List Turn} (h : s.turns = turn :: ts) :
    tickGoesFirst s = (turn == .tick) := by
  rw [tickGoesFirst, h]
  cases turn <;> rfl

/-- Where the turn is scripted, it is consumed and none is drawn. -/
theorem takeTurn_of_cons {turn : Turn} {ts : List Turn} (h : s.turns = turn :: ts) :
    takeTurn s = { s with turns := ts } := by
  simp [takeTurn, h]

theorem takeTurn_of_nil (h : s.turns = []) : takeTurn s = { s with draws := s.draws + 1 } := by
  simp [takeTurn, h]

theorem step_tick_turn (he : tickEnabled s = true) (hq : s.evq = cw :: rest) {ts : List Turn}
    (h : s.turns = .tick :: ts) : step s = exec .tick { s with turns := ts } := by
  refine step_of_nextEvent_tick ?_
  rw [nextEvent_both he hq, tickGoesFirst_of_cons h, takeTurn_of_cons h]
  rfl

theorem step_command_turn (he : tickEnabled s = true) (hq : s.evq = cw :: rest) {ts : List Turn}
    (h : s.turns = .command :: ts) : step s = dispatch cw { s with evq := rest, turns := ts } := by
  refine step_of_nextEvent_command ?_
  rw [nextEvent_both he hq, tickGoesFirst_of_cons h, takeTurn_of_cons h]
  rfl

theorem step_drawn_turn (he : tickEnabled s = true) (hq : s.evq = cw :: rest) (h : s.turns = []) :
    step s = exec .tick { s with draws := s.draws + 1 } ∨
      step s = dispatch cw { s with evq := rest, draws := s.draws + 1 } := by
  have hevent := nextEvent_both he hq
  rw [takeTurn_of_nil h] at hevent
  cases hdraw : tickGoesFirst s with
  | true => exact .inl (step_of_nextEvent_tick (by rw [hevent, hdraw]; rfl))
  | false => exact .inr (step_of_nextEvent_command (by rw [hevent, hdraw]; rfl))

theorem step_of_command_alone (he : tickEnabled s = false) (hq : s.evq = cw :: rest) :
    step s = dispatch cw { s with evq := rest } :=
  step_of_nextEvent_command (nextEvent_command he hq)

end

/-- Settles O8: the clauses are the branches of `nextEvent`. -/
theorem tickAndCommandInEitherOrder : Obligations.TickAndCommandInEitherOrder := by
  intro s cw rest
  refine ⟨fun he hq => ⟨fun ts h => step_tick_turn he hq h, fun ts h => step_command_turn he hq h,
    fun h => step_drawn_turn he hq h⟩, fun he hq => ?_, fun he hq => step_of_command_alone he hq, fun he hq => ?_⟩
  · exact step_of_nextEvent_tick (by rw [nextEvent_empty hq, if_pos he])
  · exact step_of_nextEvent_none (by rw [nextEvent_empty hq, he]; rfl)

/-- Settles O7: the command's branches of `nextEvent`, and the dispatch of a word that the decoder reads. -/
theorem stepRunsTheDecodedInstruction : Obligations.StepRunsTheDecodedInstruction := by
  intro s cw rest i hq hi
  exact ⟨fun he => (step_of_command_alone he hq).trans (dispatch_of_ok hi _),
    fun he ts h => (step_command_turn he hq h).trans (dispatch_of_ok hi _)⟩

/-! ### No refusal -/

/-- A result that is no refusal: a next state or a fault. -/
def NotRefused (o : Result) : Prop := ∀ r, o ≠ .refused r

theorem notRefused_next (s : State) : NotRefused (.next s) := fun _ h => by cases h

theorem notRefused_fault (f : Fault) : NotRefused (.fault f) := fun _ h => by cases h

theorem NotRefused.andThen {o : Result} {f : State → Result} (ho : NotRefused o) (hf : ∀ s, NotRefused (f s)) :
    NotRefused (andThen o f) := by
  cases o with
  | next s => exact hf s
  | fault r => exact notRefused_fault r
  | refused r => exact absurd rfl (ho r)

theorem NotRefused.inSession {handler : State → Result} (h : ∀ s, NotRefused (handler s)) (s : State) :
    NotRefused (inSession s handler) := by
  rcases hp : s.phase with _ | _
  · rw [inSession_of_off hp]; exact notRefused_next s
  · rw [inSession_of_on hp]; exact h s

theorem notRefused_radioCall (tx : RadioTx) (s : State) : NotRefused (radioCall tx s) := by
  unfold radioCall
  split_ifs
  · exact notRefused_next _
  · exact notRefused_fault _

theorem notRefused_writeLoop (fuel : Nat) (s : State) : NotRefused (writeLoop fuel s) := by
  induction fuel generalizing s with
  | zero => exact notRefused_next _
  | succ fuel ih =>
    unfold writeLoop
    split_ifs
    · exact ih _
    · exact notRefused_next _
    · exact notRefused_fault _
    · exact notRefused_next _

theorem notRefused_writeOp (src : BufSel) (s : State) : NotRefused (writeOp src s) := by
  cases hw : s.wr with
  | idle => rw [writeOp_of_idle hw]; exact notRefused_writeLoop _ _
  | busy => rw [writeOp, hw]; exact notRefused_fault _

theorem notRefused_press (p : Token) (s : State) : NotRefused (press p s) :=
  .inSession (fun _ => notRefused_next _) s

theorem notRefused_release (p : Token) (s : State) : NotRefused (release p s) := by
  refine .inSession (fun s => ?_) s
  unfold releaseHandler
  split
  · exact (notRefused_writeOp _ _).andThen fun _ => notRefused_next _
  · exact notRefused_next _
  · exact notRefused_next _

theorem notRefused_start (s : State) : NotRefused (execStart s) := by
  have hopen (u : State) : NotRefused (openRadio u) :=
    (notRefused_radioCall _ _).andThen fun _ => (notRefused_radioCall _ _).andThen fun _ => notRefused_radioCall _ _
  unfold execStart startHandler
  split
  · exact notRefused_next _
  · split_ifs
    · exact (hopen _).andThen fun _ => notRefused_next _
    · exact notRefused_next _

theorem notRefused_end (s : State) : NotRefused (execEnd s) :=
  .inSession (fun _ => (notRefused_radioCall _ _).andThen fun _ =>
    (notRefused_radioCall _ _).andThen fun _ => notRefused_next _) s

/-- An enabled TICK is not refused (R174). -/
theorem notRefused_tick {s : State} (he : tickEnabled s = true) : NotRefused (exec .tick s) := by
  show NotRefused (execTick s)
  rw [execTick, if_pos he]
  exact (notRefused_writeOp _ _).andThen fun _ => notRefused_next _

theorem notRefused_dispatch (cw : Byte) (s : State) : NotRefused (dispatch cw s) := by
  cases hd : decodeWord cw with
  | error r => rw [dispatch_of_error hd]; exact notRefused_next _
  | ok i =>
    rw [dispatch_of_ok hd]
    cases decodes_of_decodeWord hd with
    | start => exact notRefused_start s
    | press hp => rw [exec_of_pressOf hp]; exact notRefused_press _ s
    | release hp => rw [exec_of_releaseOf hp]; exact notRefused_release _ s
    | endSession => exact notRefused_end s

/-- Settles O9: TICK is chosen only where it is enabled, and the other handlers have no refusal. -/
theorem stepIsNeverRefused : Obligations.StepIsNeverRefused := by
  intro s
  show NotRefused (step s)
  rcases nextEvent_cases s with ⟨-, -, h⟩ | ⟨he, h | h⟩ | ⟨cw, rest, -, h | h⟩
  · rw [step_of_nextEvent_none h]; exact notRefused_next s
  · rw [step_of_nextEvent_tick h]; exact notRefused_tick he
  · rw [step_of_nextEvent_tick h]; exact notRefused_tick (s := takeTurn s) he
  · rw [step_of_nextEvent_command h]; exact notRefused_dispatch cw _
  · rw [step_of_nextEvent_command h]; exact notRefused_dispatch cw _

end Sys2Proof.Machine
end

section
/-! What instructions leave unchanged: the configuration and the queue (10_state R23, R42), the fault flags (R36),
and the sample buffers (20_memory R57). -/

namespace Sys2Proof.Machine

/-! ### The configuration and the queue -/

theorem modulateInto_keeps (dst : BufSel) (s : State) :
    configOf (modulateInto dst s) = configOf s ∧ (modulateInto dst s).evq = s.evq ∧
      (modulateInto dst s).n = s.n ∧ (modulateInto dst s).fOffset = s.fOffset := by
  cases dst <;> exact ⟨rfl, rfl, rfl, rfl⟩

theorem faultStatus_modulateInto (dst : BufSel) (s : State) : faultStatus (modulateInto dst s) = faultStatus s := by
  cases dst <;> rfl

/-- Nothing writes the configuration or `evq`; N and F_OFFSET change only where a session opens or closes. -/
theorem exec_keeps {i : Instr} {s t : State} (h : exec i s = .next t) :
    configOf t = configOf s ∧ t.evq = s.evq ∧
      ((t.n = s.n ∧ t.fOffset = s.fOffset) ∨ (i = .start ∧ s.phase = .off) ∨
        (i = .endSession ∧ t.phase = .off)) := by
  cases exec_next h with
  | unchanged _ h => rw [h]; exact ⟨rfl, rfl, .inl ⟨rfl, rfl⟩⟩
  | configError hi hoff _ h => rw [h]; exact ⟨rfl, rfl, .inl ⟨rfl, rfl⟩⟩
  | started hi hoff _ h => rw [h, beginSession_spec]; exact ⟨rfl, rfl, .inr (.inl ⟨hi, hoff⟩)⟩
  | pressed p _ _ hp h =>
    obtain ⟨d, -, -, heq⟩ := pressHandler_spec p hp s
    rw [h, heq]; exact ⟨rfl, rfl, .inl ⟨rfl, rfl⟩⟩
  | released p _ _ _ u hw h =>
    obtain ⟨-, honly, -, -⟩ := writeOp_next hw
    rw [h, releaseEnd_spec, honly]; exact ⟨rfl, rfl, .inl ⟨rfl, rfl⟩⟩
  | ended hi _ h => rw [h]; exact ⟨rfl, rfl, .inr (.inr ⟨hi, rfl⟩)⟩
  | ticked hi =>
    subst hi
    rw [tickedOnly_of_exec h]; exact ⟨rfl, rfl, .inl ⟨rfl, rfl⟩⟩
  | classified _ _ _ h => rcases h with rfl | rfl <;> exact ⟨rfl, rfl, .inl ⟨rfl, rfl⟩⟩
  | encoded _ _ _ h => rw [h]; exact ⟨rfl, rfl, .inl ⟨rfl, rfl⟩⟩
  | tiled _ h => rw [h]; exact ⟨rfl, rfl, .inl ⟨rfl, rfl⟩⟩
  | mixed b _ h =>
    obtain ⟨hconfig, hevq, hderived⟩ := modulateInto_keeps b s
    rw [h]; exact ⟨hconfig, hevq, .inl hderived⟩
  | wrote b _ hw =>
    obtain ⟨-, honly, -, -⟩ := writeOp_next hw
    rw [honly]; exact ⟨rfl, rfl, .inl ⟨rfl, rfl⟩⟩

/-- N and F_OFFSET stay through a session. -/
theorem exec_keeps_derived {i : Instr} {s t : State} (h : exec i s = .next t) (hs : s.phase = .on)
    (ht : t.phase = .on) : t.n = s.n ∧ t.fOffset = s.fOffset := by
  obtain ⟨-, -, hderived | ⟨-, hoff⟩ | ⟨-, hoff⟩⟩ := exec_keeps h
  · exact hderived
  · simp [hs] at hoff
  · simp [ht] at hoff

theorem illegalWord_keeps (cw : Byte) (s : State) :
    configOf (illegalWord cw s) = configOf s ∧ (illegalWord cw s).evq = s.evq ∧
      (illegalWord cw s).n = s.n ∧ (illegalWord cw s).fOffset = s.fOffset := by
  unfold illegalWord
  cases s.phase <;> exact ⟨rfl, rfl, rfl, rfl⟩

theorem handled_keeps {s t : State} (h : Handled s t) :
    configOf t = configOf s ∧ t.evq = s.evq ∧
      (s.phase = .on → t.phase = .on → t.n = s.n ∧ t.fOffset = s.fOffset) := by
  cases h with
  | waited h => rw [h]; exact ⟨rfl, rfl, fun _ _ => ⟨rfl, rfl⟩⟩
  | illegal cw h =>
    obtain ⟨hconfig, hevq, hderived⟩ := illegalWord_keeps cw s
    rw [h]; exact ⟨hconfig, hevq, fun _ _ => hderived⟩
  | ran i _ h =>
    obtain ⟨hconfig, hevq, -⟩ := exec_keeps h
    exact ⟨hconfig, hevq, exec_keeps_derived h⟩

/-- Settles O10: the event taken removes the head of `evq` or nothing, and no handler touches the queue. -/
theorem commandQueueIsFirstInFirstOut : Obligations.CommandQueueIsFirstInFirstOut := by
  refine ⟨fun cw s => rfl, fun s t h => ?_⟩
  obtain ⟨s', hfetch, hhandled⟩ := step_handled h
  obtain ⟨-, hevq, -⟩ := handled_keeps hhandled
  rw [hevq]
  exact hfetch.queue

/-- Settles O44: no instruction writes the configuration, and a step is the taking of an event and an instruction's
run. -/
theorem configurationNeverChanges : Obligations.ConfigurationNeverChanges := by
  refine ⟨fun i s t h => ?_, fun s t h => ?_, fun cw s => rfl⟩
  · obtain ⟨hconfig, -, hderived⟩ := exec_keeps h
    refine ⟨hconfig, exec_keeps_derived h, fun hstart hend => ?_⟩
    obtain hkept | ⟨hi, -⟩ | ⟨hi, -⟩ := hderived
    · exact hkept
    · exact absurd hi hstart
    · exact absurd hi hend
  · obtain ⟨s', hfetch, hhandled⟩ := step_handled h
    obtain ⟨hconfig, -, hderived⟩ := handled_keeps hhandled
    rw [hfetch.only] at hconfig hderived
    exact ⟨hconfig, hderived⟩

/-! ### The fault record -/

/-- From `s` to `t` no fault was raised, or one was: the only two ways of the fault record but START's clearing. -/
def RaisedAtMost (s t : State) : Prop :=
  faultStatus t = faultStatus s ∨ ∃ k info, faultStatus t = faultStatus (raise k info s)

/-- A WRITE that ends OK raises nothing, and one that fails raises StreamWriteFailure (R205, R228). -/
theorem faultStatus_of_writeOp {src : BufSel} {s u : State} (h : writeOp src s = .next u) :
    (u.wrRes = .ok ∧ faultStatus u = faultStatus s) ∨
      (u.wrRes = .fail ∧ faultStatus u = faultStatus (raise .streamWriteFailure u.fInfo s)) := by
  obtain ⟨-, honly, hres, -⟩ := writeOp_next h
  have hconfig : u.fConfig = s.fConfig := by rw [honly]
  have hinvalid : u.fInvalid = s.fInvalid := by rw [honly]
  rcases hres with ⟨hok, hwrite, hcode, hinfo⟩ | ⟨hfail, hwrite, hcode⟩
  · exact .inl ⟨hok, by simp [faultStatus, hconfig, hinvalid, hwrite, hcode, hinfo]⟩
  · exact .inr ⟨hfail, by simp [faultStatus, faultCode, hconfig, hinvalid, hwrite, hcode]⟩

theorem raisedAtMost_of_writeOp {src : BufSel} {s u : State} (h : writeOp src s = .next u) : RaisedAtMost s u := by
  rcases faultStatus_of_writeOp h with ⟨-, hkept⟩ | ⟨-, hraised⟩
  · exact .inl hkept
  · exact .inr ⟨_, _, hraised⟩

theorem faultStatus_tickEnd (u : State) : faultStatus (tickEnd u) = faultStatus u := by
  rw [tickEnd_spec]; rfl

theorem faultStatus_releaseEnd (u : State) : faultStatus (releaseEnd u) = faultStatus u := by
  rw [releaseEnd_spec]; rfl

theorem faultStatus_beginSession (u : State) : faultStatus (beginSession u) = faultStatus u := by
  rw [beginSession_spec]; rfl

theorem faultStatus_pressHandler {p : Token} (hp : isDirectional p = true) (s : State) :
    faultStatus (pressHandler p s) = faultStatus s := by
  obtain ⟨d, -, -, heq⟩ := pressHandler_spec p hp s
  rw [heq]; rfl

/-- What an instruction can do to the fault record: clear it first, where it is a START outside a session, then
raise at most one fault (R222). -/
theorem exec_raisedAtMost {i : Instr} {s t : State} (h : exec i s = .next t) :
    RaisedAtMost s t ∨ (i = .start ∧ s.phase = .off ∧ RaisedAtMost (clearFaults s) t) := by
  cases exec_next h with
  | unchanged _ h => exact .inl (.inl (by rw [h]))
  | configError hi hoff _ h => exact .inr ⟨hi, hoff, .inr ⟨_, _, by rw [h]⟩⟩
  | started hi hoff _ h => exact .inr ⟨hi, hoff, .inl (by rw [h, faultStatus_beginSession]; rfl)⟩
  | pressed p _ _ hp h => exact .inl (.inl (by rw [h, faultStatus_pressHandler hp]))
  | released p _ _ _ u hw h =>
    have hraised := raisedAtMost_of_writeOp hw
    exact .inl (by rw [RaisedAtMost, h, faultStatus_releaseEnd]; exact hraised)
  | ended _ _ h => exact .inl (.inl (by rw [h]; rfl))
  | ticked _ _ u hw h =>
    have hraised := raisedAtMost_of_writeOp hw
    exact .inl (by rw [RaisedAtMost, h, faultStatus_tickEnd]; exact hraised)
  | classified _ _ _ h =>
    rcases h with rfl | rfl
    · exact .inl (.inl rfl)
    · exact .inl (.inr ⟨_, _, rfl⟩)
  | encoded _ _ _ h => exact .inl (.inl (by rw [h]; rfl))
  | tiled _ h => exact .inl (.inl (by rw [h]; rfl))
  | mixed b _ h => exact .inl (.inl (by rw [h, faultStatus_modulateInto]))
  | wrote b _ hw => exact .inl (raisedAtMost_of_writeOp hw)

/-- Raising sets flags and clears none (R222). -/
theorem RaisedAtMost.flags {s t : State} (h : RaisedAtMost s t) :
    (s.fConfig = true → t.fConfig = true) ∧ (s.fInvalid = true → t.fInvalid = true) ∧
      (s.fWrite = true → t.fWrite = true) := by
  rcases h with h | ⟨k, info, h⟩
  all_goals
    simp only [faultStatus, Status.mk.injEq] at h
    obtain ⟨hconfig, hinvalid, hwrite, -, -⟩ := h
    simp +contextual [hconfig, hinvalid, hwrite]

/-- Settles O45: but for the clearing START, an instruction raises at most one fault. -/
theorem faultFlagsAreSticky : Obligations.FaultFlagsAreSticky := by
  intro i s t h hstart
  rcases exec_raisedAtMost h with hraised | ⟨hi, hoff, -⟩
  · exact hraised.flags
  · exact absurd (hstart hi) (by simp [hoff])

theorem faultRecordInv_congr {s t : State} (h : faultStatus t = faultStatus s) (hs : FaultRecordInv s) :
    FaultRecordInv t := by
  simp only [faultStatus, Status.mk.injEq] at h
  obtain ⟨hconfig, hinvalid, hwrite, hcode, -⟩ := h
  simpa only [FaultRecordInv, faultFree, hconfig, hinvalid, hwrite, hcode] using hs

/-- After a raise the record agrees with the flags, whatever it held before (R221). -/
theorem faultRecordInv_raise (k : FaultKind) (info : BitVec 32) (s : State) : FaultRecordInv (raise k info s) := by
  cases k <;> simp [FaultRecordInv, faultFree, faultCode]

theorem faultRecordInv_clearFaults (s : State) : FaultRecordInv (clearFaults s) := by
  simp [FaultRecordInv, faultFree]

theorem RaisedAtMost.faultRecordInv {s t : State} (h : RaisedAtMost s t) (hs : FaultRecordInv s) :
    FaultRecordInv t := by
  rcases h with h | ⟨k, info, h⟩
  · exact faultRecordInv_congr h hs
  · exact faultRecordInv_congr h (faultRecordInv_raise k info s)

/-- Settles O46: the record is kept, cleared, or written by a raise, and agrees with the flags after each. -/
theorem stepKeepsFaultRecord : Obligations.StepKeepsFaultRecord := by
  intro s t hs h
  obtain ⟨s', hfetch, hhandled⟩ := step_handled h
  have hs' : FaultRecordInv s' := faultRecordInv_congr (by rw [hfetch.only]; rfl) hs
  cases hhandled with
  | waited h => exact h ▸ hs'
  | illegal cw h =>
    rw [h, illegalWord]
    cases s'.phase with
    | off => exact hs'
    | on => exact faultRecordInv_raise _ _ _
  | ran i _ h =>
    rcases exec_raisedAtMost h with hraised | ⟨-, -, hraised⟩
    · exact hraised.faultRecordInv hs'
    · exact hraised.faultRecordInv (faultRecordInv_clearFaults s')

/-! ### The buffers -/

/-- The ways to write the two sample buffers in a session: STOPBUF by MODULATE into it, TXBUF by MODULATE into it,
PRESS and RELEASE. -/
theorem exec_writes_buffers {i : Instr} {s t : State} (h : exec i s = .next t) (hstart : i ≠ .start)
    (hend : i ≠ .endSession) :
    ((t.stopBuf = s.stopBuf ∧ t.stopLen = s.stopLen) ∨ i = .modulate .stop) ∧
      ((t.txBuf = s.txBuf ∧ t.txLen = s.txLen) ∨ i = .modulate .tx ∨ (∃ p ∈ pressInstrs, i = p.1) ∨
        ∃ p ∈ releaseInstrs, i = p.1) := by
  cases exec_next h with
  | unchanged _ h => rw [h]; exact ⟨.inl ⟨rfl, rfl⟩, .inl ⟨rfl, rfl⟩⟩
  | configError hi => exact absurd hi hstart
  | started hi => exact absurd hi hstart
  | pressed p hi _ hp h =>
    obtain ⟨d, -, -, heq⟩ := pressHandler_spec p hp s
    refine ⟨.inl ?_, .inr (.inr (.inl ⟨_, mem_pressInstrs_of_pressOf hi, rfl⟩))⟩
    rw [h, heq]; exact ⟨rfl, rfl⟩
  | released p hi _ _ u hw h =>
    obtain ⟨-, honly, -, -⟩ := writeOp_next hw
    refine ⟨.inl ?_, .inr (.inr (.inr ⟨_, mem_releaseInstrs_of_releaseOf hi, rfl⟩))⟩
    rw [h, releaseEnd_spec, honly]; exact ⟨rfl, rfl⟩
  | ended hi => exact absurd hi hend
  | ticked hi =>
    subst hi
    rw [tickedOnly_of_exec h]; exact ⟨.inl ⟨rfl, rfl⟩, .inl ⟨rfl, rfl⟩⟩
  | classified _ _ _ h => rcases h with rfl | rfl <;> exact ⟨.inl ⟨rfl, rfl⟩, .inl ⟨rfl, rfl⟩⟩
  | encoded _ _ _ h => rw [h]; exact ⟨.inl ⟨rfl, rfl⟩, .inl ⟨rfl, rfl⟩⟩
  | tiled _ h => rw [h]; exact ⟨.inl ⟨rfl, rfl⟩, .inl ⟨rfl, rfl⟩⟩
  | mixed b hi h =>
    cases b with
    | tx => rw [h]; exact ⟨.inl ⟨rfl, rfl⟩, .inr (.inl hi)⟩
    | stop => rw [h]; exact ⟨.inr hi, .inl ⟨rfl, rfl⟩⟩
  | wrote b _ hw =>
    obtain ⟨-, honly, -, -⟩ := writeOp_next hw
    rw [honly]; exact ⟨.inl ⟨rfl, rfl⟩, .inl ⟨rfl, rfl⟩⟩

/-- Settles O52: the ways to write each buffer, by the inversion of `exec`; TICK and WRITE write none. -/
theorem buffersAreReadOnlyOnceBuilt : Obligations.BuffersAreReadOnlyOnceBuilt := by
  intro i s t h hstart hend
  obtain ⟨hstop, htx⟩ := exec_writes_buffers h hstart hend
  refine ⟨hstop.resolve_right, fun hmod hpress hrelease => ?_, ?_⟩
  · obtain hkept | hi | ⟨p, hp, hi⟩ | ⟨p, hp, hi⟩ := htx
    · exact hkept
    · exact absurd hi hmod
    · exact absurd hi (hpress p hp)
    · exact absurd hi (hrelease p hp)
  · rintro (rfl | ⟨src, rfl⟩)
    · rw [tickedOnly_of_exec h]; exact ⟨rfl, rfl⟩
    · obtain ⟨-, honly, -, -⟩ := writeOp_next ((exec_write src s).symm.trans h)
      rw [honly]; exact ⟨rfl, rfl⟩

end Sys2Proof.Machine
end

section
/-! The handlers of the command words, each where it runs to its end (42_scheduler R161 to R178), and the states
in which the core has no step (20_memory R65, 43_writer R202). -/

namespace Sys2Proof.Machine

/-! ### Dropped words -/

theorem exec_press_of_off {p : Token} {i : Instr} (hi : pressOf p = some i) {s : State} (hoff : s.phase = .off) :
    exec i s = .next s :=
  (exec_of_pressOf hi s).trans (inSession_of_off hoff _)

theorem exec_release_of_off {p : Token} {i : Instr} (hi : releaseOf p = some i) {s : State} (hoff : s.phase = .off) :
    exec i s = .next s :=
  (exec_of_releaseOf hi s).trans (inSession_of_off hoff _)

/-- Settles O6: each handler looks at the phase first. -/
theorem droppedWordsChangeNothing : Obligations.DroppedWordsChangeNothing := fun _ =>
  ⟨exec_start_of_on, fun hoff => ⟨fun _ hp => exec_press_of_off (pressOf_of_mem hp) hoff,
    fun _ hp => exec_release_of_off (releaseOf_of_mem hp) hoff, inSession_of_off hoff _⟩⟩

/-! ### START -/

theorem rateValid_iff {rate clock : Nat} : rateValid rate clock = true ↔ clock ≤ rate ∧ rate % clock = 0 := by
  simp only [rateValid, Bool.and_eq_true, decide_eq_true_eq, beq_iff_eq]

/-- START outside a session at a valid rate, on a radio that answers: steps 1 to 9 (R162). -/
theorem exec_start_of_rate_valid {s : State} (hoff : s.phase = .off)
    (hr : rateValid s.sampleRate.toNat clockHz = true) (halive : s.radioHangAt = none) :
    exec .start s = .next (beginSession { deriveRegs (clearFaults s) with
      radioLog := s.radioLog ++
        [.configure s.sampleRate s.fCenter s.gain, .openTransmitStream, .activateStream] }) := by
  rw [exec_start_of_off hoff, startHandler, if_pos hr,
    openRadio_alive (s := deriveRegs (clearFaults s)) halive, andThen_next]
  rfl

/-- A valid rate is N clock periods (R7). -/
theorem deriveRegs_n_mul {s : State} (h : s.sampleRate.toNat % clockHz = 0) :
    (deriveRegs s).n.toNat * clockHz = s.sampleRate.toNat := by
  rw [deriveRegs_n_toNat]
  exact Nat.div_mul_cancel (Nat.dvd_of_mod_eq_zero h)

/-- The information word of ConfigurationError is the remainder of the rate (R225). -/
theorem sampleRate_umod_clock (rate : BitVec 32) :
    rate % BitVec.ofNat 32 clockHz = BitVec.ofNat 32 (rate.toNat % 2000) := by
  have hclock : (BitVec.ofNat 32 clockHz).toNat = 2000 := rfl
  apply BitVec.eq_of_toNat_eq
  rw [BitVec.toNat_umod, hclock, BitVec.toNat_ofNat,
    Nat.mod_eq_of_lt (show rate.toNat % 2000 < 2 ^ 32 by omega)]

/-- Settles O11: the check of step 2 decides between the whole start, as one update, and the fault record. -/
theorem startRunsItsSteps : Obligations.StartRunsItsSteps := by
  refine fun s hoff halive => ⟨fun hrate => ?_, fun hrate => ?_⟩
  · have hn := unit_le_maxUnit (deriveRegs_n_toNat (clearFaults s))
    refine ⟨_, exec_start_of_rate_valid hoff (rateValid_iff.mpr hrate) halive, ?_⟩
    rw [beginSession_spec]
    exact ⟨rfl, rfl, rfl, rfl, rfl, deriveRegs_n_mul (s := clearFaults s) hrate.2,
      deriveRegs_fOffset_toInt (clearFaults s), rfl, rfl, stopFrame_lenWord_toNat hn, rfl, rfl, rfl,
      idleFrame_lenWord_toNat hn, fun c hc => isZero_of_mem_modulateSeq_low hc, rfl, rfl, rfl, rfl, rfl, rfl, rfl,
      rfl⟩
  · rw [exec_start_of_rate_invalid hoff (rateValid_eq_false_iff.mpr hrate), sampleRate_umod_clock]
    rfl

/-! ### END -/

theorem radioCall_alive (tx : RadioTx) {s : State} (h : s.radioHangAt = none) :
    radioCall tx s = .next { s with radioLog := s.radioLog ++ [tx] } :=
  if_pos (radioReturns_alive h)

/-- END in a session, on a radio that answers: steps 1 to 3 (R178). -/
theorem exec_end_alive {s : State} (hon : s.phase = .on) (halive : s.radioHangAt = none) :
    exec .endSession s = .next (forget { cancel s with
      radioLog := s.radioLog ++ [.deactivateStream] ++ [.closeStream], phase := .off }) := by
  show inSession s endHandler = _
  rw [inSession_of_on hon, endHandler, radioCall_alive _ (s := cancel s) halive, andThen_next, radioCall_alive,
    andThen_next]
  · rfl
  · exact halive

/-- Settles O13: the free values of the closed session leave the configuration, `evq` and the fault record. -/
theorem endClosesTheSession : Obligations.EndClosesTheSession := fun _ hon halive =>
  ⟨_, exec_end_alive hon halive, rfl, rfl, List.append_assoc _ _ _, rfl, rfl, rfl, rfl⟩

/-! ### PRESS -/

theorem isDirectional_of_mem {p : Instr × Token} (hp : p ∈ pressInstrs) : isDirectional p.2 = true := by
  revert p
  decide

/-- Settles O14: the handler as one update, whose token has a count. -/
theorem pressRebuildsAndArms : Obligations.PressRebuildsAndArms := by
  intro p hp s hon hn
  have hi := pressOf_of_mem hp
  have hdir := isDirectional_of_mem hp
  obtain ⟨d, hclass, hd, heq⟩ := pressHandler_spec p.2 hdir s
  obtain ⟨c, hcount⟩ := Option.isSome_iff_exists.mp hd
  have hseq := encodeSeq_of_tokenCount hcount s.n.toNat
  have hlen := tiledFrame_lenWord_toNat d hn
  rw [hseq] at heq hlen
  rw [dirFrame_length] at hlen
  refine ⟨_, d, c, exec_press_of_on hi hon, ?_⟩
  rw [heq]
  exact ⟨rfl, hclass, hcount, rfl, rfl, hlen, rfl, rfl, rfl, rfl⟩

/-! ### RELEASE -/

/-- The operand of RELEASE was validated by dispatch and is not used (R171 b). -/
theorem release_operand (p q : Token) (s : State) : release p s = release q s := rfl

/-- Settles O16: outside MOVING the handler ends at step 0, and no step reads the operand. -/
theorem releaseOutsideMovingDoesNothing : Obligations.ReleaseOutsideMovingDoesNothing := by
  refine fun p hp s => ⟨fun hon hs => ?_, fun q hq => ?_⟩ <;> rw [exec_of_releaseOf (releaseOf_of_mem hp)]
  · exact release_of_not_moving hon hs p.2
  · rw [exec_of_releaseOf (releaseOf_of_mem hq), release_operand]

/-! ### A TICK before a PRESS -/

theorem faultStatus_of_tick_ok {s t : State} (h : exec .tick s = .next t) (hok : t.wrRes = .ok) :
    faultStatus t = faultStatus s := by
  obtain ⟨-, u, hu, rfl⟩ := execTick_next h
  have hokU : u.wrRes = .ok := by rw [tickEnd_spec] at hok; exact hok
  rw [faultStatus_tickEnd]
  rcases faultStatus_of_writeOp hu with ⟨-, hfaults⟩ | ⟨hfail, -⟩
  · exact hfaults
  · simp [hokU] at hfail

/-- Settles O21: a TICK writes nothing that a PRESS reads, and a PRESS writes neither the air nor the fault
record. -/
theorem tickFirstAddsOneTransmission : Obligations.TickFirstAddsOneTransmission := by
  intro p hp s u t v he hlen hu hok hv ht
  have hi := pressOf_of_mem hp
  have hdir := isDirectional_of_mem hp
  have honS := (tickEnabled_iff.mp he).1
  have honly := tickedOnly_of_exec hu
  have honU : u.phase = .on := by rw [honly]; exact honS
  have hair := exec_tick_air_of_ok hlen hu hok
  have hfaults := faultStatus_of_tick_ok hu hok
  rw [exec_press_of_on hi honU] at hv
  rw [exec_press_of_on hi honS] at ht
  obtain rfl := Host.Outcome.next.inj hv
  obtain rfl := Host.Outcome.next.inj ht
  have hheld : u.held = s.held := by rw [honly]
  obtain ⟨d, hclassS, -, heqS⟩ := pressHandler_spec p.2 hdir s
  obtain ⟨d', hclassU, -, heqU⟩ := pressHandler_spec p.2 hdir u
  rw [hheld] at hclassU
  obtain rfl : d' = d := Option.some.inj (hclassU.symm.trans hclassS)
  rw [faultStatus_pressHandler hdir, faultStatus_pressHandler hdir, pressHandler_air hdir, pressHandler_air hdir, hair,
    hfaults, heqS, heqU]
  refine ⟨rfl, ?_, rfl, rfl, ?_, ?_, ?_, rfl, ?_, ?_, rfl⟩ <;> rw [honly]

/-! ### The stops -/

/-- The transaction that never returns is the next one (R65). -/
theorem radioReturns_of_hang {s : State} (h : s.radioHangAt = some s.radioLog.length) : radioReturns s = false := by
  simp [radioReturns, h]

theorem radioCall_of_hang (tx : RadioTx) {s : State} (h : s.radioHangAt = some s.radioLog.length) :
    radioCall tx s = .fault .radioStuck := by
  rw [radioCall, radioReturns_of_hang h]
  rfl

theorem writeOp_of_busy {s : State} (h : s.wr = .busy) (src : BufSel) : writeOp src s = .fault .writerBusy := by
  rw [writeOp, h]

/-- The first call of a WRITE with samples to send does not return. -/
theorem writeOp_of_hang {src : BufSel} {s : State} (hidle : s.wr = .idle) (hlen : bufLen src s ≠ 0)
    (h : s.radioHangAt = some s.radioLog.length) : writeOp src s = .fault .radioStuck := by
  have hpos : 0 < (bufLen src s).toNat := Nat.pos_of_ne_zero fun hzero => hlen (BitVec.eq_of_toNat_eq hzero)
  obtain ⟨fuel, hfuel⟩ := Nat.exists_eq_add_one.mpr hpos
  have hlt : (beginWrite src s).wrOff.toNat < (beginWrite src s).wrLen.toNat := hpos
  rw [writeOp_of_idle hidle, hfuel, writeLoop, if_pos hlt, radioReturns_of_hang (s := beginWrite src s) h]
  rfl

/-- A TICK whose write stops, stops with it. -/
theorem exec_tick_of_fault {s : State} {f : Fault} (he : tickEnabled s = true)
    (h : writeOp .tx (cancel s) = .fault f) : exec .tick s = .fault f := by
  show execTick s = _
  rw [execTick, if_pos he, h]
  rfl

/-- Settles O20: the first radio transaction of each operation, and the checks before it. -/
theorem stopsHaveNoStep : Obligations.StopsHaveNoStep := by
  refine fun s => ⟨fun he => ?_, fun src hbusy => writeOp_of_busy hbusy src,
    fun src hidle hlen h => writeOp_of_hang hidle hlen h,
    fun he hbusy => exec_tick_of_fault he (writeOp_of_busy (s := cancel s) hbusy .tx),
    fun he hidle hlen h => exec_tick_of_fault he (writeOp_of_hang (s := cancel s) hidle hlen h),
    fun hon h => ?_, fun hoff hr h => ?_⟩
  · show execTick s = _
    rw [execTick, he]
    rfl
  · show inSession s endHandler = _
    rw [inSession_of_on hon, endHandler, radioCall_of_hang _ (s := cancel s) h]
    rfl
  · rw [exec_start_of_off hoff, startHandler, if_pos (show rateValid s.sampleRate.toNat clockHz = true from hr),
      openRadio, radioCall_of_hang _ (s := deriveRegs (clearFaults s)) h]
    rfl

end Sys2Proof.Machine
end

section
/-! The state at construction (70_reset R251), the form of the buffers (20_memory R56), and what a step puts on the
air in IDLE (42_scheduler R177) and outside a session (R161). -/

namespace Sys2Proof.Machine

/-! ### Construction -/

/-- Settles O1: the column of R251, field by field. -/
theorem constructionLeavesSessionOff : Obligations.ConstructionLeavesSessionOff :=
  ⟨fun _ => ⟨rfl, rfl, rfl, rfl, rfl, rfl, rfl, rfl, rfl, rfl, rfl, rfl⟩, resetConstruction, rfl⟩

/-- Nothing is promised of the registers outside a session (R22). -/
theorem coreInv_of_off {s : State} (hoff : s.phase = .off) : CoreInv s := fun hon => by simp [hoff] at hon

theorem faultRecordInv_construct (c : Construction) : FaultRecordInv (State.construct c) :=
  faultRecordInv_clearFaults (State.construct c)

/-- Settles O47: construction leaves the session closed, the record clear and the buffers empty. -/
theorem invariantsHoldAtReset : Obligations.InvariantsHoldAtReset :=
  ⟨coreInv_of_off rfl, faultRecordInv_construct _, reset_wf,
    fun c => ⟨coreInv_of_off rfl, faultRecordInv_construct c, construct_wf c⟩⟩

/-- Settles O43: `raise` writes the flag of its kind and the record. -/
theorem raiseRecordsTheFault : Obligations.RaiseRecordsTheFault := fun _ _ => ⟨rfl, rfl, rfl⟩

/-! ### The form of the buffers -/

/-- START writes all three buffers (R162), under R55's bound on `N`. -/
theorem beginSession_wf {s : State} (hn : s.n.toNat ≤ maxUnit) : Memory.wf (beginSession s) = true := by
  have hidle : (lenWord (idleFrame s.n.toNat).length).toNat = (idleFrame s.n.toNat).length :=
    (idleFrame_lenWord_toNat hn).trans (idleFrame_length _).symm
  have hstop : (lenWord (stopFrame s.n.toNat).length).toNat = (stopFrame s.n.toNat).length :=
    (stopFrame_lenWord_toNat hn).trans (stopFrame_length _).symm
  rw [beginSession_spec, memory_wf_iff, modulateSeq_length, modulateSeq_length]
  exact ⟨hidle, hidle, hstop⟩

theorem pressHandler_wf (p : Token) {s : State} (hn : s.n.toNat ≤ maxUnit) (h : Memory.wf s = true) :
    Memory.wf (pressHandler p s) = true :=
  buildTx_wf _ { cancel s with held := s.held ||| letters p, curTok := (classifyMask (s.held ||| letters p)).getD p }
    hn h

theorem releaseEnd_wf {u : State} (hn : u.n.toNat ≤ maxUnit) (h : Memory.wf u = true) :
    Memory.wf (releaseEnd u) = true := by
  have hbuilt := buildTx_wf .idle { u with held := 0, curTok := .idle } hn h
  unfold releaseEnd
  cases u.wrRes <;> exact hbuilt

theorem tickEnd_wf {u : State} (h : Memory.wf u = true) : Memory.wf (tickEnd u) = true := by
  rw [tickEnd_spec]
  exact h

/-- Every end of a handler in a session keeps the form of the buffers, or establishes it. -/
theorem memory_wf_of_handlerEnd {s t : State} (hinv : CoreInv s) (hwf : s.phase = .on → Memory.wf s = true)
    (hend : HandlerEnd s t) (hon : t.phase = .on) : Memory.wf t = true := by
  have hn (honS : s.phase = .on) : s.n.toNat ≤ maxUnit := unit_le_maxUnit (hinv honS).unit
  cases hend with
  | unchanged h => exact h ▸ hwf (h ▸ hon)
  | illegal cw honS h => exact h ▸ hwf honS
  | configError hoff h => exact absurd hon (by simp [h, hoff])
  | started hoff hr h => exact h ▸ beginSession_wf (unit_le_maxUnit (deriveRegs_n_toNat (clearFaults s)))
  | pressed p honS hp h => exact h ▸ pressHandler_wf p (hn honS) (hwf honS)
  | released honS hmov u hw h =>
    obtain ⟨-, honly, -, -⟩ := writeOp_next hw
    have hunit : u.n.toNat ≤ maxUnit := by rw [honly]; exact hn honS
    exact h ▸ releaseEnd_wf hunit (wroteOnly_wf honly (hwf honS))
  | ended honS h => exact absurd hon (by rw [h]; simp [forget])
  | ticked he u hw h =>
    obtain ⟨-, honly, -, -⟩ := writeOp_next hw
    exact h ▸ tickEnd_wf (wroteOnly_wf honly (hwf (tickEnabled_iff.mp he).1))

/-- Settles O49: taking an event touches no buffer, and every handler's end keeps their form. -/
theorem stepKeepsMemoryForm : Obligations.StepKeepsMemoryForm := by
  intro s t hinv hwf h hon
  obtain ⟨s', hfetch, hend⟩ := step_handlerEnd h
  refine memory_wf_of_handlerEnd (coreInv_of_fetched hfetch hinv) ?_ hend hon
  rw [hfetch.only]
  exact hwf

/-! ### Silence in IDLE -/

/-- The air grew by zero pairs alone. -/
def SilenceSent (s t : State) : Prop := ∃ zs : List C32, t.air = s.air ++ zs ∧ ∀ c ∈ zs, c.isZero

theorem silenceSent_of_air_eq {s t : State} (h : t.air = s.air) : SilenceSent s t :=
  ⟨[], by rw [h, List.append_nil], List.forall_mem_nil _⟩

theorem isZero_of_mem_idleBuffer {s : State} {c : C32} (h : c ∈ idleBuffer s) : c.isZero :=
  isZero_of_mem_modulateSeq_low h

theorem tickEnd_air (u : State) : (tickEnd u).air = u.air := by rw [tickEnd_spec]

/-- A TICK in IDLE sends a slice of the idle buffer, whatever the radio answers. -/
theorem silenceSent_of_tick {s u : State} (hinv : SessionInv s) (hidle : s.sch = .idle)
    (hw : writeOp .tx (cancel s) = .next u) : SilenceSent s (tickEnd u) := by
  obtain ⟨htx, hlen⟩ := hinv.idleTx hidle
  have hform : (bufLen .tx (cancel s)).toNat = (bufSamples .tx (cancel s)).length := by
    show s.txLen.toNat = s.txBuf.length
    rw [hlen, htx]
    simp [idleBuffer, modulated, encodeSeq, idleLen, idleUnits]
  refine ⟨_, (tickEnd_air u).trans (writeOp_sentSlice hform hw).air, fun c hc => ?_⟩
  have hmem : c ∈ s.txBuf := List.mem_of_mem_drop (List.mem_of_mem_take hc)
  exact isZero_of_mem_idleBuffer (htx ▸ hmem)

/-- Settles O50: in IDLE only TICK reaches the air. -/
theorem idleTransmitsOnlySilence : Obligations.IdleTransmitsOnlySilence := by
  intro s t hon hinv hidle h
  obtain ⟨s', hfetch, hend⟩ := step_handlerEnd h
  have honS : s'.phase = .on := by rw [hfetch.only]; exact hon
  have hidleS : s'.sch = .idle := by rw [hfetch.only]; exact hidle
  have hairS : s'.air = s.air := by rw [hfetch.only]
  show SilenceSent s t
  unfold SilenceSent
  rw [← hairS]
  cases hend with
  | unchanged h => exact silenceSent_of_air_eq (by rw [h])
  | illegal cw _ h => exact silenceSent_of_air_eq (by rw [h, raise_air])
  | configError hoff => simp [honS] at hoff
  | started hoff => simp [honS] at hoff
  | pressed p _ hp h => exact silenceSent_of_air_eq (by rw [h, pressHandler_air hp])
  | released _ hmov => simp [hidleS] at hmov
  | ended _ h => exact silenceSent_of_air_eq (by rw [h]; rfl)
  | ticked _ u hw h => exact h ▸ silenceSent_of_tick (coreInv_of_fetched hfetch hinv honS) hidleS hw

/-! ### Outside a session -/

theorem writeCalls_append (a b : List RadioTx) : writeCalls (a ++ b) = writeCalls a + writeCalls b := by
  simp only [writeCalls, List.filter_append, List.length_append]

/-- Settles O51: outside a session only START does anything, and its three transactions are no write calls. -/
theorem noTransmissionOutsideSession : Obligations.NoTransmissionOutsideSession := by
  intro s t hoff h
  obtain ⟨s', hfetch, hend⟩ := step_handlerEnd h
  have hoffS : s'.phase = .off := by rw [hfetch.only]; exact hoff
  have hairS : s'.air = s.air := by rw [hfetch.only]
  have hlogS : s'.radioLog = s.radioLog := by rw [hfetch.only]
  rw [← hairS, ← hlogS]
  cases hend with
  | unchanged h => rw [h]; exact ⟨rfl, .inl rfl⟩
  | configError _ h => rw [h]; exact ⟨rfl, .inl rfl⟩
  | started _ _ h => rw [h, beginSession_spec]; exact ⟨writeCalls_append _ _, .inr rfl⟩
  | illegal _ hon => simp [hoffS] at hon
  | pressed _ hon => simp [hoffS] at hon
  | released hon => simp [hoffS] at hon
  | ended hon => simp [hoffS] at hon
  | ticked he => exact absurd (tickEnabled_iff.mp he).1 (by simp [hoffS])

end Sys2Proof.Machine
end

section
/-! CLASSIFY on strings of the same letters (30_encoding R78), and words misread by their letters (70_reset R264). -/

namespace Sys2Proof.Machine

theorem hasLetter_perm {a b : List Byte} (h : a.Perm b) (lower upper : Byte) :
    hasLetter lower upper a = hasLetter lower upper b :=
  h.any_eq

/-- A string's class is a function of its letter flags (R102). -/
theorem classifyString_perm {a b : List Byte} (h : a.Perm b) : classifyString a = classifyString b := by
  simp only [classifyString, maskOfString, hasLetter_perm h]

/-- Settles O24: the flags do not look at the order, and the seven words' classes are those of their letters. -/
theorem classifyIgnoresOrderAndMisreadsWords : Obligations.ClassifyIgnoresOrderAndMisreadsWords := by
  refine ⟨fun a b s h => ?_, fun s p hp => exec_classify_raw_of_some ?_ s⟩
  · rw [exec_classify_raw, exec_classify_raw, classifyStringOp, classifyStringOp, classifyString_perm h]
  · revert p
    decide

end Sys2Proof.Machine
end

section
/-! The integer laws of the encoder (40_encoder R118) and its runs (R119). -/

namespace Sys2Proof.Machine

/-! ### Lengths -/

/-- The length of every frame in units of `N` (20_memory R55). -/
def frameUnits : Token → Nat
  | .n => 96 | .s => 36 | .e => 144 | .w => 132 | .ne => 108 | .nw => 120 | .se => 84 | .sw => 72
  | .stop => 360 | .idle => 10

theorem encodeSeq_length (u : Nat) (t : Token) : (encodeSeq u t).length = frameUnits t * u := by
  cases t <;> simp only [encodeSeq, tokenCount, Option.getD_some, dirFrame_length, stopFrame_length, idleFrame_length,
    frameUnits] <;> omega

/-- The directional tokens are those of the PRESS instructions (30_encoding R75). -/
theorem mem_pressInstrs_of_directional {t : Token} (ht : isDirectional t = true) : ∃ i, (i, t) ∈ pressInstrs := by
  have hsome : isDirectional t = (pressOf t).isSome := by cases t <;> rfl
  obtain ⟨i, hi⟩ := Option.isSome_iff_exists.mp (hsome ▸ ht)
  exact ⟨i, mem_pressInstrs_of_pressOf hi⟩

theorem isDirectional_iff (t : Token) : isDirectional t = true ↔ t ≠ .stop ∧ t ≠ .idle := by
  cases t <;> decide

/-- Distinct directional tokens have frames of distinct lengths (R118). -/
theorem frameUnits_injective {t t' : Token} (ht : isDirectional t = true) (ht' : isDirectional t' = true)
    (h : frameUnits t = frameUnits t') : t = t' := by
  have hrows : ∀ p ∈ pressInstrs, ∀ q ∈ pressInstrs, frameUnits p.2 = frameUnits q.2 → p.2 = q.2 := by decide
  obtain ⟨i, hi⟩ := mem_pressInstrs_of_directional ht
  obtain ⟨i', hi'⟩ := mem_pressInstrs_of_directional ht'
  exact hrows _ hi _ hi' h

theorem frameUnits_le_stop (t : Token) : frameUnits t ≤ 360 := by cases t <;> decide

theorem frameUnits_le_of_directional {t : Token} (ht : isDirectional t = true) : frameUnits t ≤ 144 := by
  have hrows : ∀ p ∈ pressInstrs, frameUnits p.2 ≤ 144 := by decide
  obtain ⟨i, hi⟩ := mem_pressInstrs_of_directional ht
  exact hrows _ hi

/-- Under R55's bound on `N` no length, nor four times it, passes the length registers. -/
theorem encodeSeq_length_bounds (t : Token) {u : Nat} (hu : u ≤ maxUnit) :
    4 * (encodeSeq u t).length < 2 ^ 32 ∧ (encodeSeq u t).length < 2 ^ 31 ∧
      (isDirectional t = true → 4 * (encodeSeq u t).length < 2 ^ 31) := by
  rw [maxUnit_eq] at hu
  rw [encodeSeq_length]
  have hle := Nat.mul_le_mul (frameUnits_le_stop t) hu
  refine ⟨by omega, by omega, fun ht => ?_⟩
  have hle := Nat.mul_le_mul (frameUnits_le_of_directional ht) hu
  omega

/-! ### The common preamble -/

theorem dirFrame_take (u c : Nat) : (dirFrame u c).take (16 * u) = tileSeq (longBit u) preLong := by
  have hlen : (tileSeq (longBit u) preLong).length = 16 * u := by
    simp only [tileSeq_length, preLong, longBit_length]; omega
  rw [dirFrame, ← hlen, List.take_left]

/-- The STOP frame begins with a directional frame of count 4 (R115). -/
theorem stopFrame_take (u : Nat) : (encodeSeq u .stop).take (16 * u) = tileSeq (longBit u) preLong := by
  have hle : 16 * u ≤ (dirFrame u 4).length := by rw [dirFrame_length]; omega
  rw [encodeSeq_stop, tileSeq_succ, List.take_append_of_le_length hle, dirFrame_take]

theorem encodeSeq_take_of_directional {t : Token} (ht : isDirectional t = true) (u : Nat) :
    (encodeSeq u t).take (16 * u) = tileSeq (longBit u) preLong := by
  obtain ⟨c, hc⟩ := Option.isSome_iff_exists.mp ht
  rw [encodeSeq_of_tokenCount hc, dirFrame_take]

/-- Settles O31: every frame's length is its units times `N`, and every frame but IDLE begins with four `long`
bits. -/
theorem encoderIntegerLaws : Obligations.EncoderIntegerLaws := by
  refine ⟨fun t u => ⟨?_, encodeSeq_length_bounds t⟩, fun t t' u ht ht' => ⟨?_, ?_, fun hu hne hlen => ?_⟩,
    fun u => ?_, rfl⟩
  · rw [encodeSeq_length]
    exact Nat.dvd_mul_left u _
  · rw [encodeSeq_take_of_directional ht, encodeSeq_take_of_directional ht']
  · rw [encodeSeq_take_of_directional ht, stopFrame_take]
  · rw [encodeSeq_length, encodeSeq_length] at hlen
    exact hne (frameUnits_injective ht ht' (Nat.eq_of_mul_eq_mul_right hu hlen))
  · simp only [encodeSeq_length]
    rfl

/-! ### Runs -/

/-- A sequence of pulses of `u` or `3 u` HIGH and `u` LOW samples, as its runs show: it begins HIGH, no run of HIGH is
longer than `3 u`, and no run of LOW longer than `u`. -/
structure Pulsed (u : Nat) (f : List Level) : Prop where
  head : f ≠ [] → f.head? = some .high
  low : ∀ i, i < f.length → ∃ j, i ≤ j ∧ j ≤ i + 3 * u ∧ f[j]? = some .low
  high : ∀ i, i + u < f.length → ∃ j, i ≤ j ∧ j ≤ i + u ∧ f[j]? = some .high

theorem pulsed_nil (u : Nat) : Pulsed u [] :=
  ⟨fun h => absurd rfl h, fun _ h => absurd h (Nat.not_lt_zero _), fun _ h => absurd h (Nat.not_lt_zero _)⟩

theorem pulsed_pulse {u high : Nat} (hu : 1 ≤ u) (hpos : 1 ≤ high) (hle : high ≤ 3 * u) :
    Pulsed u (List.replicate high .high ++ List.replicate u .low) where
  head := fun _ => by
    obtain ⟨k, rfl⟩ := Nat.exists_eq_add_one.mpr hpos
    rfl
  low := fun i hi => by
    simp only [List.length_append, List.length_replicate] at hi
    refine ⟨max i high, by omega, by omega, ?_⟩
    rw [pulse_getElem? (by omega), if_neg (by omega)]
  high := fun i hi => by
    simp only [List.length_append, List.length_replicate] at hi
    refine ⟨i, le_rfl, by omega, ?_⟩
    rw [pulse_getElem? (by omega), if_pos (by omega)]

/-- Where one sequence of pulses ends, the next begins HIGH: no run is longer across the seam. -/
theorem Pulsed.append {u : Nat} {f g : List Level} (hf : Pulsed u f) (hg : Pulsed u g) : Pulsed u (f ++ g) where
  head := fun hne => by
    rcases f with _ | ⟨l, f⟩
    · exact hg.head hne
    · exact hf.head (List.cons_ne_nil l f)
  low := fun i hi => by
    rw [List.length_append] at hi
    by_cases hin : i < f.length
    · obtain ⟨j, hij, hj, hlow⟩ := hf.low i hin
      have hjlt := (List.getElem?_eq_some_iff.mp hlow).1
      exact ⟨j, hij, hj, by rw [List.getElem?_append_left hjlt, hlow]⟩
    · obtain ⟨j, hij, hj, hlow⟩ := hg.low (i - f.length) (by omega)
      refine ⟨f.length + j, by omega, by omega, ?_⟩
      rw [List.getElem?_append_right (Nat.le_add_right _ _), Nat.add_sub_cancel_left, hlow]
  high := fun i hi => by
    rw [List.length_append] at hi
    by_cases hin : i + u < f.length
    · obtain ⟨j, hij, hj, hhigh⟩ := hf.high i hin
      exact ⟨j, hij, hj, by rw [List.getElem?_append_left (by omega), hhigh]⟩
    by_cases hseam : i ≤ f.length
    · refine ⟨f.length, hseam, by omega, ?_⟩
      have hne : g ≠ [] := List.ne_nil_of_length_pos (by omega)
      rw [List.getElem?_append_right le_rfl, Nat.sub_self, ← List.head?_eq_getElem?, hg.head hne]
    · obtain ⟨j, hij, hj, hhigh⟩ := hg.high (i - f.length) (by omega)
      refine ⟨f.length + j, by omega, by omega, ?_⟩
      rw [List.getElem?_append_right (Nat.le_add_right _ _), Nat.add_sub_cancel_left, hhigh]

theorem Pulsed.tile {u : Nat} {f : List Level} (hf : Pulsed u f) (m : Nat) : Pulsed u (tileSeq f m) := by
  induction m with
  | zero => exact pulsed_nil u
  | succ m ih =>
    rw [tileSeq_succ]
    exact hf.append ih

theorem pulsed_dirFrame {u : Nat} (hu : 1 ≤ u) (c : Nat) : Pulsed u (dirFrame u c) := by
  have hlong : Pulsed u (longBit u) := by
    rw [longBit_eq]
    exact pulsed_pulse hu (by omega) le_rfl
  have hshort : Pulsed u (shortBit u) := by
    rw [shortBit_eq]
    exact pulsed_pulse hu hu (by omega)
  exact (hlong.tile _).append (hshort.tile _)

/-- Every frame but IDLE is made of directional frames. -/
theorem encodeSeq_eq_tile {t : Token} (ht : t ≠ .idle) (u : Nat) :
    ∃ c m, 0 < m ∧ encodeSeq u t = tileSeq (dirFrame u c) m := by
  by_cases hstop : t = .stop
  · subst hstop
    exact ⟨4, 15, by decide, encodeSeq_stop u⟩
  · obtain ⟨c, hc⟩ := Option.isSome_iff_exists.mp ((isDirectional_iff t).mpr ⟨hstop, ht⟩)
    exact ⟨c, 1, Nat.one_pos, by rw [encodeSeq_of_tokenCount hc]; simp [tileSeq]⟩

/-- Every frame ends with a clock period of LOW samples (R119). -/
theorem low_suffix_encodeSeq (u : Nat) (t : Token) : List.replicate u .low <:+ encodeSeq u t := by
  by_cases hidle : t = .idle
  · subst hidle
    refine ⟨List.replicate (9 * u) .low, ?_⟩
    show _ = List.replicate (10 * u) Level.low
    rw [← List.replicate_add]
    congr 1
    omega
  · obtain ⟨c, m, hm, hseq⟩ := encodeSeq_eq_tile hidle u
    rw [hseq]
    exact (low_suffix_dirFrame u c).trans (suffix_tileSeq _ hm)

theorem encodeSeq_getLast? {u : Nat} (hu : 1 ≤ u) (t : Token) : (encodeSeq u t).getLast? = some .low := by
  obtain ⟨f, hf⟩ := low_suffix_encodeSeq u t
  have hne : u ≠ 0 := by omega
  rw [← hf]
  simp [List.getLast?_append, List.getLast?_replicate, hne]

/-- A tiled sequence has the length of its tile as a period. -/
theorem tileSeq_period {α : Type} (s : List α) {m i : Nat} (h : i + s.length < m * s.length) :
    (tileSeq s m)[i + s.length]? = (tileSeq s m)[i]? := by
  rw [tileSeq_getElem? s h, tileSeq_getElem? s (by omega), Nat.add_mod_right]

/-- Settles O32: every frame but IDLE is a sequence of pulses, and every frame ends LOW. -/
theorem frameRunsAreBounded : Obligations.FrameRunsAreBounded := by
  refine fun t u hu => ⟨encodeSeq_getLast? hu t, fun hidle => ?_, fun i hi => tileSeq_period _ hi⟩
  obtain ⟨c, m, -, hseq⟩ := encodeSeq_eq_tile hidle u
  have hpulsed : Pulsed u (encodeSeq u t) := by
    rw [hseq]
    exact (pulsed_dirFrame hu c).tile m
  have hne : encodeSeq u t ≠ [] := List.getLast?_isSome.mp (by rw [encodeSeq_getLast? hu]; rfl)
  exact ⟨hpulsed.head hne, fun i hi => hpulsed.low i (by omega), hpulsed.high⟩

end Sys2Proof.Machine
end

section
/-! MODULATE run by itself (41_modulator R144 to R146), frames that do not fit (10_state R38 to R40), and the exact
phase (R143, R147). -/

namespace Sys2Proof.Machine

/-! ### MODULATE -/

theorem exec_modulate_of_fits {dst : BufSel} {s : State} (h : s.frame.length ≤ bufCapUnits dst * s.n.toNat) :
    exec (.modulate dst) s = .next (modulateInto dst s) :=
  if_pos h

theorem exec_modulate_next {dst : BufSel} {s t : State} (h : exec (.modulate dst) s = .next t) :
    t = modulateInto dst s := by
  have h' : execModulate dst s = .next t := h
  unfold execModulate at h'
  split_ifs at h'
  exact (Host.Outcome.next.inj h').symm

theorem bufSamples_modulateInto (dst : BufSel) (s : State) :
    bufSamples dst (modulateInto dst s) = modulateSeq s.fOffset.toInt s.sampleRate.toNat s.frame := by
  cases dst <;> rfl

theorem bufLen_modulateInto (dst : BufSel) (s : State) : bufLen dst (modulateInto dst s) = s.frameLen := by
  cases dst <;> rfl

/-- Sample `k` is the mix of the level at `k`, where there is one (P1). -/
theorem modulateSeq_getElem? (offset : Int) (rate : Nat) (f : List Level) (k : Nat) :
    (modulateSeq offset rate f)[k]? = f[k]?.map (mixSample offset rate k) :=
  List.getElem?_mapIdx

/-- A sample of the destination is the mix of FRAME's level at its index. -/
theorem sample_of_modulateInto {dst : BufSel} {s : State} {k : Nat} {c : C32} {l : Level}
    (hc : (bufSamples dst (modulateInto dst s))[k]? = some c) (hl : s.frame[k]? = some l) :
    c = mixSample s.fOffset.toInt s.sampleRate.toNat k l := by
  rw [bufSamples_modulateInto, modulateSeq_getElem?, hl] at hc
  exact (Option.some.inj hc).symm

/-- Settles O34: MODULATE is the mix of FRAME, sample by sample, into its destination alone. -/
theorem modulateKeepsLengthAndSilence : Obligations.ModulateKeepsLengthAndSilence := by
  intro dst s hfits
  refine ⟨_, exec_modulate_of_fits hfits, ?_, bufLen_modulateInto dst s, fun k c hc hl => ?_,
    fun s' t' dst' k h hoffset hrate hlevel => ?_, ?_, ?_⟩
  · rw [bufSamples_modulateInto, modulateSeq_length]
  · rw [sample_of_modulateInto hc hl]
    exact mixSample_low _ _ k
  · rw [exec_modulate_next h, bufSamples_modulateInto, bufSamples_modulateInto, modulateSeq_getElem?,
      modulateSeq_getElem?, hoffset, hrate, hlevel]
  · rintro rfl
    rfl
  · rintro rfl
    rfl

/-- Settles O35: every stored sample is a mix, and every mix meets P3 and P4. -/
theorem modulatedHighSamplesAreAccurate : Obligations.ModulatedHighSamplesAreAccurate := by
  intro dst s t hrate h k c hc hl
  rw [exec_modulate_next h] at hc
  rw [sample_of_modulateInto hc hl]
  exact mixSample_ok _ _ k .high hrate

/-! ### Frames that do not fit -/

theorem exec_modulate_of_oversized {dst : BufSel} {s : State} (h : bufCapUnits dst * s.n.toNat < s.frame.length) :
    exec (.modulate dst) s = .fault .bufferOverflow :=
  if_neg (Nat.not_le.mpr h)

/-- Settles O37: the capacities are 576 and 360 clock periods. -/
theorem oversizedFramesStop : Obligations.OversizedFramesStop := fun _ =>
  ⟨fun h => if_neg (Nat.not_le.mpr h), fun h => exec_modulate_of_oversized (dst := .tx) h,
    fun h => exec_modulate_of_oversized (dst := .stop) h⟩

/-! ### The exact phase -/

/-- The phase numerator is the remainder of F_OFFSET · k (R143). -/
theorem phaseNum_cast (offset : Int) {rate : Nat} (k : Nat) (hr : 0 < rate) :
    ((phaseNum offset rate k : Nat) : Int) = (offset * k) % (rate : Int) :=
  Int.toNat_of_nonneg (Int.emod_nonneg _ (by omega))

/-- An offset a whole sample rate away gives the same phase (R147). -/
theorem phaseNum_add_rate (offset : Int) (rate k : Nat) : phaseNum (offset + rate) rate k = phaseNum offset rate k := by
  rw [phaseNum, phaseNum, Int.add_mul, Int.add_mul_emod_self_left]

theorem phaseNum_zero (rate k : Nat) : phaseNum 0 rate k = 0 := by
  simp [phaseNum]

theorem cosSum_zero (m : Nat) : cosSum 0 (m + 1) = 1 := by
  induction m with
  | zero => simp [cosSum]
  | succ m ih => rw [cosSum, ih]; simp

theorem sinSum_zero (m : Nat) : sinSum 0 m = 0 := by
  induction m with
  | zero => rfl
  | succ m ih => rw [sinSum, ih]; simp

/-- At phase 0 the cosine is 1 and the sine 0. -/
theorem phasor_zero (q : Nat) : phasor 0 q = (1, 0) := by
  simp [phasor, cosSum_zero 11, sinSum_zero]

/-- Settles O36: the reference looks at the offset through the phase numerator alone. -/
theorem referencePhaseAliases : Obligations.ReferencePhaseAliases := by
  refine fun l offset rate k hr => ⟨phaseNum_lt offset rate k hr, phaseNum_cast offset k hr, ?_, ?_⟩
  · rw [reference, reference, phaseNum_add_rate]
  · rw [reference, phaseNum_zero, phasor_zero, mul_one, mul_zero]

end Sys2Proof.Machine
end
